-- ==== Sys2Proof/Word.lean ====
section
/-! DEFINITION. The word, the byte and the bit string of the HCE (00_scope R7, R13). -/

namespace Sys2Proof

/-- An 8-bit field of a command word (30_encoding R100). -/
abbrev Byte := BitVec 8

/-- A register, a command word or a bus word: W = 64 bits (00_scope R7). -/
abbrev Word := BitVec 64

/-- UMAX, the largest natural a register holds (00_scope R7). -/
abbrev umax : Nat := 2 ^ 64 - 1

/-- A bit string in wire order: the head is the first bit written or read (00_scope R13). -/
abbrev BitStr := List Bool

end Sys2Proof
end

