-- ==== Sys2Proof/Syntax.lean ====
section
/-! DEFINITION. The 34 commands of the HCE command set, revision 1 (30_encoding R106), and the two ways a
command word is rejected (30_encoding R107). -/

namespace Sys2Proof

/-- One constructor per row of the opcode map (30_encoding R106).
The commands with a K column carry K, the byte 15:8 of the word: the binary width n, the Rice exponent p or the
Vbyte block b (30_encoding R105).
Every other operand is a register (30_encoding R104). -/
inductive Instr where
  | nop
  | uniEnt
  | binEnc (n : Byte)
  | binDec (n : Byte)
  | binEncU
  | binDecU
  | unaEnc
  | unaDec
  | unaEncU
  | unaDecU
  | gamEnc
  | gamDec
  | gamEncU
  | gamDecU
  | delEnc
  | delDec
  | delEncU
  | delDecU
  | riceEnc (p : Byte)
  | riceDec (p : Byte)
  | riceEncU (p : Byte)
  | riceDecU (p : Byte)
  | vbEnc (b : Byte)
  | vbDec (b : Byte)
  | vbEncU (b : Byte)
  | vbDecU (b : Byte)
  | hClr
  | hInc
  | hBuild
  | hCode
  | hEnc
  | hDec
  | hSer
  | hDeser
  deriving DecidableEq, Repr

/-- Why a command word is no command (30_encoding R107). -/
inductive DecodeError where
  /-- RSV ≠ 0, an unassigned OPC, or K ≠ 0 on an opcode that takes none (30_encoding R108). -/
  | illegal
  /-- K outside the range its opcode allows (30_encoding R105). -/
  | param
  deriving DecidableEq, Repr

end Sys2Proof
end

