-- ==== Sys2Proof/WellFormed.lean ====
section
/-! DEFINITION. When a command term is one that a command word can carry: K in the range of its opcode
(30_encoding R105). -/

namespace Sys2Proof

/-- A legal binary width: 0 ≤ n ≤ 64 (30_encoding R105, 00_scope R12). -/
def binWidthOk (n : Byte) : Bool := n.toNat ≤ 64

/-- A legal Rice exponent: 0 ≤ p ≤ 63 (30_encoding R105, 00_scope R12). -/
def riceExpOk (p : Byte) : Bool := p.toNat ≤ 63

/-- A legal Vbyte block: 1 ≤ b ≤ 63 (30_encoding R105, 00_scope R12). -/
def vbBlockOk (b : Byte) : Bool := 1 ≤ b.toNat && b.toNat ≤ 63

/-- K is in the range of the command's opcode (30_encoding R105). -/
def Instr.wf : Instr → Bool
  | .nop => true
  | .uniEnt => true
  | .binEnc n => binWidthOk n
  | .binDec n => binWidthOk n
  | .binEncU => true
  | .binDecU => true
  | .unaEnc => true
  | .unaDec => true
  | .unaEncU => true
  | .unaDecU => true
  | .gamEnc => true
  | .gamDec => true
  | .gamEncU => true
  | .gamDecU => true
  | .delEnc => true
  | .delDec => true
  | .delEncU => true
  | .delDecU => true
  | .riceEnc p => riceExpOk p
  | .riceDec p => riceExpOk p
  | .riceEncU p => riceExpOk p
  | .riceDecU p => riceExpOk p
  | .vbEnc b => vbBlockOk b
  | .vbDec b => vbBlockOk b
  | .vbEncU b => vbBlockOk b
  | .vbDecU b => vbBlockOk b
  | .hClr => true
  | .hInc => true
  | .hBuild => true
  | .hCode => true
  | .hEnc => true
  | .hDec => true
  | .hSer => true
  | .hDeser => true

end Sys2Proof
end

