-- ==== Sys2Proof/Decode.lean ====
section
/-! DEFINITION. Decoding a command word (30_encoding R107), total over all 2^64 words, and the encoder
(30_encoding R100, R111), both written from the opcode map of 30_encoding R106. -/

namespace Sys2Proof

/-- OPC, bits 7:0 of the word (30_encoding R100). -/
def opcField (w : Word) : Byte := w.extractLsb' 0 8

/-- K, bits 15:8 of the word (30_encoding R100, R105). -/
def kField (w : Word) : Byte := w.extractLsb' 8 8

/-- RSV, bits 63:16 of the word, which must be 0 (30_encoding R100). -/
def rsvField (w : Word) : BitVec 48 := w.extractLsb' 16 48

/-- An opcode whose K column is 0: K ≠ 0 is ILLEGAL (30_encoding R105, R107). -/
def decodeNoK (k : Byte) (i : Instr) : Except DecodeError Instr :=
  if k = 0#8 then .ok i else .error .illegal

/-- An opcode that takes K: K outside its range is PARAM (30_encoding R105, R107). -/
def decodeK (legal : Bool) (i : Instr) : Except DecodeError Instr :=
  if legal then .ok i else .error .param

/-- The opcode map (30_encoding R106), with the K rule of each row. -/
def decodeFields (opc k : Byte) : Except DecodeError Instr :=
  match opc with
  | 0x00#8 => decodeNoK k .nop
  | 0x01#8 => decodeNoK k .uniEnt
  | 0x10#8 => decodeK (binWidthOk k) (.binEnc k)
  | 0x11#8 => decodeK (binWidthOk k) (.binDec k)
  | 0x12#8 => decodeNoK k .binEncU
  | 0x13#8 => decodeNoK k .binDecU
  | 0x20#8 => decodeNoK k .unaEnc
  | 0x21#8 => decodeNoK k .unaDec
  | 0x22#8 => decodeNoK k .unaEncU
  | 0x23#8 => decodeNoK k .unaDecU
  | 0x30#8 => decodeNoK k .gamEnc
  | 0x31#8 => decodeNoK k .gamDec
  | 0x32#8 => decodeNoK k .gamEncU
  | 0x33#8 => decodeNoK k .gamDecU
  | 0x40#8 => decodeNoK k .delEnc
  | 0x41#8 => decodeNoK k .delDec
  | 0x42#8 => decodeNoK k .delEncU
  | 0x43#8 => decodeNoK k .delDecU
  | 0x50#8 => decodeK (riceExpOk k) (.riceEnc k)
  | 0x51#8 => decodeK (riceExpOk k) (.riceDec k)
  | 0x52#8 => decodeK (riceExpOk k) (.riceEncU k)
  | 0x53#8 => decodeK (riceExpOk k) (.riceDecU k)
  | 0x60#8 => decodeK (vbBlockOk k) (.vbEnc k)
  | 0x61#8 => decodeK (vbBlockOk k) (.vbDec k)
  | 0x62#8 => decodeK (vbBlockOk k) (.vbEncU k)
  | 0x63#8 => decodeK (vbBlockOk k) (.vbDecU k)
  | 0x80#8 => decodeNoK k .hClr
  | 0x81#8 => decodeNoK k .hInc
  | 0x82#8 => decodeNoK k .hBuild
  | 0x83#8 => decodeNoK k .hCode
  | 0x84#8 => decodeNoK k .hEnc
  | 0x85#8 => decodeNoK k .hDec
  | 0x86#8 => decodeNoK k .hSer
  | 0x87#8 => decodeNoK k .hDeser
  | _ => .error .illegal

/-- The classification of a command word (30_encoding R107): a command, ILLEGAL or PARAM. -/
def decodeWord (w : Word) : Except DecodeError Instr :=
  if rsvField w = 0#48 then decodeFields (opcField w) (kField w) else .error .illegal

/-- The opcode of a command (30_encoding R106). -/
def Instr.opc : Instr → Byte
  | .nop => 0x00
  | .uniEnt => 0x01
  | .binEnc _ => 0x10
  | .binDec _ => 0x11
  | .binEncU => 0x12
  | .binDecU => 0x13
  | .unaEnc => 0x20
  | .unaDec => 0x21
  | .unaEncU => 0x22
  | .unaDecU => 0x23
  | .gamEnc => 0x30
  | .gamDec => 0x31
  | .gamEncU => 0x32
  | .gamDecU => 0x33
  | .delEnc => 0x40
  | .delDec => 0x41
  | .delEncU => 0x42
  | .delDecU => 0x43
  | .riceEnc _ => 0x50
  | .riceDec _ => 0x51
  | .riceEncU _ => 0x52
  | .riceDecU _ => 0x53
  | .vbEnc _ => 0x60
  | .vbDec _ => 0x61
  | .vbEncU _ => 0x62
  | .vbDecU _ => 0x63
  | .hClr => 0x80
  | .hInc => 0x81
  | .hBuild => 0x82
  | .hCode => 0x83
  | .hEnc => 0x84
  | .hDec => 0x85
  | .hSer => 0x86
  | .hDeser => 0x87

/-- The K of a command; a command that takes none has K = 0 (30_encoding R105). -/
def Instr.k : Instr → Byte
  | .binEnc n => n
  | .binDec n => n
  | .riceEnc p => p
  | .riceDec p => p
  | .riceEncU p => p
  | .riceDecU p => p
  | .vbEnc b => b
  | .vbDec b => b
  | .vbEncU b => b
  | .vbDecU b => b
  | .nop | .uniEnt | .binEncU | .binDecU => 0
  | .unaEnc | .unaDec | .unaEncU | .unaDecU => 0
  | .gamEnc | .gamDec | .gamEncU | .gamDecU => 0
  | .delEnc | .delDec | .delEncU | .delDecU => 0
  | .hClr | .hInc | .hBuild | .hCode | .hEnc | .hDec | .hSer | .hDeser => 0

/-- The command word `OPC | (K << 8)` (30_encoding R111). -/
def encode (i : Instr) : Word :=
  i.opc.setWidth 64 ||| (i.k.setWidth 64 <<< 8)

/-- The command that the decoder reads from a word given as a number: the table numbers the one 64-bit command word's
bits as CMD does (30_encoding R100), and bits at or above `nbits` are 0. -/
def decodeTableWord (nbits w : Nat) : Option Instr :=
  match decodeWord (BitVec.ofNat 64 (w % 2 ^ nbits)) with
  | .ok i => some i
  | .error _ => none

end Sys2Proof
end

