-- ==== Sys2Proof/Config.lean ====
section
/-! DEFINITION. What an implementation fixes (the parameters of 00_scope, section 4) and the free values: what the
spec says reads as any value (70_reset R410, 20_memory R85), as constants without a body. -/

namespace Sys2Proof

/-- The parameters of one HCE: the character width CW (00_scope R8), the buffer sizes OLOG and ILOG (00_scope R9)
and the bus address BASE of the window (00_scope R11). -/
structure Config.Params where
  cw   : Nat
  olog : Nat
  ilog : Nat
  base : Nat
  deriving DecidableEq, Repr

/-- The ranges of the parameters (00_scope R8, R9, R11). -/
abbrev Config.Params.wf (p : Config.Params) : Prop :=
  1 ≤ p.cw ∧ p.cw ≤ 16 ∧ 6 ≤ p.olog ∧ p.olog ≤ 23 ∧ 6 ≤ p.ilog ∧ p.ilog ≤ 23 ∧ p.base % 2 ^ 22 = 0

/-- The part the vectors of 95_test_vectors use: CW = 8, OLOG = ILOG = 16.
BASE = 0 is a DESIGN CHOICE (log 1), unsafe for a claim that names this part, safe for one over every part. -/
def Config.reference : Config.Params := { cw := 8, olog := 16, ilog := 16, base := 0 }

/-- FREE VALUE: the counter a HIST entry not written since reset reads as, by draw and character
(10_state R47, 70_reset R410; log 4). -/
opaque Config.freeCount (draw c : Nat) : BitVec 32

/-- FREE VALUE: the bit an OBUF bit not written since reset reads as, by draw and bit position
(10_state R48, 20_memory R75, 70_reset R410; log 4). -/
opaque Config.freeObufBit (draw i : Nat) : Bool

/-- FREE VALUE: the word an IBUF word not written since reset reads as, by draw and word index
(10_state R48, 20_memory R75, 70_reset R410; log 4). -/
opaque Config.freeIbufWord (draw j : Nat) : Word

/-- FREE VALUE: what a host read of work state returns while BUSY, by draw (20_memory R85, 70_reset R423; log 5). -/
opaque Config.freeBusyWord (draw : Nat) : Word

end Sys2Proof
end

