-- ==== Sys2Proof/Machine/State.lean ====
section
/-! DEFINITION. The state of the HCE (10_state R55) as plain data, the reasons a step can stop, and the state after a
hardware reset (70_reset R410). -/

namespace Sys2Proof.Machine

/-- The completion codes of STATUS.ECODE, exactly these thirteen (60_exceptions R371). -/
inductive ErrCode where
  /-- 0 OK: the command completed normally. -/
  | ok
  /-- 1 ILLEGAL: the word is no command (30_encoding R107). -/
  | illegal
  /-- 2 PARAM: K outside its range (30_encoding R105). -/
  | param
  /-- 3 UNIVERSE: ULO > UHI (40 R143). -/
  | emptyUniverse
  /-- 4 RANGE: a value or character outside its range (40 R144, R145, 44 R291, 45 R335). -/
  | range
  /-- 5 ARG: an argument the code is not defined on (41 R192, R194, R202, R204, 42 R222, R224). -/
  | arg
  /-- 6 SINK_FULL: the output does not fit OBUF (20_memory R76). -/
  | sinkFull
  /-- 7 SRC_EMPTY: a read past the end of the source view (20_memory R78). -/
  | srcEmpty
  /-- 8 OVERFLOW: a decoded value of 2^64 or more, or a saturated counter (40 R148, 42 R221, 44 R291, 45 R335). -/
  | overflow
  /-- 9 NO_TREE: the command needs a tree that is not held (43 R263 to R265, 45 R333). -/
  | noTree
  /-- 10 NOT_IN_TREE: X is no character of the held tree (43 R263). -/
  | notInTree
  /-- 11 MALFORMED: a serialized topology too long, or a repeated character (45 R334, R335). -/
  | malformed
  /-- 12 CODE_LEN: a leaf deeper than 64 (44 R298, 45 R336). -/
  | codeLen
  deriving DecidableEq, Repr

/-- A Huffman tree: the edge to the left child carries bit 0, the edge to the right child bit 1 (00_scope R19). -/
inductive Tree where
  | leaf (c : Nat)
  | node (l r : Tree)
  deriving DecidableEq, Repr

/-- The tree state (10_state R49). -/
inductive TreeState where
  | none
  | empty
  | valid (t : Tree)
  deriving DecidableEq, Repr

/-- The shape a topology string describes: a tree whose leaves carry no character yet (45 R334). -/
inductive Shape where
  | leaf
  | node (l r : Shape)
  deriving DecidableEq, Repr

/-- An array whose cells are defined one by one: (index, value) pairs, indexes strictly rising (`Memory.wf`).
A cell that is not listed has not been written since reset and reads as a free value (70_reset R410; log 4). -/
abbrev Memory (α : Type) := List (Nat × α)

/-- The rest of a source view and the count q of bits consumed so far (20_memory R77, R78). -/
structure Src where
  bits : BitStr
  q    : Nat
  deriving DecidableEq, Repr

/-- An entry of the build queue: a subtree with its key (frequency, kind, tie-break) (44 R294). -/
structure Entry where
  freq : Nat
  kind : Nat
  tb   : Nat
  tree : Tree
  deriving DecidableEq, Repr

/-- The places of the HCE's window (10_state R32, 20_memory R70). -/
inductive Location where
  | id
  | ctrl
  | status
  | cmd
  | x
  | ulo
  | uhi
  | res0
  | res1
  | obit
  | ipos
  | ilen
  | params
  /-- histogram entry c (20_memory R73) -/
  | hist (c : Nat)
  /-- OBUF word j (20_memory R74) -/
  | obuf (j : Nat)
  /-- IBUF word j (20_memory R74) -/
  | ibuf (j : Nat)
  /-- any other offset of the window (20_memory R72) -/
  | reserved
  deriving DecidableEq, Repr

/-- One bus access of the HOST: a bus address, a width in bytes and, for a write, the data (10_state R30,
20_memory R80). -/
inductive HostAccess where
  | read (addr width : Nat)
  | write (addr width : Nat) (v : Word)
  deriving DecidableEq, Repr

/-- Whose step comes next (10_state R30; log 2). -/
inductive Turn where
  /-- the HOST performs one access -/
  | host (a : HostAccess)
  /-- the ENGINE takes its step, if it is enabled -/
  | engine
  /-- the reset input is asserted (70_reset R410) -/
  | hardReset
  deriving DecidableEq, Repr

/-- What the bus answered to the last host access (20_memory R80; log 6, 8). -/
inductive BusResponse where
  /-- no access since reset -/
  | none
  /-- the data of a read -/
  | data (v : Word)
  /-- a write was taken from the bus: stored, dropped or ignored -/
  | written
  /-- the bus-error response: a fault of the host access, which changed no HCE state and returned no data -/
  | busError
  deriving DecidableEq, Repr

/-- The whole state (10_state R55), and three fields of the model's own: `draws`, `turns`, `response`. -/
structure State where
  /-- the constants of this part, read through PARAMS (10_state R42); no step changes them -/
  params   : Config.Params
  /-- CTRL.IE (10_state R34) -/
  ie       : Bool
  /-- STATUS.BUSY (10_state R35) -/
  busy     : Bool
  /-- STATUS.DONE (10_state R36) -/
  done     : Bool
  /-- STATUS.ERR (10_state R37) -/
  err      : Bool
  /-- STATUS.WOVR (10_state R38) -/
  wovr     : Bool
  /-- STATUS.ECODE (10_state R40) -/
  ecode    : ErrCode
  /-- CMD, the last accepted command word (10_state R43) -/
  cmd      : Word
  /-- X (10_state R44) -/
  x        : Word
  /-- ULO (10_state R44) -/
  ulo      : Word
  /-- UHI (10_state R44) -/
  uhi      : Word
  /-- RES0 (10_state R45) -/
  res0     : Word
  /-- RES1 (10_state R45) -/
  res1     : Word
  /-- OBIT, the sink cursor (10_state R46) -/
  obit     : Word
  /-- IPOS, the source cursor (10_state R46) -/
  ipos     : Word
  /-- ILEN, the number of valid source bits (10_state R46) -/
  ilen     : Word
  /-- HIST, by character (10_state R47) -/
  hist     : Memory (BitVec 32)
  /-- OBUF, by bit position (10_state R48) -/
  obuf     : Memory Bool
  /-- IBUF, by word index: the host writes whole words only (10_state R48, 20_memory R75) -/
  ibuf     : Memory Word
  /-- TREE (10_state R49) -/
  tree     : TreeState
  /-- the MODEL'S: the number of the next draw of free values (log 4) -/
  draws    : Nat
  /-- the MODEL'S: the turns lined up, the next one first (log 2) -/
  turns    : List Turn
  /-- the MODEL'S: the bus's answer to the last host access (log 8) -/
  response : BusResponse
  deriving DecidableEq, Repr

/-- Why a step stops for good. -/
inductive Fault where
  /-- Raised by a host turn whose bus address is outside [BASE, BASE + 2^22): the access is not addressed to the HCE
  (20_memory R70; log 7).
  Safe: the model stops where the HCE would not take part in the access. -/
  | outsideWindow
  deriving DecidableEq, Repr

/-- Why a step gives an instruction no meaning. -/
inductive Refusal where
  /-- Raised by an arm of `exec` that has no meaning yet; no arm is left so.
  Safe: the model stops where the hardware goes on. -/
  | notModelled (mnemonic : String)
  deriving DecidableEq, Repr

/-- The state after a hardware reset of the part with parameters p (70_reset R410): every register 0, TREE NONE, every
cell of HIST, OBUF and IBUF unwritten. -/
def State.resetWith (p : Config.Params) : State where
  params := p
  ie := false
  busy := false
  done := false
  err := false
  wovr := false
  ecode := .ok
  cmd := 0
  x := 0
  ulo := 0
  uhi := 0
  res0 := 0
  res1 := 0
  obit := 0
  ipos := 0
  ilen := 0
  hist := []
  obuf := []
  ibuf := []
  tree := .none
  draws := 0
  turns := []
  response := .none

/-- The state after a hardware reset of the reference part (70_reset R410; log 1). -/
def State.reset : State := State.resetWith Config.reference

end Sys2Proof.Machine
end

