-- ==== Sys2Proof/Machine/Operands.lean ====
section
/-! DEFINITION. Numbers, bit strings and operands: the notation of 00_scope R15 and R16, the derived parameters, and
the universe operand with its prologue and epilogue (40_bitio_universe_binary R140 to R145). -/

namespace Sys2Proof.Machine

/-- bw(v), the bit width of v (00_scope R15). -/
def bw (v : Nat) : Nat := if v = 0 then 0 else v.log2 + 1

/-- bin(v, n), the low n bits of v, bit 0 first (00_scope R16). -/
def bin (v : Nat) : Nat → BitStr
  | 0 => []
  | n + 1 => (v % 2 == 1) :: bin (v / 2) n

/-- val(a) = Σ a[i]·2^i, the natural of a bit string (00_scope R16). -/
def val : BitStr → Nat
  | [] => 0
  | b :: a => b.toNat + 2 * val a

/-- A natural below 2^64 as a register's contents (00_scope R14). -/
def reg (n : Nat) : Word := BitVec.ofNat 64 n

/-- The number of characters, 2^CW (00_scope R8). -/
def numChars (p : Config.Params) : Nat := 2 ^ p.cw

/-- OCAP, the bits OBUF holds (00_scope R9). -/
def ocap (p : Config.Params) : Nat := 2 ^ p.olog

/-- ICAP, the bits IBUF holds (00_scope R9). -/
def icap (p : Config.Params) : Nat := 2 ^ p.ilog

/-- NMAX, the largest node count of a tree (00_scope R10). -/
def nmax (p : Config.Params) : Nat := 2 ^ (p.cw + 1) - 1

/-- LMAX, the largest codeword length (00_scope R10). -/
def lmax : Nat := 64

/-- entropy(lo, hi) = max(1, bw(hi − lo)) for lo ≤ hi (40 R141). -/
def entropy (lo hi : Nat) : Nat := max 1 (bw (hi - lo))

/-- A universe-form command or UNI.ENT with ULO > UHI raises UNIVERSE (40 R143). -/
def checkUniverse (s : State) : Except ErrCode Unit :=
  if s.uhi.toNat < s.ulo.toNat then .error .emptyUniverse else .ok ()

/-- UPro: X must lie in the universe; its relative value X − ULO (40 R142, R144). -/
def upro (s : State) : Except ErrCode Nat :=
  if s.ulo.toNat ≤ s.x.toNat ∧ s.x.toNat ≤ s.uhi.toNat then .ok (s.x.toNat - s.ulo.toNat) else .error .range

/-- UEpi(r): the absolute value ULO + r, in ℕ, must not exceed UHI (40 R142, R145). -/
def uepi (s : State) (r : Nat) : Except ErrCode Nat :=
  if s.uhi.toNat < s.ulo.toNat + r then .error .range else .ok (s.ulo.toNat + r)

/-- A raw decoded value of 2^64 or more is OVERFLOW (40 R148). -/
def checkWord (v : Nat) : Except ErrCode Unit :=
  if 2 ^ 64 ≤ v then .error .overflow else .ok ()

/-- K must be legal, else PARAM (30_encoding R105).
The decoder rejects such a word already (30_encoding R107); the meanings say the same of the term (log 10). -/
def checkK (legal : Bool) : Except ErrCode Unit :=
  if legal then .ok () else .error .param

end Sys2Proof.Machine
end

