-- ==== Sys2Proof/Machine/Flags.lean ====
section
/-! DEFINITION. The constant registers, STATUS and CTRL as words, and what sets and clears their fields
(10_state R33 to R42, R56). -/

namespace Sys2Proof.Machine

/-- ID (10_state R33). -/
def idWord : Word := 0x0000000100484345

/-- PARAMS: CW in 7:0, W = 64 in 15:8, OLOG in 23:16, ILOG in 31:24, 0 above (10_state R42). -/
def paramsWord (p : Config.Params) : Word :=
  reg (p.cw + 64 * 2 ^ 8 + p.olog * 2 ^ 16 + p.ilog * 2 ^ 24)

/-- The number of an error code (60_exceptions R371). -/
def ErrCode.code : ErrCode → Nat
  | .ok => 0
  | .illegal => 1
  | .param => 2
  | .emptyUniverse => 3
  | .range => 4
  | .arg => 5
  | .sinkFull => 6
  | .srcEmpty => 7
  | .overflow => 8
  | .noTree => 9
  | .notInTree => 10
  | .malformed => 11
  | .codeLen => 12

/-- The error code a rejected word completes with (30_encoding R107). -/
def rejectCode : DecodeError → ErrCode
  | .illegal => .illegal
  | .param => .param

/-- STATUS.TREE's encoding of the tree state (10_state R39). -/
def treeCode : TreeState → Nat
  | .none => 0
  | .empty => 1
  | .valid _ => 2

/-- STATUS bits 5:4 as the host reads them: any value while BUSY (10_state R39, 20_memory R85). -/
def treeField (s : State) : Nat :=
  if s.busy then (Config.freeBusyWord s.draws).toNat % 4 else treeCode s.tree

/-- STATUS as the host reads it (10_state R35 to R41). -/
def statusWord (s : State) : Word :=
  reg (s.busy.toNat + s.done.toNat * 2 + s.err.toNat * 4 + s.wovr.toNat * 8 + treeField s * 16 + s.ecode.code * 256)

/-- CTRL as the host reads it: SRST and the reserved bits read 0 (10_state R34). -/
def ctrlWord (s : State) : Word := reg s.ie.toNat

/-- IRQ = STATUS.DONE & CTRL.IE (10_state R56, 60_exceptions R376). -/
def irq (s : State) : Bool := s.done && s.ie

/-- A host write of v to STATUS clears those of DONE, ERR and WOVR whose bit is 1 in v (10_state R36 to R38, R41). -/
def writeStatus (v : Word) (s : State) : State :=
  { s with done := s.done && !v.getLsbD 1, err := s.err && !v.getLsbD 2, wovr := s.wovr && !v.getLsbD 3 }

/-- The completion fields after a command that ended with code e (60_exceptions R374).
The model's own draw counter moves on, so that no later step sees the same free values (log 4). -/
def completeWith (e : ErrCode) (s : State) : State :=
  { s with ecode := e, done := true, err := s.err || e != .ok, busy := false, draws := s.draws + 1 }

/-- Acceptance of a command word (10_state R31). -/
def accept (w : Word) (s : State) : State :=
  { s with cmd := w, busy := true, done := false }

end Sys2Proof.Machine
end

