-- ==== Sys2Proof/Machine/Ops.lean ====
section
/-! DEFINITION. The named operations over memory and registers: cell arrays, the sink and the source
(20_memory R76 to R78), completion (60_exceptions R373, R374), and the two resets (70_reset R410, R411). -/

namespace Sys2Proof.Machine

/-- The cell at index k, if it has been written since reset. -/
def Memory.get? {α : Type} : Memory α → Nat → Option α
  | [], _ => none
  | (j, v) :: m, k => if j = k then some v else Memory.get? m k

/-- The values a, at indexes k, k + 1, ... -/
def Memory.block {α : Type} (k : Nat) : List α → Memory α
  | [] => []
  | v :: a => (k, v) :: Memory.block (k + 1) a

/-- The memory with the values a stored at indexes k to k + len(a) − 1. -/
def Memory.store {α : Type} (m : Memory α) (k : Nat) (a : List α) : Memory α :=
  m.filter (fun c => decide (c.1 < k)) ++ Memory.block k a ++ m.filter (fun c => decide (k + a.length ≤ c.1))

/-- The canonical form: indexes strictly rising, each below the capacity. -/
abbrev Memory.wf {α : Type} (cap : Nat) (m : Memory α) : Prop :=
  m.Pairwise (fun a b => a.1 < b.1) ∧ ∀ c ∈ m, c.1 < cap

/-- HIST[c] as a read sees it; a counter not written since reset is a free value (10_state R47, 70_reset R410). -/
def histCount (s : State) (c : Nat) : BitVec 32 :=
  (Memory.get? s.hist c).getD (Config.freeCount s.draws c)

/-- OBUF bit i as a read sees it (20_memory R75, 70_reset R410). -/
def obufBit (s : State) (i : Nat) : Bool :=
  (Memory.get? s.obuf i).getD (Config.freeObufBit s.draws i)

/-- OBUF word j: stream bit 64j + i is its bit i (20_memory R74). -/
def obufWord (s : State) (j : Nat) : Word :=
  reg (val ((List.range 64).map fun i => obufBit s (64 * j + i)))

/-- IBUF word j as a read sees it (20_memory R75, 70_reset R410). -/
def ibufWord (s : State) (j : Nat) : Word :=
  (Memory.get? s.ibuf j).getD (Config.freeIbufWord s.draws j)

/-- IBUF bit i: bit i mod 64 of word i div 64 (20_memory R74). -/
def ibufBit (s : State) (i : Nat) : Bool :=
  (ibufWord s (i / 64)).getLsbD (i % 64)

/-- END = min(ILEN, ICAP), where the source view ends (20_memory R77). -/
def sourceEnd (s : State) : Nat := min s.ilen.toNat (icap s.params)

/-- The source view S = IBUF[IPOS .. END), empty when IPOS ≥ END (20_memory R77). -/
def sourceView (s : State) : BitStr :=
  (List.range (sourceEnd s - s.ipos.toNat)).map fun j => ibufBit s (s.ipos.toNat + j)

/-- A parse starts at the head of the source view with q = 0 (20_memory R78). -/
def source (s : State) : Src := { bits := sourceView s, q := 0 }

/-- Get(): one bit of the source (20_memory R78). -/
def get (src : Src) : Except ErrCode (Bool × Src) :=
  match src.bits with
  | [] => .error .srcEmpty
  | b :: rest => .ok (b, { bits := rest, q := src.q + 1 })

/-- GetN(n): n bits of the source, the first one bit 0 of the result (20_memory R78). -/
def getN (n : Nat) (src : Src) : Except ErrCode (Nat × Src) :=
  if src.bits.length < n then .error .srcEmpty
  else .ok (val (src.bits.take n), { bits := src.bits.drop n, q := src.q + n })

/-- Emit(a): SINK_FULL before any bit is written, else OBUF and OBIT (20_memory R76). -/
def emit (a : BitStr) (s : State) : Except ErrCode State :=
  if ocap s.params < s.obit.toNat + a.length then .error .sinkFull
  else .ok { s with obuf := Memory.store s.obuf s.obit.toNat a, obit := reg (s.obit.toNat + a.length) }

/-- RES0 <- v. -/
def setRes0 (v : Nat) (s : State) : State := { s with res0 := reg v }

/-- RES1 <- v. -/
def setRes1 (v : Nat) (s : State) : State := { s with res1 := reg v }

/-- IPOS <- IPOS + q, the decoder's move of the source cursor (20_memory R78). -/
def advanceIpos (q : Nat) (s : State) : State := { s with ipos := reg (s.ipos.toNat + q) }

/-- TREE <- t (10_state R49). -/
def setTree (t : TreeState) (s : State) : State := { s with tree := t }

/-- HIST <- m (10_state R47). -/
def setHist (m : Memory (BitVec 32)) (s : State) : State := { s with hist := m }

/-- The encoder commit: Emit(a); RES1 <- len(a) (40 R146). -/
def encoderCommit (a : BitStr) (s : State) : Except ErrCode State :=
  (emit a s).map (setRes1 a.length)

/-- The decoder commit: IPOS <- IPOS + q; RES0 <- v; RES1 <- q (40 R147). -/
def decoderCommit (v : Nat) (src : Src) (s : State) : State :=
  setRes1 src.q (setRes0 v (advanceIpos src.q s))

/-- Completion, the machine's one way to end a command, with an error or without (60_exceptions R373, R374): the
commit's state if none was raised, else the state before; then the completion fields. -/
def complete (s : State) (r : Except ErrCode State) : Host.Outcome State Fault Refusal :=
  .next (match r with
    | .ok t => completeWith .ok t
    | .error e => completeWith e s)

/-- A word that is no command completes with ILLEGAL or PARAM (30_encoding R107, R108). -/
def reject (e : DecodeError) (s : State) : Host.Outcome State Fault Refusal :=
  complete s (.error (rejectCode e))

/-- The hardware reset (70_reset R410): every field of the spec's at its reset value.
The part's constants and the model's own fields stay (log 13). -/
def hardReset (s : State) : State :=
  { State.resetWith s.params with draws := s.draws, turns := s.turns, response := s.response }

/-- The soft reset (70_reset R411): registers and TREE as after a hardware reset; IBUF kept; HIST and OBUF kept if BUSY
was 0, else unspecified; a command in flight is abandoned. -/
def softReset (s : State) : State :=
  { hardReset s with
    ibuf := s.ibuf
    hist := if s.busy then [] else s.hist
    obuf := if s.busy then [] else s.obuf }

/-- Whose step it is: the next turn lined up, or the ENGINE's when none is (10_state R30, 70_reset R430; log 2). -/
def nextTurn (s : State) : Turn := s.turns.head?.getD .engine

/-- The state with the turn taken off the line. -/
def takeTurn (s : State) : State := { s with turns := s.turns.tail }

end Sys2Proof.Machine
end

