-- ==== Sys2Proof/Machine/Bus.lean ====
section
/-! DEFINITION. The HOST's accesses: the address map (20_memory R70 to R75), reads (10_state, 20_memory R85), writes
(10_state, 70_reset R422), and the bus error (20_memory R80). -/

namespace Sys2Proof.Machine

/-- The register at an offset of the register region (10_state R32). -/
def registerAt (off : Nat) : Location :=
  match off with
  | 0x000 => .id
  | 0x008 => .ctrl
  | 0x010 => .status
  | 0x018 => .cmd
  | 0x020 => .x
  | 0x028 => .ulo
  | 0x030 => .uhi
  | 0x038 => .res0
  | 0x040 => .res1
  | 0x048 => .obit
  | 0x050 => .ipos
  | 0x058 => .ilen
  | 0x060 => .params
  | _ => .reserved

/-- The place at an offset, a multiple of 8, of the window (20_memory R70, R72 to R74). -/
def locate (p : Config.Params) (off : Nat) : Location :=
  if off < 0x080000 then registerAt off
  else if off < 0x100000 then
    let c := (off - 0x080000) / 8
    if c < numChars p then .hist c else .reserved
  else if off < 0x200000 then
    let j := (off - 0x100000) / 8
    if j < ocap p / 64 then .obuf j else .reserved
  else if off < 0x300000 then
    let j := (off - 0x200000) / 8
    if j < icap p / 64 then .ibuf j else .reserved
  else .reserved

/-- Work state reads as any value while BUSY (20_memory R85, 70_reset R423). -/
def settled (s : State) (v : Word) : Word :=
  if s.busy then Config.freeBusyWord s.draws else v

/-- What a read of a place returns (10_state R33 to R46, 20_memory R72 to R75, R85). -/
def readLocation (s : State) : Location → Word
  | .id => idWord
  | .ctrl => ctrlWord s
  | .status => statusWord s
  | .cmd => s.cmd
  | .x => s.x
  | .ulo => s.ulo
  | .uhi => s.uhi
  | .res0 => settled s s.res0
  | .res1 => settled s s.res1
  | .obit => settled s s.obit
  | .ipos => settled s s.ipos
  | .ilen => s.ilen
  | .params => paramsWord s.params
  | .hist c => settled s ((histCount s c).setWidth 64)
  | .obuf j => settled s (obufWord s j)
  | .ibuf j => ibufWord s j
  | .reserved => 0

/-- A write that BUSY drops: it changes nothing and sets WOVR; else it stores (70_reset R422, 10_state R38). -/
def unlessBusy (s stored : State) : State :=
  if s.busy then { s with wovr := true } else stored

/-- A host write to CTRL: bit 1 is SRST and wins over bit 0, IE (10_state R34). -/
def writeCtrl (v : Word) (s : State) : State :=
  if v.getLsbD 1 then softReset s else { s with ie := v.getLsbD 0 }

/-- What a write of v to a place does (10_state R31 to R46, 20_memory R72 to R75, 70_reset R422). -/
def writeLocation (s : State) (v : Word) : Location → State
  | .ctrl => writeCtrl v s
  | .status => writeStatus v s
  | .cmd => unlessBusy s (accept v s)
  | .x => unlessBusy s { s with x := v }
  | .ulo => unlessBusy s { s with ulo := v }
  | .uhi => unlessBusy s { s with uhi := v }
  | .obit => unlessBusy s { s with obit := v }
  | .ipos => unlessBusy s { s with ipos := v }
  | .ilen => unlessBusy s { s with ilen := v }
  | .hist c => unlessBusy s { s with hist := Memory.store s.hist c [v.setWidth 32] }
  | .ibuf j => unlessBusy s { s with ibuf := Memory.store s.ibuf j [v] }
  | .id | .res0 | .res1 | .params | .obuf _ | .reserved => s

/-- The bus's answer to an access (20_memory R80; log 8). -/
def respond (r : BusResponse) (s : State) : State := { s with response := r }

/-- A read returns its data and changes no HCE state (20_memory R81).
The draw counter moves on, so that the next read draws afresh (log 4). -/
def finishRead (v : Word) (s : State) : State :=
  { s with response := .data v, draws := s.draws + 1 }

/-- The access has the one width and an alignment the HCE accepts (20_memory R80). -/
def accessOk (off width : Nat) : Bool := width == 8 && off % 8 == 0

/-- The bus address lies in the window [BASE, BASE + 2^22) (00_scope R11, 20_memory R70). -/
def inWindow (p : Config.Params) (addr : Nat) : Bool := p.base ≤ addr && addr < p.base + 2 ^ 22

/-- The HOST's step: one access (10_state R30, 20_memory R80). -/
def hostStep (s : State) : HostAccess → Host.Outcome State Fault Refusal
  | .read addr width =>
    if inWindow s.params addr then
      if accessOk (addr - s.params.base) width then
        .next (finishRead (readLocation s (locate s.params (addr - s.params.base))) s)
      else .next (respond .busError s)
    else .fault .outsideWindow
  | .write addr width v =>
    if inWindow s.params addr then
      if accessOk (addr - s.params.base) width then
        .next (respond .written (writeLocation s v (locate s.params (addr - s.params.base))))
      else .next (respond .busError s)
    else .fault .outsideWindow

end Sys2Proof.Machine
end

