-- ==== Sys2Proof/Machine/Codes.lean ====
section
/-! DEFINITION. The six codes and their parsers: binary (40 R152), unary (41 R180), Elias-gamma (41 R190, R191),
Elias-delta (41 R200, R201), Rice (42 R220, R221) and Vbyte (42 R230, R231).
Where the spec writes an `|` of two numbers whose bits do not meet, the text below writes their sum (log 11). -/

namespace Sys2Proof.Machine

/-- unary(x) = 1^x ++ [0] (41 R180). -/
def unary (x : Nat) : BitStr := List.replicate x true ++ [false]

/-- PUnary from a count c: ones up to the first zero (41 R180). -/
def countOnes (c : Nat) : BitStr → Nat → Except ErrCode (Nat × Src)
  | [], _ => .error .srcEmpty
  | true :: rest, q => countOnes (c + 1) rest (q + 1)
  | false :: rest, q => .ok (c, { bits := rest, q := q + 1 })

/-- PUnary (41 R180). -/
def pUnary (src : Src) : Except ErrCode (Nat × Src) := countOnes 0 src.bits src.q

/-- gamma(x) = unary(m) ++ bin(x, m) with m = bw(x) − 1, for x ≥ 1 (41 R190). -/
def gamma (x : Nat) : BitStr := unary (bw x - 1) ++ bin x (bw x - 1)

/-- PGamma (41 R191). -/
def pGamma (src : Src) : Except ErrCode (Nat × Src) := do
  let (m, src) ← pUnary src
  if m = 0 then .ok (1, src)
  else do
    let (t, src) ← getN m src
    .ok (2 ^ m + t, src)

/-- delta(x) = gamma(m) ++ bin(x, m − 1) with m = bw(x), for x ≥ 1 (41 R200). -/
def delta (x : Nat) : BitStr := gamma (bw x) ++ bin x (bw x - 1)

/-- PDelta (41 R201). -/
def pDelta (src : Src) : Except ErrCode (Nat × Src) := do
  let (m, src) ← pGamma src
  if m = 1 then .ok (1, src)
  else do
    let (t, src) ← getN (m - 1) src
    .ok (2 ^ (m - 1) + t, src)

/-- rice(x, p) = gamma((x >> p) + 1) ++ bin(x mod 2^p, p) (42 R220). -/
def rice (x p : Nat) : BitStr := gamma (x / 2 ^ p + 1) ++ bin (x % 2 ^ p) p

/-- PRice(p): OVERFLOW straight after a gamma value of 2^64 or more (42 R221). -/
def pRice (p : Nat) (src : Src) : Except ErrCode (Nat × Src) := do
  let (g, src) ← pGamma src
  checkWord g
  let (r, src) ← getN p src
  .ok ((g - 1) * 2 ^ p + r, src)

/-- The blocks of vbyte(x, b), at most `blocks` continuation blocks (42 R230). -/
def vbyteBlocks (b : Nat) : Nat → Nat → BitStr
  | 0, x => true :: bin x b
  | blocks + 1, x =>
    if bw x ≤ b then true :: bin x b
    else false :: (bin x b ++ vbyteBlocks b blocks (x / 2 ^ b))

/-- vbyte(x, b) (42 R230); bw(x) bounds the number of blocks when b ≥ 1 (log 12). -/
def vbyte (x b : Nat) : BitStr := vbyteBlocks b (bw x) x

/-- The loop of PVbyte(b) with value v at block i; every round reads at least one bit, so `rounds`, the length of the
source, is never used up before the source is (42 R231; log 12). -/
def pVbyteLoop (b : Nat) : Nat → Nat → Nat → Src → Except ErrCode (Nat × Src)
  | 0, _, _, _ => .error .srcEmpty
  | rounds + 1, v, i, src => do
    let (c, src) ← get src
    let (t, src) ← getN b src
    let v := v + t * 2 ^ (i * b)
    if c then .ok (v, src) else pVbyteLoop b rounds v (i + 1) src

/-- PVbyte(b) (42 R231). -/
def pVbyte (b : Nat) (src : Src) : Except ErrCode (Nat × Src) :=
  pVbyteLoop b src.bits.length 0 0 src

end Sys2Proof.Machine
end

