-- ==== Sys2Proof/Machine/Binary.lean ====
section
/-! DEFINITION. The binary codec (40_bitio_universe_binary R152 to R156). -/

namespace Sys2Proof.Machine

/-- BIN.ENC k=n: the low n bits of X (40 R153). -/
def execBinEnc (n : Byte) (s : State) : Host.Outcome State Fault Refusal :=
  complete s do
    checkK (binWidthOk n)
    encoderCommit (bin s.x.toNat n.toNat) s

/-- BIN.DEC k=n: an n-bit value (40 R154). -/
def execBinDec (n : Byte) (s : State) : Host.Outcome State Fault Refusal :=
  complete s do
    checkK (binWidthOk n)
    let (v, src) ← getN n.toNat (source s)
    .ok (decoderCommit v src s)

/-- BIN.ENCU: rel(X) in entropy(ULO, UHI) bits (40 R155). -/
def execBinEncU (s : State) : Host.Outcome State Fault Refusal :=
  complete s do
    checkUniverse s
    let r ← upro s
    encoderCommit (bin r (entropy s.ulo.toNat s.uhi.toNat)) s

/-- BIN.DECU: abs of a value of entropy(ULO, UHI) bits (40 R156). -/
def execBinDecU (s : State) : Host.Outcome State Fault Refusal :=
  complete s do
    checkUniverse s
    let (r, src) ← getN (entropy s.ulo.toNat s.uhi.toNat) (source s)
    let v ← uepi s r
    .ok (decoderCommit v src s)

end Sys2Proof.Machine
end

