-- ==== Sys2Proof/Machine/Elias.lean ====
section
/-! DEFINITION. The Elias-gamma and Elias-delta codecs (41_unary_elias R190 to R205). -/

namespace Sys2Proof.Machine

/-- GAM.ENC: gamma(X); ARG at X = 0 (41 R192). -/
def execGamEnc (s : State) : Host.Outcome State Fault Refusal :=
  complete s do
    if s.x.toNat = 0 then .error .arg
    else encoderCommit (gamma s.x.toNat) s

/-- GAM.DEC: OVERFLOW after the parse (41 R193). -/
def execGamDec (s : State) : Host.Outcome State Fault Refusal :=
  complete s do
    let (v, src) ← pGamma (source s)
    checkWord v
    .ok (decoderCommit v src s)

/-- GAM.ENCU: gamma(rel(X) + 1); ARG at rel(X) = UMAX (41 R194). -/
def execGamEncU (s : State) : Host.Outcome State Fault Refusal :=
  complete s do
    checkUniverse s
    let r ← upro s
    if r = umax then .error .arg
    else encoderCommit (gamma (r + 1)) s

/-- GAM.DECU: abs of the decoded value less 1 (41 R195). -/
def execGamDecU (s : State) : Host.Outcome State Fault Refusal :=
  complete s do
    checkUniverse s
    let (g, src) ← pGamma (source s)
    checkWord g
    let v ← uepi s (g - 1)
    .ok (decoderCommit v src s)

/-- DEL.ENC: delta(X); ARG at X = 0 (41 R202). -/
def execDelEnc (s : State) : Host.Outcome State Fault Refusal :=
  complete s do
    if s.x.toNat = 0 then .error .arg
    else encoderCommit (delta s.x.toNat) s

/-- DEL.DEC: OVERFLOW after the parse (41 R203). -/
def execDelDec (s : State) : Host.Outcome State Fault Refusal :=
  complete s do
    let (v, src) ← pDelta (source s)
    checkWord v
    .ok (decoderCommit v src s)

/-- DEL.ENCU: delta(rel(X) + 1); ARG at rel(X) = UMAX (41 R204). -/
def execDelEncU (s : State) : Host.Outcome State Fault Refusal :=
  complete s do
    checkUniverse s
    let r ← upro s
    if r = umax then .error .arg
    else encoderCommit (delta (r + 1)) s

/-- DEL.DECU: abs of the decoded value less 1 (41 R205). -/
def execDelDecU (s : State) : Host.Outcome State Fault Refusal :=
  complete s do
    checkUniverse s
    let (g, src) ← pDelta (source s)
    checkWord g
    let v ← uepi s (g - 1)
    .ok (decoderCommit v src s)

end Sys2Proof.Machine
end

