-- ==== Sys2Proof/Machine/Huffman.lean ====
section
/-! DEFINITION. Trees: codewords (43 R260), the walk (43 R265), the build (44 R292 to R295), and the serialized form
with its parsers (45 R330 to R335). -/

namespace Sys2Proof.Machine

/-- The number of nodes (10_state R50). -/
def Tree.nodes : Tree → Nat
  | .leaf _ => 1
  | .node l r => l.nodes + r.nodes + 1

/-- The depth of the deepest leaf, in edges from the root (10_state R50). -/
def Tree.depth : Tree → Nat
  | .leaf _ => 0
  | .node l r => max l.depth r.depth + 1

/-- alpha(t): the characters of the leaves in pre-order (45 R331). -/
def Tree.alpha : Tree → List Nat
  | .leaf c => [c]
  | .node l r => l.alpha ++ r.alpha

/-- min(alpha(t)) (45 R331). -/
def Tree.minChar : Tree → Nat
  | .leaf c => c
  | .node l r => min l.minChar r.minChar

/-- max(alpha(t)) (45 R331). -/
def Tree.maxChar : Tree → Nat
  | .leaf c => c
  | .node l r => max l.maxChar r.maxChar

/-- codebits(c): the edge bits from the root to the leaf of c (43 R260). -/
def Tree.codebits (c : Nat) : Tree → Option BitStr
  | .leaf d => if d = c then some [] else none
  | .node l r =>
    match l.codebits c with
    | some p => some (false :: p)
    | none =>
      match r.codebits c with
      | some p => some (true :: p)
      | none => none

/-- The walk of H.DEC: 0 descends left, 1 descends right, until a leaf (43 R265). -/
def Tree.walk : Tree → Src → Except ErrCode (Nat × Src)
  | .leaf c, src => .ok (c, src)
  | .node l r, src => do
    let (b, src) ← get src
    if b then r.walk src else l.walk src

/-- The held tree, or NO_TREE when TREE is NONE or EMPTY (43 R263 to R265). -/
def heldTree (s : State) : Except ErrCode Tree :=
  match s.tree with
  | .none => .error .noTree
  | .empty => .error .noTree
  | .valid t => .ok t

/-- codebits(X), or NOT_IN_TREE when X is no character of a leaf (43 R263). -/
def lookupX (s : State) (t : Tree) : Except ErrCode BitStr :=
  if numChars s.params ≤ s.x.toNat then .error .notInTree
  else match t.codebits s.x.toNat with
    | some a => .ok a
    | none => .error .notInTree

/-- The leaves of the build: (c, HIST[c]) for each counted character, in order (44 R292).
Each counter is read once (log 4). -/
def histLeaves (s : State) : List (Nat × Nat) :=
  ((List.range (numChars s.params)).map fun c => (c, (histCount s c).toNat)).filter fun e => e.2 != 0

/-- A single leaf gets the synthetic second leaf (~c, 0) (44 R293). -/
def withSynthetic (cw : Nat) : List (Nat × Nat) → List (Nat × Nat)
  | [(c, f)] => [(c, f), (2 ^ cw - 1 - c, 0)]
  | leaves => leaves

/-- A leaf's queue entry, key (f, 1, c) (44 R294, R295). -/
def leafEntry (e : Nat × Nat) : Entry := { freq := e.2, kind := 1, tb := e.1, tree := .leaf e.1 }

/-- The entry of the s-th inner node, with right child r and left child l, key (l.f + r.f, 0, s) (44 R294, R295). -/
def innerEntry (s : Nat) (l r : Entry) : Entry :=
  { freq := l.freq + r.freq, kind := 0, tb := s, tree := .node l.tree r.tree }

/-- The priority order: lexicographic on (frequency, kind, tie-break) (44 R294). -/
def Entry.before (a b : Entry) : Bool :=
  a.freq < b.freq || (a.freq == b.freq && (a.kind < b.kind || (a.kind == b.kind && a.tb < b.tb)))

/-- Push into the queue, which is kept in priority order, so that its head is pop-min (44 R294, R295). -/
def push (e : Entry) : List Entry → List Entry
  | [] => [e]
  | h :: q => if e.before h then e :: h :: q else h :: push e q

/-- The merge loop with s inner nodes made so far: the first pop is the right child, the second the left (44 R295).
Each round shortens the queue by one, so its length bounds the rounds (log 12). -/
def mergeLoop : Nat → Nat → List Entry → Option Tree
  | rounds + 1, s, r :: l :: q => mergeLoop rounds (s + 1) (push (innerEntry s l r) q)
  | _, _, [e] => some e.tree
  | _, _, _ => none

/-- Build(leaves) (44 R295); no tree of no leaves. -/
def buildTree (leaves : List (Nat × Nat)) : Option Tree :=
  let q := (leaves.map leafEntry).foldr push []
  mergeLoop q.length 0 q

/-- topo(t): 1 for a leaf, 0 for an inner node, in pre-order (45 R330). -/
def Tree.topo : Tree → BitStr
  | .leaf _ => [true]
  | .node l r => false :: (l.topo ++ r.topo)

/-- ser(VALID(t)): topology, delta(min + 1), delta(max − min + 1), and each character relative to min in e bits
(45 R332). -/
def Tree.ser (t : Tree) : BitStr :=
  let e := entropy t.minChar t.maxChar
  t.topo ++ delta (t.minChar + 1) ++ delta (t.maxChar - t.minChar + 1)
    ++ t.alpha.flatMap fun c => bin (c - t.minChar) e

/-- ser(TREE) with its leaf count; EMPTY is the lone bit 1 with count 0, NONE is NO_TREE (45 R332, R333). -/
def serialize : TreeState → Except ErrCode (BitStr × Nat)
  | .none => .error .noTree
  | .empty => .ok ([true], 0)
  | .valid t => .ok (t.ser, t.alpha.length)

/-- PTopo, with n topology bits read so far and at most `cap` allowed (45 R334).
`deep` bounds the nesting: a call at depth d has read d bits, so cap + 1 is never used up before MALFORMED (log 12). -/
def pTopo (cap : Nat) : Nat → Src → Nat → Except ErrCode (Shape × Src × Nat)
  | 0, _, _ => .error .malformed
  | deep + 1, src, n => do
    let (b, src) ← get src
    if cap < n + 1 then .error .malformed
    else if b then .ok (.leaf, src, n + 1)
    else do
      let (l, src, n) ← pTopo cap deep src (n + 1)
      let (r, src, n) ← pTopo cap deep src n
      .ok (.node l r, src, n)

/-- The labelling loop of PAlpha, leaf by leaf in pre-order: RANGE, then MALFORMED on a character seen before
(45 R335). -/
def labelLeaves (chars lo hi e : Nat) : Shape → Src → List Nat → Except ErrCode (Tree × Src × List Nat)
  | .leaf, src, seen => do
    let (t, src) ← getN e src
    if hi < lo + t ∨ chars ≤ lo + t then .error .range
    else if lo + t ∈ seen then .error .malformed
    else .ok (.leaf (lo + t), src, (lo + t) :: seen)
  | .node l r, src, seen => do
    let (l, src, seen) ← labelLeaves chars lo hi e l src seen
    let (r, src, seen) ← labelLeaves chars lo hi e r src seen
    .ok (.node l r, src, seen)

/-- PAlpha(shape) (45 R335). -/
def pAlpha (chars : Nat) (shape : Shape) (src : Src) : Except ErrCode (Tree × Src) := do
  let (d1, src) ← pDelta src
  checkWord d1
  let (d2, src) ← pDelta src
  checkWord d2
  let lo := d1 - 1
  let hi := lo + (d2 - 1)
  if umax < hi then .error .range
  else do
    let (t, src, _) ← labelLeaves chars lo hi (entropy lo hi) shape src []
    .ok (t, src)

end Sys2Proof.Machine
end

