-- ==== Sys2Proof/Machine/HuffmanBuild.lean ====
section
/-! DEFINITION. The histogram and the tree builder (44_huffman_build R290 to R298). -/

namespace Sys2Proof.Machine

/-- H.CLR: every counter becomes 0 (44 R290). -/
def execHClr (s : State) : Host.Outcome State Fault Refusal :=
  complete s (.ok (setHist ((List.range (numChars s.params)).map fun c => (c, 0)) s))

/-- H.INC: counts X; RANGE when X is no character, OVERFLOW on a saturated counter (44 R291). -/
def execHInc (s : State) : Host.Outcome State Fault Refusal :=
  complete s (
    if numChars s.params ≤ s.x.toNat then .error .range
    else
      let h := (histCount s s.x.toNat).toNat
      if h = 2 ^ 32 - 1 then .error .overflow
      else .ok (setRes0 (h + 1) (setHist (Memory.store s.hist s.x.toNat [BitVec.ofNat 32 (h + 1)]) s)))

/-- H.BUILD: the canonical tree of HIST, or EMPTY; CODE_LEN on a leaf deeper than 64 (44 R297, R298). -/
def execHBuild (s : State) : Host.Outcome State Fault Refusal :=
  complete s (
    let leaves := withSynthetic s.params.cw (histLeaves s)
    match buildTree leaves with
    | none => .ok (setRes1 0 (setRes0 0 (setTree .empty s)))
    | some t =>
      if lmax < t.depth then .error .codeLen
      else .ok (setRes1 (2 * leaves.length - 1) (setRes0 leaves.length (setTree (.valid t) s))))

end Sys2Proof.Machine
end

