-- ==== Sys2Proof/Machine/HuffmanCode.lean ====
section
/-! DEFINITION. The code lookup, the Huffman encoder and the Huffman decoder (43_huffman_code R263 to R265). -/

namespace Sys2Proof.Machine

/-- H.CODE: RES0 <- word, RES1 <- length of code(X) (43 R263). -/
def execHCode (s : State) : Host.Outcome State Fault Refusal :=
  complete s do
    let t ← heldTree s
    let a ← lookupX s t
    .ok (setRes1 a.length (setRes0 (val a) s))

/-- H.ENC: emits codebits(X) (43 R264). -/
def execHEnc (s : State) : Host.Outcome State Fault Refusal :=
  complete s do
    let t ← heldTree s
    let a ← lookupX s t
    encoderCommit a s

/-- H.DEC: walks the tree from the root to a leaf (43 R265). -/
def execHDec (s : State) : Host.Outcome State Fault Refusal :=
  complete s do
    let t ← heldTree s
    let (c, src) ← t.walk (source s)
    .ok (decoderCommit c src s)

end Sys2Proof.Machine
end

