-- ==== Sys2Proof/Machine/HuffmanSerialize.lean ====
section
/-! DEFINITION. The tree serializer and deserializer (45_huffman_serialize R330 to R338). -/

namespace Sys2Proof.Machine

/-- H.SER: emits ser(TREE); RES0 <- the leaf count, 0 for EMPTY (45 R333). -/
def execHSer (s : State) : Host.Outcome State Fault Refusal :=
  complete s do
    let (a, k) ← serialize s.tree
    let s ← encoderCommit a s
    .ok (setRes0 k s)

/-- H.DESER: a topology of one bit is EMPTY; else the alphabet labels it, and CODE_LEN is checked last (45 R336). -/
def execHDeser (s : State) : Host.Outcome State Fault Refusal :=
  complete s do
    let (shape, src, n) ← pTopo (nmax s.params) (nmax s.params + 1) (source s) 0
    if n ≤ 1 then .ok (setTree .empty (decoderCommit 0 src s))
    else do
      let (t, src) ← pAlpha (numChars s.params) shape src
      if lmax < t.depth then .error .codeLen
      else .ok (setTree (.valid t) (decoderCommit t.alpha.length src s))

end Sys2Proof.Machine
end

