-- ==== Sys2Proof/Machine/Misc.lean ====
section
/-! DEFINITION. The miscellaneous commands NOP and UNI.ENT (40_bitio_universe_binary R150, R151). -/

namespace Sys2Proof.Machine

/-- NOP: commits nothing (40 R150). -/
def execNop (s : State) : Host.Outcome State Fault Refusal := complete s (.ok s)

/-- UNI.ENT: RES0 <- entropy(ULO, UHI), RES1 <- 0 (40 R151). -/
def execUniEnt (s : State) : Host.Outcome State Fault Refusal :=
  complete s do
    checkUniverse s
    .ok (setRes1 0 (setRes0 (entropy s.ulo.toNat s.uhi.toNat) s))

end Sys2Proof.Machine
end

