-- ==== Sys2Proof/Machine/Rice.lean ====
section
/-! DEFINITION. The Rice codec (42_rice_vbyte R220 to R225). -/

namespace Sys2Proof.Machine

/-- The ARG check of the Rice encoders: X >> p = UMAX, so that q + 1 would not fit a word (42 R222, R224). -/
def riceEncode (p : Byte) (x : Nat) (s : State) : Except ErrCode State :=
  if x / 2 ^ p.toNat = umax then .error .arg
  else encoderCommit (rice x p.toNat) s

/-- RICE.ENC k=p (42 R222). -/
def execRiceEnc (p : Byte) (s : State) : Host.Outcome State Fault Refusal :=
  complete s do
    checkK (riceExpOk p)
    riceEncode p s.x.toNat s

/-- RICE.DEC k=p (42 R223). -/
def execRiceDec (p : Byte) (s : State) : Host.Outcome State Fault Refusal :=
  complete s do
    checkK (riceExpOk p)
    let (v, src) ← pRice p.toNat (source s)
    checkWord v
    .ok (decoderCommit v src s)

/-- RICE.ENCU k=p: the code of rel(X) (42 R224). -/
def execRiceEncU (p : Byte) (s : State) : Host.Outcome State Fault Refusal :=
  complete s do
    checkK (riceExpOk p)
    checkUniverse s
    let r ← upro s
    riceEncode p r s

/-- RICE.DECU k=p (42 R225). -/
def execRiceDecU (p : Byte) (s : State) : Host.Outcome State Fault Refusal :=
  complete s do
    checkK (riceExpOk p)
    checkUniverse s
    let (r, src) ← pRice p.toNat (source s)
    checkWord r
    let v ← uepi s r
    .ok (decoderCommit v src s)

end Sys2Proof.Machine
end

