-- ==== Sys2Proof/Machine/Unary.lean ====
section
/-! DEFINITION. The unary codec (41_unary_elias R180 to R184). -/

namespace Sys2Proof.Machine

/-- The encoder commit of unary(x), x + 1 bits.
Emit's own capacity check is made before the string is written out, since x can be as large as UMAX (log 12). -/
def unaryCommit (x : Nat) (s : State) : Except ErrCode State :=
  if ocap s.params < s.obit.toNat + (x + 1) then .error .sinkFull
  else encoderCommit (unary x) s

/-- UNA.ENC: unary(X) (41 R181). -/
def execUnaEnc (s : State) : Host.Outcome State Fault Refusal :=
  complete s (unaryCommit s.x.toNat s)

/-- UNA.DEC (41 R182). -/
def execUnaDec (s : State) : Host.Outcome State Fault Refusal :=
  complete s do
    let (v, src) ← pUnary (source s)
    .ok (decoderCommit v src s)

/-- UNA.ENCU: unary(rel(X)) (41 R183). -/
def execUnaEncU (s : State) : Host.Outcome State Fault Refusal :=
  complete s do
    checkUniverse s
    let r ← upro s
    unaryCommit r s

/-- UNA.DECU (41 R184). -/
def execUnaDecU (s : State) : Host.Outcome State Fault Refusal :=
  complete s do
    checkUniverse s
    let (r, src) ← pUnary (source s)
    let v ← uepi s r
    .ok (decoderCommit v src s)

end Sys2Proof.Machine
end

