-- ==== Sys2Proof/Machine/Vbyte.lean ====
section
/-! DEFINITION. The Vbyte codec (42_rice_vbyte R230 to R235). -/

namespace Sys2Proof.Machine

/-- VB.ENC k=b (42 R232). -/
def execVbEnc (b : Byte) (s : State) : Host.Outcome State Fault Refusal :=
  complete s do
    checkK (vbBlockOk b)
    encoderCommit (vbyte s.x.toNat b.toNat) s

/-- VB.DEC k=b (42 R233). -/
def execVbDec (b : Byte) (s : State) : Host.Outcome State Fault Refusal :=
  complete s do
    checkK (vbBlockOk b)
    let (v, src) ← pVbyte b.toNat (source s)
    checkWord v
    .ok (decoderCommit v src s)

/-- VB.ENCU k=b: the code of rel(X) (42 R234). -/
def execVbEncU (b : Byte) (s : State) : Host.Outcome State Fault Refusal :=
  complete s do
    checkK (vbBlockOk b)
    checkUniverse s
    let r ← upro s
    encoderCommit (vbyte r b.toNat) s

/-- VB.DECU k=b (42 R235). -/
def execVbDecU (b : Byte) (s : State) : Host.Outcome State Fault Refusal :=
  complete s do
    checkK (vbBlockOk b)
    checkUniverse s
    let (r, src) ← pVbyte b.toNat (source s)
    checkWord r
    let v ← uepi s r
    .ok (decoderCommit v src s)

end Sys2Proof.Machine
end

