-- ==== Sys2Proof/Machine/Dispatch.lean ====
section
/-! DEFINITION. exec: the completion step of each command (10_state R31), one arm per constructor of Instr. -/

namespace Sys2Proof.Machine

def exec (i : Instr) (s : State) : Host.Outcome State Fault Refusal :=
  match i with
  | .nop => Sys2Proof.Machine.execNop s
  | .uniEnt => Sys2Proof.Machine.execUniEnt s
  | .binEnc n => Sys2Proof.Machine.execBinEnc n s
  | .binDec n => Sys2Proof.Machine.execBinDec n s
  | .binEncU => Sys2Proof.Machine.execBinEncU s
  | .binDecU => Sys2Proof.Machine.execBinDecU s
  | .unaEnc => Sys2Proof.Machine.execUnaEnc s
  | .unaDec => Sys2Proof.Machine.execUnaDec s
  | .unaEncU => Sys2Proof.Machine.execUnaEncU s
  | .unaDecU => Sys2Proof.Machine.execUnaDecU s
  | .gamEnc => Sys2Proof.Machine.execGamEnc s
  | .gamDec => Sys2Proof.Machine.execGamDec s
  | .gamEncU => Sys2Proof.Machine.execGamEncU s
  | .gamDecU => Sys2Proof.Machine.execGamDecU s
  | .delEnc => Sys2Proof.Machine.execDelEnc s
  | .delDec => Sys2Proof.Machine.execDelDec s
  | .delEncU => Sys2Proof.Machine.execDelEncU s
  | .delDecU => Sys2Proof.Machine.execDelDecU s
  | .riceEnc p => Sys2Proof.Machine.execRiceEnc p s
  | .riceDec p => Sys2Proof.Machine.execRiceDec p s
  | .riceEncU p => Sys2Proof.Machine.execRiceEncU p s
  | .riceDecU p => Sys2Proof.Machine.execRiceDecU p s
  | .vbEnc b => Sys2Proof.Machine.execVbEnc b s
  | .vbDec b => Sys2Proof.Machine.execVbDec b s
  | .vbEncU b => Sys2Proof.Machine.execVbEncU b s
  | .vbDecU b => Sys2Proof.Machine.execVbDecU b s
  | .hClr => Sys2Proof.Machine.execHClr s
  | .hInc => Sys2Proof.Machine.execHInc s
  | .hBuild => Sys2Proof.Machine.execHBuild s
  | .hCode => Sys2Proof.Machine.execHCode s
  | .hEnc => Sys2Proof.Machine.execHEnc s
  | .hDec => Sys2Proof.Machine.execHDec s
  | .hSer => Sys2Proof.Machine.execHSer s
  | .hDeser => Sys2Proof.Machine.execHDeser s

end Sys2Proof.Machine
end

