-- ==== Sys2Proof/Machine/Step.lean ====
section
/-! DEFINITION. One step of the machine: the turn of the HOST, of the ENGINE or of the reset input (10_state R30,
R31, 70_reset R410). -/

namespace Sys2Proof.Machine

/-- The ENGINE's completion step on the latched word (10_state R31, 30_encoding R107). -/
def engineStep (s : State) : Host.Outcome State Fault Refusal :=
  match decodeWord s.cmd with
  | .ok i => exec i s
  | .error e => reject e s

/-- The next turn: a host access, a hardware reset, or the ENGINE's step, which is enabled exactly when BUSY = 1
(10_state R30); an ENGINE turn that is not enabled changes nothing (60_exceptions R383; log 9). -/
def step (s : State) : Host.Outcome State Fault Refusal :=
  match nextTurn s with
  | .host a => hostStep (takeTurn s) a
  | .hardReset => .next (hardReset (takeTurn s))
  | .engine => if s.busy then engineStep (takeTurn s) else .next (takeTurn s)

/-- The state after the HOST's accepting write of the word to CMD (10_state R31), with the ENGINE's turn next: the HCE
fetches no instructions, its next command is the word in CMD (10_state R53; log 3). -/
def State.withFetchWord (s : State) (nbits w : Nat) : State :=
  { accept (BitVec.ofNat 64 (w % 2 ^ nbits)) s with turns := .engine :: s.turns }

end Sys2Proof.Machine
end

