-- ==== Sys2Proof/Safety.lean ====
section
/-! DEFINITION. What holds of every reachable state (the invariant), and the terms in which the claims say what a
command did: its completion, its output, its result, its failure, and everything it left alone. -/

namespace Sys2Proof.Machine

/-- The invariants (i) to (v) of a held tree (10_state R50). -/
abbrev Tree.Valid (p : Config.Params) (t : Tree) : Prop :=
  2 ≤ t.alpha.length ∧ t.nodes = 2 * t.alpha.length - 1 ∧ t.nodes ≤ nmax p ∧ t.alpha.Nodup ∧
    (∀ c ∈ t.alpha, c < numChars p) ∧ t.depth ≤ 64

/-- A held tree is a valid one (10_state R49, R50). -/
abbrev TreeState.Valid (p : Config.Params) (ts : TreeState) : Prop :=
  match ts with
  | .none => True
  | .empty => True
  | .valid t => t.Valid p

/-- The machine's invariant: legal parameters; every cell array in its canonical form and within its capacity; a held
tree valid; DONE and BUSY never both set (10_state R35, R36, R47 to R50). -/
abbrev State.Inv (s : State) : Prop :=
  s.params.wf ∧ Memory.wf (2 ^ s.params.cw) s.hist ∧ Memory.wf (2 ^ s.params.olog) s.obuf ∧
    Memory.wf (2 ^ s.params.ilog / 64) s.ibuf ∧ s.tree.Valid s.params ∧ (s.busy = true → s.done = false)

/-- bin(v, n) as 00_scope R16 writes it: the bits v[0], ..., v[n − 1]. -/
def bitsOf (v n : Nat) : BitStr := (List.range n).map v.testBit

/-- e is the entropy of (lo, hi): the least number of bits, at least 1, that holds hi − lo (40 R141). -/
def IsEntropy (lo hi e : Nat) : Prop :=
  1 ≤ e ∧ hi - lo < 2 ^ e ∧ (e = 1 ∨ 2 ^ (e - 1) ≤ hi - lo)

/-- m = floor(log2 x), for x ≥ 1 (41 R190). -/
def IsLog (x m : Nat) : Prop := 2 ^ m ≤ x ∧ x < 2 ^ (m + 1)

/-- gamma(x) for floor(log2 x) = m: m ones, a zero, the low m bits of x (41 R190). -/
def gammaStr (m x : Nat) : BitStr := List.replicate m true ++ false :: bitsOf x m

/-- A gamma code by its tail a: as many ones, a zero, the tail (41 R190). -/
def gammaBits (a : BitStr) : BitStr := List.replicate a.length true ++ false :: a

/-- The value a gamma code's tail stands for: the tail with a leading 1 above it (41 R191). -/
def gammaValue (a : BitStr) : Nat := 2 ^ a.length + val a

/-- Vbyte continuation blocks by their data bits: a 0 before each (42 R230). -/
def blockBits (blocks : List BitStr) : BitStr := blocks.flatMap fun a => false :: a

/-- The completion fields after an OK completion (60_exceptions R374). -/
def CompletedOk (s t : State) : Prop :=
  t.ecode = .ok ∧ t.done = true ∧ t.err = s.err ∧ t.busy = false

/-- A failed completion: only the completion fields change, and the model's own draw counter (60_exceptions R373,
R374). -/
def FailedWith (e : ErrCode) (s t : State) : Prop :=
  t = { s with ecode := e, done := true, err := true, busy := false, draws := t.draws }

/-- The command completes with the error e, and only the completion fields change (60_exceptions R373, R374). -/
def Raises (i : Instr) (s : State) (e : ErrCode) : Prop := ∃ t, exec i s = .next t ∧ FailedWith e s t

/-- An encoder wrote the string a at OBIT and nothing else: OBIT and RES1 tell its length, every other bit of OBUF and
every other field is as before (20_memory R76, 40 R146, 60_exceptions R374). -/
def Encoded (a : BitStr) (s t : State) : Prop :=
  t.obit.toNat = s.obit.toNat + a.length ∧ t.res1.toNat = a.length ∧
    (∀ i, i < a.length → Memory.get? t.obuf (s.obit.toNat + i) = a[i]?) ∧
    (∀ j, j < s.obit.toNat ∨ s.obit.toNat + a.length ≤ j → Memory.get? t.obuf j = Memory.get? s.obuf j) ∧
    CompletedOk s t ∧
    t = { s with
      obuf := t.obuf, obit := t.obit, res1 := t.res1
      ecode := t.ecode, done := t.done, err := t.err, busy := t.busy, draws := t.draws }

/-- A decoder read q bits and gave v: IPOS moves by q, RES0 is v, RES1 is q, every other field is as before
(20_memory R78, 40 R147, 60_exceptions R374). -/
def Decoded (v q : Nat) (s t : State) : Prop :=
  t.ipos.toNat = s.ipos.toNat + q ∧ t.res0.toNat = v ∧ t.res1.toNat = q ∧
    CompletedOk s t ∧
    t = { s with
      ipos := t.ipos, res0 := t.res0, res1 := t.res1
      ecode := t.ecode, done := t.done, err := t.err, busy := t.busy, draws := t.draws }

/-- A command wrote the two results and nothing else. -/
def Answered (v w : Nat) (s t : State) : Prop :=
  t.res0.toNat = v ∧ t.res1.toNat = w ∧ CompletedOk s t ∧
    t = { s with
      res0 := t.res0, res1 := t.res1
      ecode := t.ecode, done := t.done, err := t.err, busy := t.busy, draws := t.draws }

/-- The universe holds X, and r is X relative to it (40 R142, R144). -/
def InUniverse (s : State) (r : Nat) : Prop :=
  s.ulo.toNat ≤ s.x.toNat ∧ s.x.toNat ≤ s.uhi.toNat ∧ r = s.x.toNat - s.ulo.toNat

/-- The n bits fit the sink behind OBIT (20_memory R76). -/
def Fits (s : State) (n : Nat) : Prop := s.obit.toNat + n ≤ 2 ^ s.params.olog

/-- The bits of OBUF between the cursor of s and the cursor of t. -/
def writtenBits (s t : State) : BitStr :=
  (List.range (t.obit.toNat - s.obit.toNat)).map fun i => obufBit t (s.obit.toNat + i)

/-- A raw encoder and decoder round-trip: what the one writes, the other reads back (40 R149). -/
def RoundTrips (enc dec : Instr) : Prop :=
  ∀ s t u : State, s.params.wf → exec enc s = .next t → t.ecode = .ok → writtenBits s t <+: sourceView u →
    ∃ v, exec dec u = .next v ∧ v.ecode = .ok ∧ v.res0 = s.x ∧ v.res1 = t.res1

/-- A universe-form encoder and decoder round-trip over the same universe (40 R149). -/
def RoundTripsU (enc dec : Instr) : Prop :=
  ∀ s t u : State, s.params.wf → exec enc s = .next t → t.ecode = .ok → u.ulo = s.ulo → u.uhi = s.uhi →
    writtenBits s t <+: sourceView u →
    ∃ v, exec dec u = .next v ∧ v.ecode = .ok ∧ v.res0 = s.x ∧ v.res1 = t.res1

/-- The HOST's 64-bit write of v at an offset takes s to u; the bus's answer is the model's own affair (log 8). -/
def HostWrites (s : State) (off : Nat) (v : Word) (u : State) : Prop :=
  ∃ r, hostStep s (.write (s.params.base + off) 8 v) = .next { u with response := r }

/-- The HOST's 64-bit read at an offset returns v and changes no HCE state (20_memory R81). -/
def HostReads (s : State) (off : Nat) (v : Word) : Prop :=
  ∃ d, hostStep s (.read (s.params.base + off) 8) = .next { s with response := .data v, draws := d }

/-- The character of the leaf that a path of edge bits leads to, if it leads to one (43 R260). -/
def Tree.follow : Tree → BitStr → Option Nat
  | .leaf c, [] => some c
  | .leaf _, _ :: _ => none
  | .node _ _, [] => none
  | .node l r, b :: a => if b then r.follow a else l.follow a

/-- The subtrees of a tree, itself first. -/
def Tree.subtrees : Tree → List Tree
  | .leaf c => [.leaf c]
  | .node l r => .node l r :: (l.subtrees ++ r.subtrees)

/-- The frequency of a subtree: the counts of its characters, added up (44 R295). -/
def Tree.weight (f : Nat → Nat) : Tree → Nat
  | .leaf c => f c
  | .node l r => l.weight f + r.weight f

/-- The queue's order: the key of a is below the key of b, lexicographic on (frequency, kind, tie-break) (44 R294). -/
def Entry.Precedes (a b : Entry) : Prop :=
  a.freq < b.freq ∨ (a.freq = b.freq ∧ (a.kind < b.kind ∨ (a.kind = b.kind ∧ a.tb < b.tb)))

/-- The merge loop with n inner nodes made so far turns the queue q, in whatever order it is listed, into a tree: the
two entries that precede all others are popped, the first as the right child, and the new inner node is pushed with the
key (l.f + r.f, 0, n) (44 R295). -/
inductive Merges : Nat → List Entry → Tree → Prop where
  | root (n : Nat) (e : Entry) : Merges n [e] e.tree
  | merge (n : Nat) (q : List Entry) (r l : Entry) (rest : List Entry) (t : Tree) :
      q.Perm (r :: l :: rest) → r.Precedes l → (∀ e ∈ rest, r.Precedes e ∧ l.Precedes e) →
      Merges (n + 1) ({ freq := l.freq + r.freq, kind := 0, tb := n, tree := .node l.tree r.tree } :: rest) t →
      Merges n q t

/-- The characters counted in HIST, in order (44 R292). -/
def countedChars (s : State) : List Nat :=
  (List.range (2 ^ s.params.cw)).filter fun c => (histCount s c).toNat != 0

/-- The leaf entries the build starts from, key (f, 1, c) (44 R292, R294). -/
def leafQueue (s : State) : List Entry :=
  (countedChars s).map fun c => { freq := (histCount s c).toNat, kind := 1, tb := c, tree := .leaf c }

/-- The counts of a list of characters, added up. -/
def countSum (s : State) (a : List Nat) : Nat := (a.map fun c => (histCount s c).toNat).sum

/-- H.BUILD has the same outcome in both states: the same code, and when OK the same tree and results. -/
def SameBuild (s u : State) : Prop :=
  ∃ t v, exec .hBuild s = .next t ∧ exec .hBuild u = .next v ∧ v.ecode = t.ecode ∧
    (t.ecode = .ok → v.tree = t.tree ∧ v.res0 = t.res0 ∧ v.res1 = t.res1)

end Sys2Proof.Machine
end

