-- ==== Sys2Proof/Certificates/Slice0/Obligations.lean ====
section
/-! DEFINITION. The statements for the provers, from the numbered rules of spec/. -/

open Sys2Proof Sys2Proof.Machine

/-! ## The command word -/

/-- 30_encoding R107, R111: every well-formed command's word decodes to it, at every K. -/
def Obligations.DecodeEncodeAgree : Prop :=
  ∀ i : Instr, i.wf = true → decodeWord (encode i) = .ok i

/-- 30_encoding R100, R107: a word that decodes is the word of the command it decodes to, and that is well-formed. -/
def Obligations.EncodeDecodeAgree : Prop :=
  ∀ (w : Word) (i : Instr), decodeWord w = .ok i → encode i = w ∧ i.wf = true

/-- 30_encoding R111 and the words of 95_test_vectors: sample words, bit by bit, one or more of each family. -/
def Obligations.SampleWordsDecode : Prop :=
  decodeWord 0x0000000000000550 = .ok (.riceEnc 5) ∧
  decodeWord 0x0000000000000361 = .ok (.vbDec 3) ∧
  decodeWord 0x0000000000004010 = .ok (.binEnc 64) ∧
  decodeWord 0x0000000000000012 = .ok .binEncU ∧
  decodeWord 0x0000000000000000 = .ok .nop ∧
  decodeWord 0x0000000000000001 = .ok .uniEnt ∧
  decodeWord 0x0000000000000023 = .ok .unaDecU ∧
  decodeWord 0x0000000000000030 = .ok .gamEnc ∧
  decodeWord 0x0000000000000041 = .ok .delDec ∧
  decodeWord 0x0000000000000087 = .ok .hDeser

/-- 30_encoding R105, R107, R108: exactly these words are ILLEGAL: RSV ≠ 0, an OPC that is none of the 34, or K ≠ 0 on
an opcode that takes none; and exactly these are PARAM: RSV = 0 and K outside the range of an opcode that takes it. -/
def Obligations.RejectedWordsExactly : Prop :=
  ∀ w : Word,
    (decodeWord w = .error .illegal ↔
      (w >>> 16 ≠ 0 ∨
        w.toNat % 256 ∉ [0x00, 0x01, 0x10, 0x11, 0x12, 0x13, 0x20, 0x21, 0x22, 0x23, 0x30, 0x31, 0x32, 0x33, 0x40, 0x41,
          0x42, 0x43, 0x50, 0x51, 0x52, 0x53, 0x60, 0x61, 0x62, 0x63, 0x80, 0x81, 0x82, 0x83, 0x84, 0x85, 0x86, 0x87] ∨
        (w.toNat % 256 ∉ [0x10, 0x11, 0x50, 0x51, 0x52, 0x53, 0x60, 0x61, 0x62, 0x63] ∧ w.toNat / 256 % 256 ≠ 0))) ∧
    (decodeWord w = .error .param ↔
      (w >>> 16 = 0 ∧
        ((w.toNat % 256 ∈ [0x10, 0x11] ∧ 64 < w.toNat / 256) ∨
          (w.toNat % 256 ∈ [0x50, 0x51, 0x52, 0x53] ∧ 63 < w.toNat / 256) ∨
          (w.toNat % 256 ∈ [0x60, 0x61, 0x62, 0x63] ∧ (w.toNat / 256 = 0 ∨ 63 < w.toNat / 256)))))

/-! ## The command cycle -/

/-- 10_state R31: while BUSY, the ENGINE's turn runs the command in CMD; what step adds around exec is that the turn is
taken off the line (log 2). -/
def Obligations.StepRunsDecodedCommand : Prop :=
  ∀ (s : State) (i : Instr), nextTurn s = .engine → s.busy = true → decodeWord s.cmd = .ok i →
    step s = exec i (takeTurn s)

/-- 30_encoding R107, 60_exceptions R373: a word that is no command completes with ILLEGAL or PARAM and changes nothing
else. -/
def Obligations.StepRejectsOtherWords : Prop :=
  ∀ (s : State) (e : DecodeError), nextTurn s = .engine → s.busy = true → decodeWord s.cmd = .error e →
    ∃ t, step s = .next t ∧ FailedWith (match e with | .illegal => .illegal | .param => .param) (takeTurn s) t

/-- 10_state R31 over the encoder: after the accepting write of a well-formed command's word, the next step runs that
command, on the state at acceptance. -/
def Obligations.AcceptedCommandRunsNext : Prop :=
  ∀ (s : State) (i : Instr), i.wf = true →
    step (s.withFetchWord 64 (encode i).toNat) =
      exec i { s with cmd := encode i, busy := true, done := false }

/-- 10_state R30, R31 and 60_exceptions R374, R383: an ENGINE turn while BUSY always ends the command; while not BUSY it
changes nothing but the model's own list of turns. -/
def Obligations.EngineTurnCompletes : Prop :=
  ∀ s : State, nextTurn s = .engine →
    (s.busy = true → ∃ t, step s = .next t ∧ t.busy = false ∧ t.done = true) ∧
    (s.busy = false → step s = .next { s with turns := s.turns.tail })

/-- 60_exceptions R374: what every completion does to the completion fields, and the fields no command ever writes. -/
def Obligations.CompletionFieldsAlways : Prop :=
  ∀ (i : Instr) (s : State), ∃ t, exec i s = .next t ∧
    t.done = true ∧ t.busy = false ∧ t.err = (s.err || t.ecode != .ok) ∧
    t.ie = s.ie ∧ t.cmd = s.cmd ∧ t.x = s.x ∧ t.ulo = s.ulo ∧ t.uhi = s.uhi ∧ t.ilen = s.ilen ∧ t.ibuf = s.ibuf ∧
    t.wovr = s.wovr

/-- 60_exceptions R373: a command that raises an error, a rejected word included, changes only the completion fields;
and no command writes X, ULO, UHI, ILEN, IBUF, CTRL or CMD. -/
def Obligations.FailedCommandChangesNothing : Prop :=
  (∀ (i : Instr) (s t : State), exec i s = .next t → t.ecode ≠ .ok → FailedWith t.ecode s t) ∧
  ∀ s t : State, engineStep s = .next t →
    (t.ecode ≠ .ok → FailedWith t.ecode s t) ∧
    t.x = s.x ∧ t.ulo = s.ulo ∧ t.uhi = s.uhi ∧ t.ilen = s.ilen ∧ t.ibuf = s.ibuf ∧ t.ie = s.ie ∧ t.cmd = s.cmd

/-! ## Miscellaneous commands and Binary -/

/-- 40 R150, R151 with R141: NOP changes only the completion fields; UNI.ENT gives the entropy in RES0 and 0 in RES1,
or UNIVERSE. -/
def Obligations.MiscellaneousResults : Prop :=
  ∀ s : State,
    (∃ t, exec .nop s = .next t ∧ CompletedOk s t ∧
      t = { s with ecode := t.ecode, done := t.done, err := t.err, busy := t.busy, draws := t.draws }) ∧
    (∀ e, s.ulo.toNat ≤ s.uhi.toNat → IsEntropy s.ulo.toNat s.uhi.toNat e →
      ∃ t, exec .uniEnt s = .next t ∧ Answered e 0 s t) ∧
    (s.uhi.toNat < s.ulo.toNat → ∃ t, exec .uniEnt s = .next t ∧ FailedWith .emptyUniverse s t)

/-- 40 R153, R155: the binary encoders. -/
def Obligations.BinaryEncodeResults : Prop :=
  ∀ s : State, s.params.wf →
    (∀ n : Byte, n.toNat ≤ 64 → Fits s n.toNat →
      ∃ t, exec (.binEnc n) s = .next t ∧ Encoded (bitsOf s.x.toNat n.toNat) s t) ∧
    (∀ r e, InUniverse s r → IsEntropy s.ulo.toNat s.uhi.toNat e → Fits s e →
      ∃ t, exec .binEncU s = .next t ∧ Encoded (bitsOf r e) s t)

/-- 40 R154, R156: the binary decoders read the value of the next n, or e, bits, the first bit lowest. -/
def Obligations.BinaryDecodeResults : Prop :=
  ∀ (s : State) (a rest : BitStr), sourceView s = a ++ rest →
    (∀ n : Byte, n.toNat ≤ 64 → a.length = n.toNat →
      ∃ t, exec (.binDec n) s = .next t ∧ Decoded (val a) a.length s t) ∧
    (s.ulo.toNat ≤ s.uhi.toNat → IsEntropy s.ulo.toNat s.uhi.toNat a.length →
      s.ulo.toNat + val a ≤ s.uhi.toNat →
      ∃ t, exec .binDecU s = .next t ∧ Decoded (s.ulo.toNat + val a) a.length s t)

/-! ## Unary, Elias-gamma, Elias-delta -/

/-- 41 R181, R183: the unary encoders. -/
def Obligations.UnaryEncodeResults : Prop :=
  ∀ s : State, s.params.wf →
    (Fits s (s.x.toNat + 1) →
      ∃ t, exec .unaEnc s = .next t ∧ Encoded (List.replicate s.x.toNat true ++ [false]) s t) ∧
    (∀ r, InUniverse s r → Fits s (r + 1) →
      ∃ t, exec .unaEncU s = .next t ∧ Encoded (List.replicate r true ++ [false]) s t)

/-- 41 R182, R184: the unary decoders count the ones before the first zero. -/
def Obligations.UnaryDecodeResults : Prop :=
  ∀ (s : State) (v : Nat) (rest : BitStr), sourceView s = List.replicate v true ++ false :: rest →
    (∃ t, exec .unaDec s = .next t ∧ Decoded v (v + 1) s t) ∧
    (s.ulo.toNat + v ≤ s.uhi.toNat → ∃ t, exec .unaDecU s = .next t ∧ Decoded (s.ulo.toNat + v) (v + 1) s t)

/-- 41 R192, R194 with R190: the Elias-gamma encoders; the universe form codes rel(X) + 1. -/
def Obligations.GammaEncodeResults : Prop :=
  ∀ (s : State) (m : Nat), s.params.wf → Fits s (2 * m + 1) →
    (IsLog s.x.toNat m → ∃ t, exec .gamEnc s = .next t ∧ Encoded (gammaStr m s.x.toNat) s t) ∧
    (∀ r, InUniverse s r → r ≠ umax → IsLog (r + 1) m →
      ∃ t, exec .gamEncU s = .next t ∧ Encoded (gammaStr m (r + 1)) s t)

/-- 41 R193, R195 with R191: the Elias-gamma decoders over m ones, a zero and an m-bit tail. -/
def Obligations.GammaDecodeResults : Prop :=
  ∀ (s : State) (a rest : BitStr),
    sourceView s = List.replicate a.length true ++ false :: (a ++ rest) → 2 ^ a.length + val a < 2 ^ 64 →
    (∃ t, exec .gamDec s = .next t ∧ Decoded (2 ^ a.length + val a) (2 * a.length + 1) s t) ∧
    (s.ulo.toNat + (2 ^ a.length + val a - 1) ≤ s.uhi.toNat →
      ∃ t, exec .gamDecU s = .next t ∧
        Decoded (s.ulo.toNat + (2 ^ a.length + val a - 1)) (2 * a.length + 1) s t)

/-- 41 R202, R204 with R200: the Elias-delta encoders; j = floor(log2 m) for m = bw of the coded value. -/
def Obligations.DeltaEncodeResults : Prop :=
  ∀ (s : State) (m j : Nat), s.params.wf → IsLog (m + 1) j → Fits s (2 * j + 1 + m) →
    (IsLog s.x.toNat m →
      ∃ t, exec .delEnc s = .next t ∧ Encoded (gammaStr j (m + 1) ++ bitsOf s.x.toNat m) s t) ∧
    (∀ r, InUniverse s r → r ≠ umax → IsLog (r + 1) m →
      ∃ t, exec .delEncU s = .next t ∧ Encoded (gammaStr j (m + 1) ++ bitsOf (r + 1) m) s t)

/-- 41 R203, R205 with R201: the Elias-delta decoders over the gamma code of m + 1 and an m-bit tail. -/
def Obligations.DeltaDecodeResults : Prop :=
  ∀ (s : State) (c a rest : BitStr),
    sourceView s = List.replicate c.length true ++ false :: (c ++ (a ++ rest)) →
    a.length + 1 = 2 ^ c.length + val c → 2 ^ a.length + val a < 2 ^ 64 →
    (∃ t, exec .delDec s = .next t ∧
      Decoded (2 ^ a.length + val a) (2 * c.length + 1 + a.length) s t) ∧
    (s.ulo.toNat + (2 ^ a.length + val a - 1) ≤ s.uhi.toNat →
      ∃ t, exec .delDecU s = .next t ∧
        Decoded (s.ulo.toNat + (2 ^ a.length + val a - 1)) (2 * c.length + 1 + a.length) s t)

/-! ## Rice and Vbyte -/

/-- 42 R222, R224 with R220: the Rice encoders. -/
def Obligations.RiceEncodeResults : Prop :=
  ∀ (s : State) (p : Byte) (m : Nat), s.params.wf → p.toNat ≤ 63 → Fits s (2 * m + 1 + p.toNat) →
    (s.x.toNat >>> p.toNat ≠ umax → IsLog (s.x.toNat >>> p.toNat + 1) m →
      ∃ t, exec (.riceEnc p) s = .next t ∧
        Encoded (gammaStr m (s.x.toNat >>> p.toNat + 1) ++ bitsOf s.x.toNat p.toNat) s t) ∧
    (∀ r, InUniverse s r → r >>> p.toNat ≠ umax → IsLog (r >>> p.toNat + 1) m →
      ∃ t, exec (.riceEncU p) s = .next t ∧
        Encoded (gammaStr m (r >>> p.toNat + 1) ++ bitsOf r p.toNat) s t)

/-- 42 R223, R225 with R221: the Rice decoders over a gamma code of q + 1 and p remainder bits. -/
def Obligations.RiceDecodeResults : Prop :=
  ∀ (s : State) (p : Byte) (a r rest : BitStr), p.toNat ≤ 63 → r.length = p.toNat →
    sourceView s = List.replicate a.length true ++ false :: (a ++ (r ++ rest)) →
    (2 ^ a.length + val a - 1) * 2 ^ p.toNat + val r < 2 ^ 64 → 2 ^ a.length + val a < 2 ^ 64 →
    (∃ t, exec (.riceDec p) s = .next t ∧
      Decoded ((2 ^ a.length + val a - 1) * 2 ^ p.toNat + val r) (2 * a.length + 1 + p.toNat) s t) ∧
    (s.ulo.toNat + ((2 ^ a.length + val a - 1) * 2 ^ p.toNat + val r) ≤ s.uhi.toNat →
      ∃ t, exec (.riceDecU p) s = .next t ∧
        Decoded (s.ulo.toNat + ((2 ^ a.length + val a - 1) * 2 ^ p.toNat + val r))
          (2 * a.length + 1 + p.toNat) s t)

/-- 42 R232, R234 with R230: the Vbyte encoders; k + 1 blocks, the lowest first, each with its continuation bit. -/
def Obligations.VbyteEncodeResults : Prop :=
  ∀ (s : State) (b : Byte) (k : Nat), s.params.wf → 1 ≤ b.toNat → b.toNat ≤ 63 →
    Fits s ((k + 1) * (b.toNat + 1)) →
    (s.x.toNat < 2 ^ ((k + 1) * b.toNat) → (k = 0 ∨ 2 ^ (k * b.toNat) ≤ s.x.toNat) →
      ∃ t, exec (.vbEnc b) s = .next t ∧
        Encoded (((List.range k).flatMap fun i => false :: bitsOf (s.x.toNat >>> (i * b.toNat)) b.toNat) ++
          true :: bitsOf (s.x.toNat >>> (k * b.toNat)) b.toNat) s t) ∧
    (∀ r, InUniverse s r → r < 2 ^ ((k + 1) * b.toNat) → (k = 0 ∨ 2 ^ (k * b.toNat) ≤ r) →
      ∃ t, exec (.vbEncU b) s = .next t ∧
        Encoded (((List.range k).flatMap fun i => false :: bitsOf (r >>> (i * b.toNat)) b.toNat) ++
          true :: bitsOf (r >>> (k * b.toNat)) b.toNat) s t)

/-- 42 R233, R235 with R231: the Vbyte decoders over continuation blocks and a terminator block; the blocks' data bits,
joined, are the value, lowest block first.
Strings with extra high blocks of zeros are among them. -/
def Obligations.VbyteDecodeResults : Prop :=
  ∀ (s : State) (b : Byte) (blocks : List BitStr) (last rest : BitStr), 1 ≤ b.toNat → b.toNat ≤ 63 →
    (∀ a ∈ blocks, a.length = b.toNat) → last.length = b.toNat →
    sourceView s = (blocks.flatMap fun a => false :: a) ++ true :: (last ++ rest) →
    val (blocks.flatten ++ last) < 2 ^ 64 →
    (∃ t, exec (.vbDec b) s = .next t ∧
      Decoded (val (blocks.flatten ++ last)) ((blocks.length + 1) * (b.toNat + 1)) s t) ∧
    (s.ulo.toNat + val (blocks.flatten ++ last) ≤ s.uhi.toNat →
      ∃ t, exec (.vbDecU b) s = .next t ∧
        Decoded (s.ulo.toNat + val (blocks.flatten ++ last)) ((blocks.length + 1) * (b.toNat + 1)) s t)

/-! ## Errors of the codecs -/

/-- 40 R143: every universe-form command with legal K gives UNIVERSE on an empty universe, whatever else is wrong. -/
def Obligations.EmptyUniverseRejected : Prop :=
  ∀ (i : Instr) (s : State), i.wf = true → s.uhi.toNat < s.ulo.toNat →
    (i = .uniEnt ∨ i = .binEncU ∨ i = .binDecU ∨ i = .unaEncU ∨ i = .unaDecU ∨ i = .gamEncU ∨ i = .gamDecU ∨
      i = .delEncU ∨ i = .delDecU ∨ (∃ p, i = .riceEncU p) ∨ (∃ p, i = .riceDecU p) ∨ (∃ b, i = .vbEncU b) ∨
      ∃ b, i = .vbDecU b) →
    ∃ t, exec i s = .next t ∧ FailedWith .emptyUniverse s t

/-- 40 R144: every universe-form encoder gives RANGE when X is outside a non-empty universe. -/
def Obligations.EncoderOutsideUniverse : Prop :=
  ∀ (i : Instr) (s : State), i.wf = true → s.ulo.toNat ≤ s.uhi.toNat →
    (s.x.toNat < s.ulo.toNat ∨ s.uhi.toNat < s.x.toNat) →
    (i = .binEncU ∨ i = .unaEncU ∨ i = .gamEncU ∨ i = .delEncU ∨ (∃ p, i = .riceEncU p) ∨ ∃ b, i = .vbEncU b) →
    ∃ t, exec i s = .next t ∧ FailedWith .range s t

/-- 41 R192, R194, R202, R204 and 42 R222, R224: where the Elias and Rice encoders give ARG. -/
def Obligations.InvalidCodeArgument : Prop :=
  ∀ s : State,
    (s.x.toNat = 0 → ∀ i, i = .gamEnc ∨ i = .delEnc → ∃ t, exec i s = .next t ∧ FailedWith .arg s t) ∧
    (s.ulo.toNat = 0 → s.uhi.toNat = umax → s.x.toNat = umax → ∀ i, i = .gamEncU ∨ i = .delEncU ∨ i = .riceEncU 0 →
      ∃ t, exec i s = .next t ∧ FailedWith .arg s t) ∧
    (s.x.toNat = umax → ∃ t, exec (.riceEnc 0) s = .next t ∧ FailedWith .arg s t)

/-- 20_memory R76, 40 R146: every encoder whose string does not fit behind OBIT gives SINK_FULL and writes no bit, with
OBIT below, at or above OCAP; with OBIT above OCAP every encoder fails, whatever its operands, even over the empty
string of BIN.ENC k=0. -/
def Obligations.SinkFullWritesNothing : Prop :=
  ∀ s : State,
    (¬ Fits s (s.x.toNat + 1) → Raises .unaEnc s .sinkFull) ∧
    (∀ n : Byte, n.toNat ≤ 64 → ¬ Fits s n.toNat → Raises (.binEnc n) s .sinkFull) ∧
    (∀ m, IsLog s.x.toNat m →
      (¬ Fits s (2 * m + 1) → Raises .gamEnc s .sinkFull) ∧
      ∀ j, IsLog (m + 1) j → ¬ Fits s (2 * j + 1 + m) → Raises .delEnc s .sinkFull) ∧
    (∀ (p : Byte) (m : Nat), p.toNat ≤ 63 → s.x.toNat >>> p.toNat ≠ umax → IsLog (s.x.toNat >>> p.toNat + 1) m →
      ¬ Fits s (2 * m + 1 + p.toNat) → Raises (.riceEnc p) s .sinkFull) ∧
    (∀ (b : Byte) (k : Nat), 1 ≤ b.toNat → b.toNat ≤ 63 → s.x.toNat < 2 ^ ((k + 1) * b.toNat) →
      (k = 0 ∨ 2 ^ (k * b.toNat) ≤ s.x.toNat) → ¬ Fits s ((k + 1) * (b.toNat + 1)) → Raises (.vbEnc b) s .sinkFull) ∧
    (∀ r, InUniverse s r →
      (∀ e, IsEntropy s.ulo.toNat s.uhi.toNat e → ¬ Fits s e → Raises .binEncU s .sinkFull) ∧
      (¬ Fits s (r + 1) → Raises .unaEncU s .sinkFull) ∧
      (∀ m, r ≠ umax → IsLog (r + 1) m →
        (¬ Fits s (2 * m + 1) → Raises .gamEncU s .sinkFull) ∧
        ∀ j, IsLog (m + 1) j → ¬ Fits s (2 * j + 1 + m) → Raises .delEncU s .sinkFull) ∧
      (∀ (p : Byte) (m : Nat), p.toNat ≤ 63 → r >>> p.toNat ≠ umax → IsLog (r >>> p.toNat + 1) m →
        ¬ Fits s (2 * m + 1 + p.toNat) → Raises (.riceEncU p) s .sinkFull) ∧
      ∀ (b : Byte) (k : Nat), 1 ≤ b.toNat → b.toNat ≤ 63 → r < 2 ^ ((k + 1) * b.toNat) →
        (k = 0 ∨ 2 ^ (k * b.toNat) ≤ r) → ¬ Fits s ((k + 1) * (b.toNat + 1)) → Raises (.vbEncU b) s .sinkFull) ∧
    (∀ t a, s.Inv → s.tree = .valid t → t.follow a = some s.x.toNat → ¬ Fits s a.length → Raises .hEnc s .sinkFull) ∧
    (s.tree = .empty → ¬ Fits s 1 → Raises .hSer s .sinkFull) ∧
    (∀ b lo hi e, s.tree = .valid b → lo ∈ b.alpha → (∀ c ∈ b.alpha, lo ≤ c) → hi ∈ b.alpha → (∀ c ∈ b.alpha, c ≤ hi) →
      IsEntropy lo hi e →
      ¬ Fits s (b.topo ++ delta (lo + 1) ++ delta (hi - lo + 1) ++ b.alpha.flatMap fun c => bitsOf (c - lo) e).length →
      Raises .hSer s .sinkFull) ∧
    (2 ^ s.params.olog < s.obit.toNat →
      ∀ i, i = .unaEnc ∨ i = .gamEnc ∨ i = .delEnc ∨ (∃ n, i = .binEnc n) ∨ (∃ p, i = .riceEnc p) ∨ (∃ b, i = .vbEnc b) ∨
          i = .binEncU ∨ i = .unaEncU ∨ i = .gamEncU ∨ i = .delEncU ∨ (∃ p, i = .riceEncU p) ∨ (∃ b, i = .vbEncU b) ∨
          i = .hEnc ∨ i = .hSer →
        ∃ t, exec i s = .next t ∧ t.ecode ≠ .ok)

/-- 20_memory R77, R78: with IPOS at or past END the source view is empty, and every decoder that reads a bit gives
SRC_EMPTY, BIN.DEC k=0 gives 0; and so does every decoder whose view ends inside its item: inside the bits of BIN, before
unary's zero (41 R182), inside a gamma or delta tail, inside Rice's remainder, inside a Vbyte string, inside a codeword
(43 R265). -/
def Obligations.EmptySourceView : Prop :=
  ∀ s : State,
    (min s.ilen.toNat (2 ^ s.params.ilog) ≤ s.ipos.toNat →
      (∀ i, i = .unaDec ∨ i = .gamDec ∨ i = .delDec ∨ (∃ p, i = .riceDec p ∧ p.toNat ≤ 63) ∨
          (∃ b, i = .vbDec b ∧ 1 ≤ b.toNat ∧ b.toNat ≤ 63) ∨ (∃ n, i = .binDec n ∧ 1 ≤ n.toNat ∧ n.toNat ≤ 64) ∨
          i = .hDeser → Raises i s .srcEmpty) ∧
      (∀ i, i = .binDecU ∨ i = .unaDecU ∨ i = .gamDecU ∨ i = .delDecU ∨ (∃ p, i = .riceDecU p ∧ p.toNat ≤ 63) ∨
          (∃ b, i = .vbDecU b ∧ 1 ≤ b.toNat ∧ b.toNat ≤ 63) → s.ulo.toNat ≤ s.uhi.toNat → Raises i s .srcEmpty) ∧
      (∀ l r, s.tree = .valid (.node l r) → Raises .hDec s .srcEmpty) ∧
      ∃ t, exec (.binDec 0) s = .next t ∧ Decoded 0 0 s t) ∧
    (∀ n : Byte, n.toNat ≤ 64 → (sourceView s).length < n.toNat → Raises (.binDec n) s .srcEmpty) ∧
    (∀ e, s.ulo.toNat ≤ s.uhi.toNat → IsEntropy s.ulo.toNat s.uhi.toNat e → (sourceView s).length < e →
      Raises .binDecU s .srcEmpty) ∧
    ((∀ b ∈ sourceView s, b = true) →
      (∀ i, i = .unaDec ∨ i = .gamDec ∨ i = .delDec ∨ (∃ p, i = .riceDec p ∧ p.toNat ≤ 63) → Raises i s .srcEmpty) ∧
      ∀ i, i = .unaDecU ∨ i = .gamDecU ∨ i = .delDecU ∨ (∃ p, i = .riceDecU p ∧ p.toNat ≤ 63) →
        s.ulo.toNat ≤ s.uhi.toNat → Raises i s .srcEmpty) ∧
    (∀ (m : Nat) (a : BitStr), sourceView s = List.replicate m true ++ false :: a → a.length < m →
      (∀ i, i = .gamDec ∨ i = .delDec ∨ (∃ p, i = .riceDec p ∧ p.toNat ≤ 63) → Raises i s .srcEmpty) ∧
      ∀ i, i = .gamDecU ∨ i = .delDecU ∨ (∃ p, i = .riceDecU p ∧ p.toNat ≤ 63) →
        s.ulo.toNat ≤ s.uhi.toNat → Raises i s .srcEmpty) ∧
    (∀ c a : BitStr, sourceView s = gammaBits c ++ a → a.length + 1 < gammaValue c →
      Raises .delDec s .srcEmpty ∧ (s.ulo.toNat ≤ s.uhi.toNat → Raises .delDecU s .srcEmpty)) ∧
    (∀ (p : Byte) (a r : BitStr), p.toNat ≤ 63 → sourceView s = gammaBits a ++ r → gammaValue a < 2 ^ 64 →
      r.length < p.toNat →
      Raises (.riceDec p) s .srcEmpty ∧ (s.ulo.toNat ≤ s.uhi.toNat → Raises (.riceDecU p) s .srcEmpty)) ∧
    (∀ (b : Byte) (blocks : List BitStr) (a : BitStr), 1 ≤ b.toNat → b.toNat ≤ 63 →
      (∀ d ∈ blocks, d.length = b.toNat) → sourceView s = blockBits blocks ++ a → a.length ≤ b.toNat →
      Raises (.vbDec b) s .srcEmpty ∧ (s.ulo.toNat ≤ s.uhi.toNat → Raises (.vbDecU b) s .srcEmpty)) ∧
    ∀ (t : Machine.Tree) (a : BitStr) (c : Nat), s.tree = .valid t → t.follow (sourceView s ++ a) = some c → a ≠ [] →
      Raises .hDec s .srcEmpty

/-- 40 R145, R148, 41 R193, R195, R203, R205, 42 R221, R223, R225, R233, R235: a complete item whose raw value is 2^64 or
more gives OVERFLOW, Rice's also on its gamma part alone; one whose absolute value is above UHI gives RANGE, after
OVERFLOW. -/
def Obligations.DecodedValueTooLarge : Prop :=
  ∀ s : State,
    (∀ a rest : BitStr, sourceView s = gammaBits a ++ rest →
      (2 ^ 64 ≤ gammaValue a →
        Raises .gamDec s .overflow ∧ (s.ulo.toNat ≤ s.uhi.toNat → Raises .gamDecU s .overflow) ∧
        ∀ p : Byte, p.toNat ≤ 63 →
          Raises (.riceDec p) s .overflow ∧ (s.ulo.toNat ≤ s.uhi.toNat → Raises (.riceDecU p) s .overflow)) ∧
      (gammaValue a < 2 ^ 64 → s.ulo.toNat ≤ s.uhi.toNat → s.uhi.toNat < s.ulo.toNat + (gammaValue a - 1) →
        Raises .gamDecU s .range)) ∧
    (∀ c a rest : BitStr, sourceView s = gammaBits c ++ (a ++ rest) → a.length + 1 = gammaValue c →
      (2 ^ 64 ≤ gammaValue a →
        Raises .delDec s .overflow ∧ (s.ulo.toNat ≤ s.uhi.toNat → Raises .delDecU s .overflow)) ∧
      (gammaValue a < 2 ^ 64 → s.ulo.toNat ≤ s.uhi.toNat → s.uhi.toNat < s.ulo.toNat + (gammaValue a - 1) →
        Raises .delDecU s .range)) ∧
    (∀ (p : Byte) (a r rest : BitStr), p.toNat ≤ 63 → r.length = p.toNat → sourceView s = gammaBits a ++ (r ++ rest) →
      gammaValue a < 2 ^ 64 →
      (2 ^ 64 ≤ (gammaValue a - 1) * 2 ^ p.toNat + val r →
        Raises (.riceDec p) s .overflow ∧ (s.ulo.toNat ≤ s.uhi.toNat → Raises (.riceDecU p) s .overflow)) ∧
      ((gammaValue a - 1) * 2 ^ p.toNat + val r < 2 ^ 64 → s.ulo.toNat ≤ s.uhi.toNat →
        s.uhi.toNat < s.ulo.toNat + ((gammaValue a - 1) * 2 ^ p.toNat + val r) → Raises (.riceDecU p) s .range)) ∧
    (∀ (b : Byte) (blocks : List BitStr) (last rest : BitStr), 1 ≤ b.toNat → b.toNat ≤ 63 →
      (∀ a ∈ blocks, a.length = b.toNat) → last.length = b.toNat →
      sourceView s = blockBits blocks ++ true :: (last ++ rest) →
      (2 ^ 64 ≤ val (blocks.flatten ++ last) →
        Raises (.vbDec b) s .overflow ∧ (s.ulo.toNat ≤ s.uhi.toNat → Raises (.vbDecU b) s .overflow)) ∧
      (val (blocks.flatten ++ last) < 2 ^ 64 → s.ulo.toNat ≤ s.uhi.toNat →
        s.uhi.toNat < s.ulo.toNat + val (blocks.flatten ++ last) → Raises (.vbDecU b) s .range)) ∧
    (∀ (v : Nat) (rest : BitStr), sourceView s = List.replicate v true ++ false :: rest →
      s.ulo.toNat ≤ s.uhi.toNat → s.uhi.toNat < s.ulo.toNat + v → Raises .unaDecU s .range) ∧
    ∀ a rest : BitStr, sourceView s = a ++ rest → s.ulo.toNat ≤ s.uhi.toNat →
      IsEntropy s.ulo.toNat s.uhi.toNat a.length → s.uhi.toNat < s.ulo.toNat + val a → Raises .binDecU s .range

/-! ## Round trips -/

/-- 40 R149 for BIN: the raw form over values below 2^n, the universe form over every universe. -/
def Obligations.BinaryRoundTrip : Prop :=
  (∀ (n : Byte) (s t u : State), n.toNat ≤ 64 → s.x.toNat < 2 ^ n.toNat → s.params.wf →
    exec (.binEnc n) s = .next t → t.ecode = .ok → writtenBits s t <+: sourceView u →
    ∃ v, exec (.binDec n) u = .next v ∧ v.ecode = .ok ∧ v.res0 = s.x ∧ v.res1 = t.res1) ∧
  RoundTripsU .binEncU .binDecU

/-- 40 R149 for UNA. -/
def Obligations.UnaryRoundTrip : Prop :=
  RoundTrips .unaEnc .unaDec ∧ RoundTripsU .unaEncU .unaDecU

/-- 40 R149 for GAM and DEL. -/
def Obligations.EliasRoundTrip : Prop :=
  (RoundTrips .gamEnc .gamDec ∧ RoundTripsU .gamEncU .gamDecU) ∧
    (RoundTrips .delEnc .delDec ∧ RoundTripsU .delEncU .delDecU)

/-- 40 R149 for RICE, at every legal p. -/
def Obligations.RiceRoundTrip : Prop :=
  ∀ p : Byte, p.toNat ≤ 63 → RoundTrips (.riceEnc p) (.riceDec p) ∧ RoundTripsU (.riceEncU p) (.riceDecU p)

/-- 40 R149 for VB, at every legal b. -/
def Obligations.VbyteRoundTrip : Prop :=
  ∀ b : Byte, 1 ≤ b.toNat → b.toNat ≤ 63 → RoundTrips (.vbEnc b) (.vbDec b) ∧ RoundTripsU (.vbEncU b) (.vbDecU b)

/-- 70_reset R425, 20_memory R77: over a source whose words are all written, every OK completion leaves the source view
that the consumed bits' removal leaves, so the next command decodes from there. -/
def Obligations.CursorChaining : Prop :=
  ∀ (i : Instr) (s t : State),
    (i = .unaDec ∨ i = .unaDecU ∨ i = .gamDec ∨ i = .gamDecU ∨ i = .delDec ∨ i = .delDecU ∨ i = .binDecU ∨
      (∃ n, i = .binDec n) ∨ (∃ p, i = .riceDec p ∨ i = .riceDecU p) ∨ (∃ b, i = .vbDec b ∨ i = .vbDecU b) ∨
      i = .hDec ∨ i = .hDeser) →
    (∀ j, j < 2 ^ s.params.ilog / 64 → (Memory.get? s.ibuf j).isSome) → s.params.wf →
    exec i s = .next t → t.ecode = .ok →
    sourceView t = (sourceView s).drop t.res1.toNat

/-! ## Histogram and tree builder -/

/-- 44 R290, R291: H.CLR makes every counter 0 and changes no other field; H.INC counts X, or gives RANGE, or OVERFLOW
on a saturated counter. -/
def Obligations.HistogramCommands : Prop :=
  ∀ s : State,
    (∃ t, exec .hClr s = .next t ∧ CompletedOk s t ∧
      (∀ c, c < 2 ^ s.params.cw → Memory.get? t.hist c = some 0) ∧
      t = { s with
        hist := t.hist, ecode := t.ecode, done := t.done, err := t.err, busy := t.busy, draws := t.draws }) ∧
    (s.x.toNat < 2 ^ s.params.cw → (histCount s s.x.toNat).toNat < 2 ^ 32 - 1 →
      ∃ t, exec .hInc s = .next t ∧ CompletedOk s t ∧
        Memory.get? t.hist s.x.toNat = some (histCount s s.x.toNat + 1) ∧
        (∀ c, c ≠ s.x.toNat → Memory.get? t.hist c = Memory.get? s.hist c) ∧
        t.res0.toNat = (histCount s s.x.toNat).toNat + 1 ∧
        t = { s with
          hist := t.hist, res0 := t.res0
          ecode := t.ecode, done := t.done, err := t.err, busy := t.busy, draws := t.draws }) ∧
    (2 ^ s.params.cw ≤ s.x.toNat → ∃ t, exec .hInc s = .next t ∧ FailedWith .range s t) ∧
    (s.x.toNat < 2 ^ s.params.cw → (histCount s s.x.toNat).toNat = 2 ^ 32 - 1 →
      ∃ t, exec .hInc s = .next t ∧ FailedWith .overflow s t)

/-- 44 R292, R293, R297: H.BUILD over no counted character gives EMPTY, over one character c the tree
Node(Leaf(c), Leaf(~c)). -/
def Obligations.HBuildSmall : Prop :=
  ∀ s : State, s.params.wf →
    (countedChars s = [] →
      ∃ t, exec .hBuild s = .next t ∧ CompletedOk s t ∧ t.tree = .empty ∧ t.res0.toNat = 0 ∧ t.res1.toNat = 0 ∧
        t = { s with
          tree := t.tree, res0 := t.res0, res1 := t.res1
          ecode := t.ecode, done := t.done, err := t.err, busy := t.busy, draws := t.draws }) ∧
    (∀ c, countedChars s = [c] →
      ∃ t, exec .hBuild s = .next t ∧ CompletedOk s t ∧
        t.tree = .valid (.node (.leaf c) (.leaf (2 ^ s.params.cw - 1 - c))) ∧ t.res0.toNat = 2 ∧ t.res1.toNat = 3 ∧
        t = { s with
          tree := t.tree, res0 := t.res0, res1 := t.res1
          ecode := t.ecode, done := t.done, err := t.err, busy := t.busy, draws := t.draws })

/-- 44 R292, R294, R295, R297, R298: over k ≥ 2 counted characters, b is the tree that the build makes: the merge loop
takes the leaf entries to it, and its leaves are exactly those characters. H.BUILD holds b, with RES0 = k and
RES1 = 2k − 1, or gives CODE_LEN when b has a leaf deeper than 64; HIST is unchanged. -/
def Obligations.HBuildResult : Prop :=
  ∀ s : State, s.params.wf → 2 ≤ (countedChars s).length →
    ∃ t b, exec .hBuild s = .next t ∧ buildTree (withSynthetic s.params.cw (histLeaves s)) = some b ∧
      Merges 0 (leafQueue s) b ∧ b.alpha.Perm (countedChars s) ∧
      (b.depth ≤ 64 → CompletedOk s t ∧ t.tree = .valid b ∧ t.res0.toNat = (countedChars s).length ∧
        t.res1.toNat = 2 * (countedChars s).length - 1 ∧
        t = { s with
          tree := t.tree, res0 := t.res0, res1 := t.res1
          ecode := t.ecode, done := t.done, err := t.err, busy := t.busy, draws := t.draws }) ∧
      (64 < b.depth → FailedWith .codeLen s t)

/-- 44 R296: the canonical invariants at every inner node of a tree of the build, and so of one H.BUILD left in TREE:
the right child is not heavier; at equal weight, of a leaf and an inner node the inner node is on the right, and of two
leaves the smaller character. -/
def Obligations.BuiltTreeCanonical : Prop :=
  ∀ (s : State) (b l r : Machine.Tree), s.params.wf →
    (buildTree (withSynthetic s.params.cw (histLeaves s)) = some b ∨
      ∃ t, exec .hBuild s = .next t ∧ t.ecode = .ok ∧ t.tree = .valid b) →
    .node l r ∈ b.subtrees →
    r.weight (fun c => (histCount s c).toNat) ≤ l.weight (fun c => (histCount s c).toNat) ∧
      (r.weight (fun c => (histCount s c).toNat) = l.weight (fun c => (histCount s c).toNat) →
        match l, r with
        | .leaf c, .leaf d => d < c
        | .leaf _, .node _ _ => True
        | .node _ _, .leaf _ => False
        | .node _ _, .node _ _ => True)

/-- 44 R299 with R294: H.BUILD depends on the counts only through the order of the frequencies that sets of characters
add up to: where two histograms order all disjoint sets of characters alike, both builds have the same outcome and tree;
so they do when the counts are equal or scaled by one factor. -/
def Obligations.BuildScaleInvariant : Prop :=
  ∀ s u : State, u.params = s.params →
    ((∀ a b : List Nat, (a ++ b).Nodup → (∀ c ∈ a ++ b, c < 2 ^ s.params.cw) →
        (countSum u a < countSum u b ↔ countSum s a < countSum s b)) → SameBuild s u) ∧
    ∀ k, 0 < k → (∀ c, c < 2 ^ s.params.cw → (histCount u c).toNat = k * (histCount s c).toNat) → SameBuild s u

/-! ## Codewords, encoder, decoder -/

/-- 43 R263, R264 with R260: H.CODE returns, and H.ENC emits, the edge bits of the path from the root to X's leaf. -/
def Obligations.CodewordOfX : Prop :=
  ∀ (s : State) (t : Machine.Tree) (a : BitStr), s.Inv → s.tree = .valid t → t.follow a = some s.x.toNat →
    (∃ u, exec .hCode s = .next u ∧ Answered (val a) a.length s u) ∧
    (Fits s a.length → ∃ u, exec .hEnc s = .next u ∧ Encoded a s u)

/-- 43 R262 with R265: in a held tree no path to a leaf is a prefix of another; and when the source view begins with
the path to a leaf, H.DEC gives its character and the path's length. -/
def Obligations.PrefixAndDecodeLaw : Prop :=
  ∀ (s : State) (t : Machine.Tree), s.Inv → s.tree = .valid t →
    (∀ (a b : BitStr) (c d : Nat), t.follow a = some c → t.follow b = some d → a <+: b → a = b ∧ c = d) ∧
    (∀ (a rest : BitStr) (c : Nat), t.follow a = some c → sourceView s = a ++ rest →
      ∃ u, exec .hDec s = .next u ∧ Decoded c a.length s u)

/-- 43 R263 to R265, 45 R333: NO_TREE without a tree, NOT_IN_TREE for a character the held tree lacks. -/
def Obligations.TreeCommandErrors : Prop :=
  ∀ s : State,
    (s.tree = .none → ∀ i, i = .hCode ∨ i = .hEnc ∨ i = .hDec ∨ i = .hSer →
      ∃ t, exec i s = .next t ∧ FailedWith .noTree s t) ∧
    (s.tree = .empty → ∀ i, i = .hCode ∨ i = .hEnc ∨ i = .hDec →
      ∃ t, exec i s = .next t ∧ FailedWith .noTree s t) ∧
    (∀ b, s.tree = .valid b → s.x.toNat ∉ b.alpha → ∀ i, i = .hCode ∨ i = .hEnc →
      ∃ t, exec i s = .next t ∧ FailedWith .notInTree s t)

/-! ## Serializer and deserializer -/

/-- 45 R330 to R333: H.SER of EMPTY emits the lone bit 1; of a tree, its 2k − 1 topology bits, the two deltas and its
k characters in e bits each, RES0 = k. -/
def Obligations.HSerResult : Prop :=
  ∀ s : State, s.Inv →
    (s.tree = .empty → Fits s 1 →
      ∃ t, exec .hSer s = .next t ∧ t.res0 = 0 ∧ Encoded [true] { s with res0 := 0 } t) ∧
    (∀ b lo hi e, s.tree = .valid b → lo ∈ b.alpha → (∀ c ∈ b.alpha, lo ≤ c) → hi ∈ b.alpha → (∀ c ∈ b.alpha, c ≤ hi) →
      IsEntropy lo hi e →
      Fits s (b.topo ++ delta (lo + 1) ++ delta (hi - lo + 1) ++ b.alpha.flatMap fun c => bitsOf (c - lo) e).length →
      b.topo.length = 2 * b.alpha.length - 1 ∧
      ∃ t, exec .hSer s = .next t ∧ t.res0.toNat = b.alpha.length ∧
        Encoded (b.topo ++ delta (lo + 1) ++ delta (hi - lo + 1) ++ b.alpha.flatMap fun c => bitsOf (c - lo) e)
          { s with res0 := t.res0 } t)

/-- 45 R336, R338: a view that begins with 1 deserializes to EMPTY after one bit, whatever follows. -/
def Obligations.HDeserEmpty : Prop :=
  ∀ (s : State) (rest : BitStr), sourceView s = true :: rest →
    ∃ t, exec .hDeser s = .next t ∧ t.tree = .empty ∧ Decoded 0 1 { s with tree := .empty } t

/-- 45 R336 with R334, R335: a view that begins with the topology of a tree, two deltas of a low end and a range that
hold its characters, and the characters in e bits each, deserializes to that tree; the ends need not be met. With a leaf
deeper than 64 it gives CODE_LEN, and cut short anywhere SRC_EMPTY.
A view that begins with no complete topology of at most NMAX bits gives SRC_EMPTY, or MALFORMED when it holds more bits;
after a topology of two leaves or more, a delta of 2^64 or more gives OVERFLOW, a high end above UMAX RANGE, a character
above the high end or no character of the part RANGE, a repeated one MALFORMED. -/
def Obligations.HDeserTree : Prop :=
  ∀ s : State, s.params.wf →
    (∀ (b : Machine.Tree) (lo hi e : Nat) (rest : BitStr), 2 ≤ b.alpha.length → b.nodes < 2 ^ (s.params.cw + 1) →
      b.alpha.Nodup → (∀ c ∈ b.alpha, lo ≤ c ∧ c ≤ hi ∧ c < 2 ^ s.params.cw) → hi ≤ umax → hi - lo + 1 < 2 ^ 64 →
      IsEntropy lo hi e →
      (sourceView s =
          b.topo ++ delta (lo + 1) ++ delta (hi - lo + 1) ++ (b.alpha.flatMap fun c => bitsOf (c - lo) e) ++ rest →
        (b.depth ≤ 64 →
          ∃ t, exec .hDeser s = .next t ∧ t.tree = .valid b ∧
            Decoded b.alpha.length
              (b.topo.length + (delta (lo + 1)).length + (delta (hi - lo + 1)).length + b.alpha.length * e)
              { s with tree := .valid b } t) ∧
        (64 < b.depth → Raises .hDeser s .codeLen)) ∧
      (sourceView s ++ rest =
          b.topo ++ delta (lo + 1) ++ delta (hi - lo + 1) ++ (b.alpha.flatMap fun c => bitsOf (c - lo) e) →
        rest ≠ [] → Raises .hDeser s .srcEmpty)) ∧
    ((∀ b : Machine.Tree, b.topo <+: sourceView s → 2 ^ (s.params.cw + 1) ≤ b.topo.length) →
      ((sourceView s).length < 2 ^ (s.params.cw + 1) → Raises .hDeser s .srcEmpty) ∧
      (2 ^ (s.params.cw + 1) ≤ (sourceView s).length → Raises .hDeser s .malformed)) ∧
    ∀ (b : Machine.Tree) (x rest : BitStr), 2 ≤ b.alpha.length → b.nodes < 2 ^ (s.params.cw + 1) →
      sourceView s = b.topo ++ x →
      (∀ d, 2 ^ 64 ≤ d → x = delta d ++ rest → Raises .hDeser s .overflow) ∧
      (∀ lo d, lo < umax → 2 ^ 64 ≤ d → x = delta (lo + 1) ++ delta d ++ rest → Raises .hDeser s .overflow) ∧
      (∀ lo d, lo < umax → d < umax → umax < lo + d → x = delta (lo + 1) ++ delta (d + 1) ++ rest →
        Raises .hDeser s .range) ∧
      ∀ (lo hi e c : Nat) (cs : List Nat), lo ≤ hi → hi ≤ umax → lo < umax → hi - lo < umax → IsEntropy lo hi e →
        cs.length < b.alpha.length → cs.Nodup → (∀ d ∈ cs, lo ≤ d ∧ d ≤ hi ∧ d < 2 ^ s.params.cw) →
        lo ≤ c → c - lo < 2 ^ e →
        x = delta (lo + 1) ++ delta (hi - lo + 1) ++ (cs.flatMap fun d => bitsOf (d - lo) e) ++ bitsOf (c - lo) e ++ rest →
        (hi < c ∨ 2 ^ s.params.cw ≤ c → Raises .hDeser s .range) ∧ (c ∈ cs → Raises .hDeser s .malformed)

/-- 45 R337: over a view that begins with ser(TREE) of a valid or the empty tree, H.DESER gives that tree, its leaf
count and its length; so it reads back what H.SER writes, and H.DEC with the tree reads back what H.ENC writes. -/
def Obligations.HuffmanRoundTrip : Prop :=
  (∀ (u : State) (ts : TreeState) (a : BitStr) (k : Nat), u.params.wf → ts.Valid u.params → serialize ts = .ok (a, k) →
    a <+: sourceView u →
    ∃ v, exec .hDeser u = .next v ∧ v.ecode = .ok ∧ v.tree = ts ∧ v.res0.toNat = k ∧ v.res1.toNat = a.length) ∧
  (∀ s t u : State, s.Inv → exec .hSer s = .next t → t.ecode = .ok → u.params = s.params →
    writtenBits s t <+: sourceView u →
    ∃ v, exec .hDeser u = .next v ∧ v.ecode = .ok ∧ v.tree = s.tree ∧ v.res0 = t.res0 ∧ v.res1 = t.res1) ∧
  (∀ s t u : State, s.Inv → exec .hEnc s = .next t → t.ecode = .ok → u.tree = s.tree →
    writtenBits s t <+: sourceView u →
    ∃ v, exec .hDec u = .next v ∧ v.ecode = .ok ∧ v.res0 = s.x ∧ v.res1 = t.res1)

/-! ## Invariant, resets -/

/-- 10_state R50 and the canonical form of the arrays: every step from a state that meets the invariant, of the HOST, of
the ENGINE or of the reset input, gives one that meets it. -/
def Obligations.StepKeepsInvariant : Prop :=
  ∀ s t : State, s.Inv → step s = .next t → t.Inv

/-- 70_reset R410: reset leaves every register 0, TREE NONE, IRQ 0 and no cell written, and meets the invariant; the
reset input gives it from every state, BUSY or not (the turn is log 2, what stays is log 13). -/
def Obligations.ResetState : Prop :=
  State.reset.Inv ∧ core.reset = State.reset ∧
  (∀ s : State, nextTurn s = .hardReset → step s = .next
    { State.resetWith s.params with draws := s.draws, turns := s.turns.tail, response := s.response }) ∧
  ∀ p : Config.Params, p.wf →
    (State.resetWith p).Inv ∧ irq (State.resetWith p) = false ∧ statusWord (State.resetWith p) = 0 ∧
    ctrlWord (State.resetWith p) = 0 ∧
    (State.resetWith p).cmd = 0 ∧ (State.resetWith p).x = 0 ∧ (State.resetWith p).ulo = 0 ∧
    (State.resetWith p).uhi = 0 ∧ (State.resetWith p).res0 = 0 ∧ (State.resetWith p).res1 = 0 ∧
    (State.resetWith p).obit = 0 ∧ (State.resetWith p).ipos = 0 ∧ (State.resetWith p).ilen = 0 ∧
    (State.resetWith p).tree = .none ∧
    ∀ k, Memory.get? (State.resetWith p).hist k = none ∧ Memory.get? (State.resetWith p).obuf k = none ∧
      Memory.get? (State.resetWith p).ibuf k = none

/-- 70_reset R411: a write to CTRL with bit 1 set, BUSY or not, resets every register and TREE and abandons a command in
flight (BUSY, DONE and ECODE are among the registers); IBUF stays, HIST and OBUF stay if BUSY was 0 and else have no
cell written. -/
def Obligations.SoftReset : Prop :=
  ∀ (s : State) (v : Word), v.getLsbD 1 = true →
    HostWrites s 0x008 v
      { State.resetWith s.params with
        ibuf := s.ibuf
        hist := if s.busy then [] else s.hist
        obuf := if s.busy then [] else s.obuf
        draws := s.draws, turns := s.turns }

/-! ## The HOST -/

/-- 10_state R31, R34, R44, R46: when BUSY = 0, a write to CMD is accepted and clears DONE, and a write to an operand
register, a cursor or CTRL.IE stores. -/
def Obligations.IdleWritesStore : Prop :=
  ∀ (s : State) (v : Word), s.busy = false →
    HostWrites s 0x018 v { s with cmd := v, busy := true, done := false } ∧
    HostWrites s 0x020 v { s with x := v } ∧ HostWrites s 0x028 v { s with ulo := v } ∧
    HostWrites s 0x030 v { s with uhi := v } ∧ HostWrites s 0x048 v { s with obit := v } ∧
    HostWrites s 0x050 v { s with ipos := v } ∧ HostWrites s 0x058 v { s with ilen := v } ∧
    (v.getLsbD 1 = false → HostWrites s 0x008 v { s with ie := v.getLsbD 0 })

/-- 70_reset R422: while BUSY, a write to CMD, X, ULO, UHI, OBIT, IPOS, ILEN, a used HIST word or a used IBUF word
changes only WOVR, to 1; a write to CTRL or STATUS does what it always does; a write to a read-only register, to the
OBUF window or to a reserved offset changes nothing, WOVR included. -/
def Obligations.BusyWritesDropped : Prop :=
  ∀ (s : State) (off : Nat) (v : Word), s.params.wf → s.busy = true → off % 8 = 0 → off < 2 ^ 22 →
    (off ∈ [0x018, 0x020, 0x028, 0x030, 0x048, 0x050, 0x058] ∨
        (0x080000 ≤ off ∧ off < 0x080000 + 8 * 2 ^ s.params.cw) ∨
        (0x200000 ≤ off ∧ off < 0x200000 + 2 ^ s.params.ilog / 8) →
      HostWrites s off v { s with wovr := true }) ∧
    (off = 0x008 → HostWrites s off v (if v.getLsbD 1 then softReset s else { s with ie := v.getLsbD 0 })) ∧
    (off = 0x010 → HostWrites s off v
      { s with
        done := s.done && !v.getLsbD 1
        err := s.err && !v.getLsbD 2
        wovr := s.wovr && !v.getLsbD 3 }) ∧
    (off ∈ [0x000, 0x038, 0x040, 0x060] ∨ (0x068 ≤ off ∧ off < 0x080000) ∨
        (0x080000 + 8 * 2 ^ s.params.cw ≤ off ∧ off < 0x200000) ∨ 0x200000 + 2 ^ s.params.ilog / 8 ≤ off →
      HostWrites s off v s)

/-- 20_memory R84, 70_reset R421: a command in flight never sees a host write: whatever is written anywhere but to CTRL
and STATUS, the completion then gives the same state but for WOVR and the bus response. -/
def Obligations.InputsTakenAtAcceptance : Prop :=
  ∀ (s u : State) (off : Nat) (v : Word), s.busy = true → off ≠ 0x008 → off ≠ 0x010 →
    hostStep s (.write (s.params.base + off) 8 v) = .next u →
    ∃ t, engineStep s = .next t ∧
      engineStep u = .next { t with wovr := u.wovr, response := u.response }

/-- 20_memory R80: an access of another width or alignment gets the bus error and changes no HCE state. -/
def Obligations.BusErrorChangesNothing : Prop :=
  ∀ (s : State) (off width : Nat) (v : Word), off < 2 ^ 22 → (width ≠ 8 ∨ off % 8 ≠ 0) →
    hostStep s (.read (s.params.base + off) width) = .next { s with response := .busError } ∧
    hostStep s (.write (s.params.base + off) width v) = .next { s with response := .busError }

/-- 20_memory R72: an offset of the window outside the used part of its region reads 0 and ignores writes. -/
def Obligations.ReservedOffsets : Prop :=
  ∀ (s : State) (off : Nat) (v : Word), s.params.wf → off < 2 ^ 22 → off % 8 = 0 → 0x068 ≤ off →
    (off < 0x080000 ∨ (0x080000 + 8 * 2 ^ s.params.cw ≤ off ∧ off < 0x100000) ∨
      (0x100000 + 2 ^ s.params.olog / 8 ≤ off ∧ off < 0x200000) ∨ 0x200000 + 2 ^ s.params.ilog / 8 ≤ off) →
    HostReads s off 0 ∧ HostWrites s off v s

/-- 10_state R32 to R46, 20_memory R81, R85: what each register reads as when BUSY = 0, at its offset, with the numbers
of the thirteen codes (60_exceptions R371) and of the three tree states (10_state R39) in STATUS; a read changes no HCE
state. -/
def Obligations.RegisterReads : Prop :=
  ∀ s : State, s.params.wf → s.busy = false →
    (∀ r ∈ [(0x000, (0x0000000100484345 : Word)), (0x008, BitVec.ofNat 64 s.ie.toNat), (0x018, s.cmd), (0x020, s.x),
        (0x028, s.ulo), (0x030, s.uhi), (0x038, s.res0), (0x040, s.res1), (0x048, s.obit), (0x050, s.ipos),
        (0x058, s.ilen),
        (0x060, BitVec.ofNat 64 (s.params.cw + 256 * 64 + 65536 * s.params.olog + 16777216 * s.params.ilog))],
      HostReads s r.1 r.2) ∧
    ∀ tree ecode, (s.tree = .none ∧ tree = 0 ∨ s.tree = .empty ∧ tree = 1 ∨ (∃ b, s.tree = .valid b) ∧ tree = 2) →
      (s.ecode, ecode) ∈ [(ErrCode.ok, 0), (.illegal, 1), (.param, 2), (.emptyUniverse, 3), (.range, 4), (.arg, 5),
        (.sinkFull, 6), (.srcEmpty, 7), (.overflow, 8), (.noTree, 9), (.notInTree, 10), (.malformed, 11),
        (.codeLen, 12)] →
      HostReads s 0x010 (BitVec.ofNat 64
        (2 * s.done.toNat + 4 * s.err.toNat + 8 * s.wovr.toNat + 16 * tree + 256 * ecode))

/-- 20_memory R85: while BUSY, a read of a place no command writes gives its settled value, and so do the bits of STATUS
but for TREE; a read of work state gives some value (a free one, log 5). -/
def Obligations.ReadsWhileBusy : Prop :=
  ∀ s : State, s.params.wf → s.busy = true →
    (∀ r ∈ [(0x000, (0x0000000100484345 : Word)), (0x008, BitVec.ofNat 64 s.ie.toNat), (0x018, s.cmd), (0x020, s.x),
        (0x028, s.ulo), (0x030, s.uhi), (0x058, s.ilen),
        (0x060, BitVec.ofNat 64 (s.params.cw + 256 * 64 + 65536 * s.params.olog + 16777216 * s.params.ilog))],
      HostReads s r.1 r.2) ∧
    (∀ j, j < 2 ^ s.params.ilog / 64 → HostReads s (0x200000 + 8 * j) (ibufWord s j)) ∧
    (∃ f, f < 4 ∧ HostReads s 0x010 (BitVec.ofNat 64
      (1 + 2 * s.done.toNat + 4 * s.err.toNat + 8 * s.wovr.toNat + 16 * f + 256 * s.ecode.code))) ∧
    ∀ off, off % 8 = 0 → off ∈ [0x038, 0x040, 0x048, 0x050] ∨
        (0x080000 ≤ off ∧ off < 0x080000 + 8 * 2 ^ s.params.cw) ∨
        (0x100000 ≤ off ∧ off < 0x100000 + 2 ^ s.params.olog / 8) →
      ∃ v, HostReads s off v

/-- 20_memory R73 to R75: HIST and IBUF words read back what is written, zero-extended from 32 bits for HIST, and leave
every other word alone; a write to OBUF is ignored. -/
def Obligations.WindowsReadBack : Prop :=
  ∀ (s : State) (v : Word), s.params.wf → s.busy = false →
    (∀ c, c < 2 ^ s.params.cw → ∃ t, HostWrites s (0x080000 + 8 * c) v t ∧
      HostReads t (0x080000 + 8 * c) (v.setWidth 32 |>.setWidth 64) ∧
      (∀ d, d ≠ c → Memory.get? t.hist d = Memory.get? s.hist d) ∧ t = { s with hist := t.hist }) ∧
    (∀ j, j < 2 ^ s.params.ilog / 64 → ∃ t, HostWrites s (0x200000 + 8 * j) v t ∧
      HostReads t (0x200000 + 8 * j) v ∧
      (∀ d, d ≠ j → Memory.get? t.ibuf d = Memory.get? s.ibuf d) ∧ t = { s with ibuf := t.ibuf }) ∧
    (∀ j, j < 2 ^ s.params.olog / 64 → HostWrites s (0x100000 + 8 * j) v s)

/-- 20_memory R74: stream bit i of OBUF is bit i mod 64 of OBUF word i div 64, and likewise for IBUF, as the host reads
them when BUSY = 0. -/
def Obligations.StreamBitMapping : Prop :=
  ∀ (s : State) (i : Nat), s.params.wf → s.busy = false →
    (i < 2 ^ s.params.olog → ∃ w, HostReads s (0x100000 + 8 * (i / 64)) w ∧ w.getLsbD (i % 64) = obufBit s i) ∧
    (i < 2 ^ s.params.ilog → ∃ w, HostReads s (0x200000 + 8 * (i / 64)) w ∧ w.getLsbD (i % 64) = ibufBit s i)

/-- 10_state R36 to R38, R41, R56, 60_exceptions R376: a write to STATUS clears exactly the W1C bits written as 1, BUSY
or not; IRQ is DONE & IE and falls with DONE. -/
def Obligations.StatusWriteClears : Prop :=
  ∀ (s : State) (v : Word),
    HostWrites s 0x010 v
      { s with
        done := if v.getLsbD 1 then false else s.done
        err := if v.getLsbD 2 then false else s.err
        wovr := if v.getLsbD 3 then false else s.wovr } ∧
    (irq s = true ↔ s.done = true ∧ s.ie = true) ∧ irq (accept v s) = false ∧ irq (softReset s) = false
end

