-- ==== Sys2Proof/Laws/Bits.lean ====
section
/-! SUPPORT. Bit strings and bit widths: bin and val are inverse, bw is the least number of bits, and the strings the
claims write with testBit are those of the model. -/

namespace Sys2Proof.Machine

@[simp] theorem bin_zero (v : Nat) : bin v 0 = [] := rfl

@[simp] theorem length_bin (v n : Nat) : (bin v n).length = n := by
  induction n generalizing v with
  | zero => rfl
  | succ n ih => simp [bin, ih]

theorem val_lt (a : BitStr) : val a < 2 ^ a.length := by
  induction a with
  | nil => simp [val]
  | cons b a ih =>
    simp only [val, List.length_cons, Nat.pow_succ]
    cases b <;> simp <;> omega

/-- val(bin(v, n)) = v mod 2^n (00_scope R16). -/
theorem val_bin (v n : Nat) : val (bin v n) = v % 2 ^ n := by
  induction n generalizing v with
  | zero => simp [bin, val, Nat.mod_one]
  | succ n ih =>
    have e : (2 : Nat) ^ (n + 1) = 2 * 2 ^ n := by rw [Nat.pow_succ, Nat.mul_comm]
    rw [e, Nat.mod_mul]
    simp only [bin, val, ih]
    rcases Nat.mod_two_eq_zero_or_one v with h | h <;> simp [h]

theorem bin_val (a : BitStr) : bin (val a) a.length = a := by
  induction a with
  | nil => rfl
  | cons b a ih =>
    have h1 : (b.toNat + 2 * val a) / 2 = val a := by have := b.toNat_le; omega
    have h2 : ((b.toNat + 2 * val a) % 2 == 1) = b := by cases b <;> simp
    simp only [List.length_cons, bin, val, h1, h2, ih]

theorem val_append (a b : BitStr) : val (a ++ b) = val a + 2 ^ a.length * val b := by
  induction a with
  | nil => simp [val]
  | cons c a ih =>
    simp only [List.cons_append, val, ih, List.length_cons, Nat.pow_succ]
    ring

theorem bin_add (v m n : Nat) : bin v (m + n) = bin v m ++ bin (v / 2 ^ m) n := by
  induction m generalizing v with
  | zero => simp [bin]
  | succ m ih =>
    rw [Nat.add_right_comm]
    simp only [bin, ih, List.cons_append, Nat.div_div_eq_div_mul, Nat.pow_succ, Nat.mul_comm]

/-- bin depends on the low bits only. -/
theorem bin_mod (v n : Nat) : bin (v % 2 ^ n) n = bin v n := by
  have h := bin_val (bin v n)
  rwa [val_bin, length_bin] at h

/-- bin is the string 00_scope R16 writes. -/
theorem bin_eq_bitsOf (v n : Nat) : bin v n = bitsOf v n := by
  induction n generalizing v with
  | zero => rfl
  | succ n ih =>
    simp only [bin, ih, bitsOf, List.range_succ_eq_map, List.map_cons, List.map_map]
    congr 1
    · rw [Nat.testBit_zero, beq_eq_decide]
    · refine List.map_congr_left fun i _ => ?_
      simp [Nat.testBit_succ]

@[simp] theorem length_bitsOf (v n : Nat) : (bitsOf v n).length = n := by simp [bitsOf]

@[simp] theorem bw_zero : bw 0 = 0 := rfl

theorem bw_le_iff (v n : Nat) : bw v ≤ n ↔ v < 2 ^ n := by
  unfold bw
  split
  · subst_vars; simp
  · rename_i h
    rw [← Nat.log2_lt h]
    omega

theorem lt_two_pow_bw (v : Nat) : v < 2 ^ bw v := (bw_le_iff v _).1 Nat.le.refl

theorem bw_pos {v : Nat} (h : v ≠ 0) : 1 ≤ bw v := by simp [bw, h]

/-- bw(x) = m + 1 exactly when floor(log2 x) = m (00_scope R15). -/
theorem bw_of_isLog {x m : Nat} (h : IsLog x m) : bw x = m + 1 := by
  have h1 := (bw_le_iff x (m + 1)).2 h.2
  have h2 : ¬ bw x ≤ m := fun h' => by
    have := (bw_le_iff x m).1 h'
    have := h.1
    omega
  omega

theorem isLog_bw {x : Nat} (h : x ≠ 0) : IsLog x (bw x - 1) := by
  have hp := bw_pos h
  refine ⟨?_, ?_⟩
  · have : ¬ bw x ≤ bw x - 1 := by omega
    rw [bw_le_iff] at this
    omega
  · rw [Nat.sub_add_cancel hp]; exact lt_two_pow_bw x

/-- The entropy is the one number `IsEntropy` describes (40 R141). -/
theorem entropy_of_isEntropy {lo hi e : Nat} (h : IsEntropy lo hi e) : entropy lo hi = e := by
  obtain ⟨h1, h2, h3⟩ := h
  have h4 := (bw_le_iff (hi - lo) e).2 h2
  unfold entropy
  rcases h3 with rfl | h3
  · omega
  · have h5 : ¬ bw (hi - lo) ≤ e - 1 := by rw [bw_le_iff]; omega
    omega

theorem isEntropy_entropy (lo hi : Nat) : IsEntropy lo hi (entropy lo hi) := by
  have h := lt_two_pow_bw (hi - lo)
  unfold entropy
  refine ⟨Nat.le_max_left _ _, h.trans_le (Nat.pow_le_pow_right (by omega) (Nat.le_max_right _ _)), ?_⟩
  by_cases h0 : hi - lo = 0
  · left; simp [h0]
  · have hb := bw_pos h0
    have := (isLog_bw h0).1
    right; rw [Nat.max_eq_right hb]; exact this

theorem entropy_pos (lo hi : Nat) : 1 ≤ entropy lo hi := Nat.le_max_left _ _

/-- The entropy of a universe of words lies between 1 and 64 (40 R141). -/
theorem entropy_le {lo hi : Nat} (h : hi < 2 ^ 64) : entropy lo hi ≤ 64 := by
  have := (bw_le_iff (hi - lo) 64).2 (by omega)
  unfold entropy; omega

@[simp] theorem toNat_reg (n : Nat) : (reg n).toNat = n % 2 ^ 64 := by simp [reg]

theorem toNat_reg_of_lt {n : Nat} (h : n < 2 ^ 64) : (reg n).toNat = n := by
  rw [toNat_reg, Nat.mod_eq_of_lt h]

@[simp] theorem reg_toNat (w : Word) : reg w.toNat = w := by simp [reg]

end Sys2Proof.Machine
end

