-- ==== Sys2Proof/Laws/Codes.lean ====
section
/-! SUPPORT. The parsers: what each does on a source that begins with a code string, and that every parser consumes a
prefix of its source and counts it. -/

namespace Sys2Proof.Machine

/-! ## Except -/

theorem Except.bind_eq_ok {ε α β : Type} {x : Except ε α} {f : α → Except ε β} {b : β} :
    x >>= f = .ok b ↔ ∃ a, x = .ok a ∧ f a = .ok b := by
  cases x <;> simp [bind, Except.bind]

@[simp] theorem Except.ok_bind {ε α β : Type} (a : α) (f : α → Except ε β) :
    (Except.ok a >>= f) = f a := rfl

@[simp] theorem Except.error_bind {ε α β : Type} (e : ε) (f : α → Except ε β) :
    ((Except.error e : Except ε α) >>= f) = .error e := rfl

/-! ## Parsers on code strings -/

@[simp] theorem get_cons (b : Bool) (rest : BitStr) (q : Nat) :
    get { bits := b :: rest, q := q } = .ok (b, { bits := rest, q := q + 1 }) := rfl

@[simp] theorem get_nil (q : Nat) : get { bits := [], q := q } = .error .srcEmpty := rfl

theorem getN_append {n : Nat} {a : BitStr} (h : a.length = n) (rest : BitStr) (q : Nat) :
    getN n { bits := a ++ rest, q := q } = .ok (val a, { bits := rest, q := q + n }) := by
  subst h
  simp [getN]

theorem countOnes_append (c v : Nat) (rest : BitStr) (q : Nat) :
    countOnes c (List.replicate v true ++ false :: rest) q =
      .ok (c + v, { bits := rest, q := q + (v + 1) }) := by
  induction v generalizing c q with
  | zero => simp [countOnes]
  | succ v ih =>
    simp only [List.replicate_succ, List.cons_append, countOnes, ih]
    rw [Nat.add_right_comm c, Nat.add_assoc q, Nat.add_comm 1, Nat.add_assoc c]

theorem pUnary_append (v : Nat) (rest : BitStr) (q : Nat) :
    pUnary { bits := List.replicate v true ++ false :: rest, q := q } =
      .ok (v, { bits := rest, q := q + (v + 1) }) := by
  simp [pUnary, countOnes_append]

theorem pGamma_append (a rest : BitStr) (q : Nat) :
    pGamma { bits := List.replicate a.length true ++ false :: (a ++ rest), q := q } =
      .ok (2 ^ a.length + val a, { bits := rest, q := q + (2 * a.length + 1) }) := by
  rw [pGamma, pUnary_append]
  simp only [Except.ok_bind]
  split
  · rename_i h
    obtain rfl := List.length_eq_zero_iff.1 h
    simp [val]
  · rw [getN_append rfl]
    simp only [Except.ok_bind]
    congr 3
    omega

theorem pDelta_append {c a : BitStr} (h : a.length + 1 = 2 ^ c.length + val c) (rest : BitStr) (q : Nat) :
    pDelta { bits := List.replicate c.length true ++ false :: (c ++ (a ++ rest)), q := q } =
      .ok (2 ^ a.length + val a, { bits := rest, q := q + (2 * c.length + 1 + a.length) }) := by
  rw [pDelta, pGamma_append]
  simp only [Except.ok_bind, ← h]
  split
  · rename_i h0
    obtain rfl := List.length_eq_zero_iff.1 (show a.length = 0 by omega)
    simp [val]
  · simp only [Nat.add_sub_cancel]
    rw [getN_append rfl]
    simp only [Except.ok_bind]
    congr 3
    omega

theorem pRice_append {p : Nat} {a r : BitStr} (hr : r.length = p) (hv : 2 ^ a.length + val a < 2 ^ 64)
    (rest : BitStr) (q : Nat) :
    pRice p { bits := List.replicate a.length true ++ false :: (a ++ (r ++ rest)), q := q } =
      .ok ((2 ^ a.length + val a - 1) * 2 ^ p + val r, { bits := rest, q := q + (2 * a.length + 1 + p) }) := by
  rw [pRice, pGamma_append]
  have : ¬ 2 ^ 64 ≤ 2 ^ a.length + val a := by omega
  simp only [Except.ok_bind, checkWord, if_neg this]
  rw [getN_append hr]
  simp only [Except.ok_bind, Nat.add_assoc]

theorem pVbyteLoop_append {b : Nat} (blocks : List BitStr) {last : BitStr}
    (hb : ∀ a ∈ blocks, a.length = b) (hl : last.length = b) (rounds v i : Nat) (hr : blocks.length < rounds)
    (rest : BitStr) (q : Nat) :
    pVbyteLoop b rounds v i
        { bits := (blocks.flatMap fun a => false :: a) ++ true :: (last ++ rest), q := q } =
      .ok (v + val (blocks.flatten ++ last) * 2 ^ (i * b),
        { bits := rest, q := q + (blocks.length + 1) * (b + 1) }) := by
  induction blocks generalizing rounds v i q with
  | nil =>
    obtain ⟨n, rfl⟩ : ∃ n, rounds = n + 1 := ⟨rounds - 1, by simp at hr; omega⟩
    simp only [List.flatMap_nil, List.nil_append, pVbyteLoop, get_cons, Except.ok_bind]
    rw [getN_append hl]
    simp only [Except.ok_bind, if_true, List.flatten_nil, List.nil_append]
    congr 3
    simp only [List.length_nil]; omega
  | cons a blocks ih =>
    obtain ⟨n, rfl⟩ : ∃ n, rounds = n + 1 := ⟨rounds - 1, by simp at hr; omega⟩
    have ha : a.length = b := hb a (by simp)
    simp only [List.length_cons, Nat.add_lt_add_iff_right] at hr
    have ih' := ih (fun c hc => hb c (by simp [hc])) n (v + val a * 2 ^ (i * b)) (i + 1) hr (q + 1 + b)
    simp only [List.flatMap_cons, List.cons_append, List.append_assoc, pVbyteLoop, get_cons, Except.ok_bind]
    rw [getN_append ha]
    simp only [Except.ok_bind, Bool.false_eq_true, if_false, ih']
    congr 2
    · simp only [List.flatten_cons, List.append_assoc, val_append a, ha]
      have : (2 : Nat) ^ ((i + 1) * b) = 2 ^ (i * b) * 2 ^ b := by rw [← Nat.pow_add]; congr 1; ring
      rw [this]; ring
    · congr 1
      simp only [List.length_cons]; ring

theorem pVbyte_append {b : Nat} (blocks : List BitStr) {last : BitStr}
    (hb : ∀ a ∈ blocks, a.length = b) (hl : last.length = b) (rest : BitStr) (q : Nat) :
    pVbyte b { bits := (blocks.flatMap fun a => false :: a) ++ true :: (last ++ rest), q := q } =
      .ok (val (blocks.flatten ++ last), { bits := rest, q := q + (blocks.length + 1) * (b + 1) }) := by
  rw [pVbyte, pVbyteLoop_append blocks hb hl]
  · simp
  · have : blocks.length ≤ (blocks.flatMap fun a => false :: a).length := by
      clear hb
      induction blocks with
      | nil => simp
      | cons a bs ih => simp only [List.flatMap_cons, List.length_append, List.length_cons]; omega
    simp only [List.length_append, List.length_cons]; omega

/-! ## Parsers consume -/

/-- src' is what is left of src, with the bits taken off counted. -/
def Consumes (src src' : Src) : Prop := ∃ a, src.bits = a ++ src'.bits ∧ src'.q = src.q + a.length

theorem Consumes.refl (src : Src) : Consumes src src := ⟨[], by simp⟩

theorem Consumes.trans {a b c : Src} (h : Consumes a b) (h' : Consumes b c) : Consumes a c := by
  obtain ⟨x, h1, h2⟩ := h
  obtain ⟨y, h3, h4⟩ := h'
  exact ⟨x ++ y, by simp [h1, h3], by simp [h2, h4]; omega⟩

theorem get_consumes {src src' : Src} {b : Bool} (h : get src = .ok (b, src')) : Consumes src src' := by
  unfold get at h
  split at h
  · cases h
  · rename_i c rest hb
    cases h
    exact ⟨[b], by simp [hb]⟩

theorem getN_consumes {n : Nat} {src src' : Src} {v : Nat} (h : getN n src = .ok (v, src')) :
    Consumes src src' := by
  unfold getN at h
  split at h
  · cases h
  · cases h
    exact ⟨src.bits.take n, by simp, by simp; omega⟩

theorem getN_lt {n : Nat} {src src' : Src} {v : Nat} (h : getN n src = .ok (v, src')) : v < 2 ^ n := by
  unfold getN at h
  split at h
  · cases h
  · cases h
    rename_i hl
    have := val_lt (src.bits.take n)
    rwa [List.length_take, Nat.min_eq_left (by omega)] at this

theorem countOnes_consumes {c q : Nat} {bits : BitStr} {src' : Src} {v : Nat}
    (h : countOnes c bits q = .ok (v, src')) : Consumes { bits := bits, q := q } src' := by
  induction bits generalizing c q with
  | nil => cases h
  | cons b bits ih =>
    cases b
    · cases h; exact ⟨[false], by simp⟩
    · obtain ⟨a, h1, h2⟩ := ih h
      exact ⟨true :: a, by simpa using h1, by simp at h2 ⊢; omega⟩

theorem pUnary_consumes {src src' : Src} {v : Nat} (h : pUnary src = .ok (v, src')) : Consumes src src' :=
  countOnes_consumes h

theorem pGamma_consumes {src src' : Src} {v : Nat} (h : pGamma src = .ok (v, src')) : Consumes src src' := by
  obtain ⟨⟨m, s1⟩, h1, h2⟩ := Except.bind_eq_ok.1 h
  dsimp only at h2
  split at h2
  · cases h2; exact pUnary_consumes h1
  · obtain ⟨⟨t, s2⟩, h3, h4⟩ := Except.bind_eq_ok.1 h2
    cases h4
    exact (pUnary_consumes h1).trans (getN_consumes h3)

theorem pGamma_pos {src src' : Src} {v : Nat} (h : pGamma src = .ok (v, src')) : 1 ≤ v := by
  obtain ⟨⟨m, s1⟩, h1, h2⟩ := Except.bind_eq_ok.1 h
  dsimp only at h2
  split at h2
  · cases h2; rfl
  · obtain ⟨⟨t, s2⟩, h3, h4⟩ := Except.bind_eq_ok.1 h2
    cases h4
    exact (Nat.one_le_two_pow).trans (Nat.le_add_right _ _)

theorem pDelta_consumes {src src' : Src} {v : Nat} (h : pDelta src = .ok (v, src')) : Consumes src src' := by
  obtain ⟨⟨m, s1⟩, h1, h2⟩ := Except.bind_eq_ok.1 h
  dsimp only at h2
  split at h2
  · cases h2; exact pGamma_consumes h1
  · obtain ⟨⟨t, s2⟩, h3, h4⟩ := Except.bind_eq_ok.1 h2
    cases h4
    exact (pGamma_consumes h1).trans (getN_consumes h3)

theorem pDelta_pos {src src' : Src} {v : Nat} (h : pDelta src = .ok (v, src')) : 1 ≤ v := by
  obtain ⟨⟨m, s1⟩, h1, h2⟩ := Except.bind_eq_ok.1 h
  dsimp only at h2
  split at h2
  · cases h2; rfl
  · obtain ⟨⟨t, s2⟩, h3, h4⟩ := Except.bind_eq_ok.1 h2
    cases h4
    exact (Nat.one_le_two_pow).trans (Nat.le_add_right _ _)

theorem pRice_consumes {p : Nat} {src src' : Src} {v : Nat} (h : pRice p src = .ok (v, src')) :
    Consumes src src' := by
  obtain ⟨⟨g, s1⟩, h1, h2⟩ := Except.bind_eq_ok.1 h
  obtain ⟨_, _, h3⟩ := Except.bind_eq_ok.1 h2
  obtain ⟨⟨r, s2⟩, h4, h5⟩ := Except.bind_eq_ok.1 h3
  cases h5
  exact (pGamma_consumes h1).trans (getN_consumes h4)

theorem pVbyteLoop_consumes {b rounds v i : Nat} {src src' : Src} {w : Nat}
    (h : pVbyteLoop b rounds v i src = .ok (w, src')) : Consumes src src' := by
  induction rounds generalizing v i src with
  | zero => cases h
  | succ n ih =>
    obtain ⟨⟨c, s1⟩, h1, h2⟩ := Except.bind_eq_ok.1 h
    obtain ⟨⟨t, s2⟩, h3, h4⟩ := Except.bind_eq_ok.1 h2
    dsimp only at h4
    have hc := (get_consumes h1).trans (getN_consumes h3)
    split at h4
    · cases h4; exact hc
    · exact hc.trans (ih h4)

theorem pVbyte_consumes {b : Nat} {src src' : Src} {v : Nat} (h : pVbyte b src = .ok (v, src')) :
    Consumes src src' := pVbyteLoop_consumes h

/-! ## Parsers read back what the encoders write -/

theorem gamma_eq {x m : Nat} (h : IsLog x m) :
    gamma x = List.replicate m true ++ false :: bin x m := by
  simp [gamma, unary, bw_of_isLog h]

theorem length_gamma {x m : Nat} (h : IsLog x m) : (gamma x).length = 2 * m + 1 := by
  rw [gamma_eq h]; simp; omega

/-- The low m bits of a number with floor(log2) = m, and the leading 1 above them. -/
theorem two_pow_add_mod {x m : Nat} (h : IsLog x m) : 2 ^ m + x % 2 ^ m = x := by
  obtain ⟨h1, h2⟩ := h
  rw [Nat.pow_succ] at h2
  have : x / 2 ^ m = 1 := by
    apply Nat.div_eq_of_lt_le <;> omega
  have := Nat.div_add_mod x (2 ^ m)
  rw [‹x / 2 ^ m = 1›] at this
  omega

theorem pGamma_gamma {x : Nat} (hx : x ≠ 0) (rest : BitStr) (q : Nat) :
    pGamma { bits := gamma x ++ rest, q := q } =
      .ok (x, { bits := rest, q := q + (gamma x).length }) := by
  have h := isLog_bw hx
  generalize bw x - 1 = m at h
  have := pGamma_append (bin x m) rest q
  rw [length_bin, val_bin, two_pow_add_mod h] at this
  rw [length_gamma h, gamma_eq h]
  simpa using this

theorem delta_eq {x m j : Nat} (h : IsLog x m) (hj : IsLog (m + 1) j) :
    delta x = List.replicate j true ++ false :: (bin (m + 1) j ++ bin x m) := by
  simp [delta, bw_of_isLog h, gamma_eq hj]

theorem length_delta {x m j : Nat} (h : IsLog x m) (hj : IsLog (m + 1) j) :
    (delta x).length = 2 * j + 1 + m := by
  rw [delta_eq h hj]; simp; omega

theorem pDelta_delta {x : Nat} (hx : x ≠ 0) (rest : BitStr) (q : Nat) :
    pDelta { bits := delta x ++ rest, q := q } =
      .ok (x, { bits := rest, q := q + (delta x).length }) := by
  have h := isLog_bw hx
  generalize bw x - 1 = m at h
  have hj := isLog_bw (Nat.succ_ne_zero m)
  generalize bw m.succ - 1 = j at hj
  have := pDelta_append (c := bin (m + 1) j) (a := bin x m)
    (by rw [length_bin, length_bin, val_bin, two_pow_add_mod hj]) rest q
  rw [length_bin, length_bin, val_bin, two_pow_add_mod h] at this
  rw [length_delta h hj, delta_eq h hj]
  simpa using this

theorem pRice_rice {x p : Nat} (hx : x < 2 ^ 64) (hq : x / 2 ^ p ≠ umax) (rest : BitStr) (q : Nat) :
    pRice p { bits := rice x p ++ rest, q := q } =
      .ok (x, { bits := rest, q := q + (rice x p).length }) := by
  have h := isLog_bw (Nat.succ_ne_zero (x / 2 ^ p))
  generalize bw (x / 2 ^ p).succ - 1 = m at h
  have hlt : x / 2 ^ p ≤ x := Nat.div_le_self _ _
  have e : 2 ^ m + val (bin (x / 2 ^ p + 1) m) = x / 2 ^ p + 1 := by rw [val_bin, two_pow_add_mod h]
  have := pRice_append (p := p) (a := bin (x / 2 ^ p + 1) m) (r := bin (x % 2 ^ p) p) (length_bin _ _)
    (by rw [length_bin, e]; simp only [umax] at hq; omega) rest q
  rw [length_bin, e, val_bin (x % 2 ^ p), Nat.mod_mod, Nat.add_sub_cancel, Nat.div_add_mod' x] at this
  have hl : (rice x p).length = 2 * m + 1 + p := by simp [rice, length_gamma h]
  rw [hl]
  rw [← this]
  simp [rice, gamma_eq h]

theorem length_rice {x p m : Nat} (h : IsLog (x >>> p + 1) m) : (rice x p).length = 2 * m + 1 + p := by
  rw [Nat.shiftRight_eq_div_pow] at h
  simp [rice, length_gamma h]

/-- vbyte as blocks: k continuation blocks and the last one (42 R230). -/
theorem vbyteBlocks_eq {b : Nat} (k rounds x : Nat) (hk : k ≤ rounds) (hx : x < 2 ^ ((k + 1) * b))
    (hl : k = 0 ∨ 2 ^ (k * b) ≤ x) :
    vbyteBlocks b rounds x =
      ((List.range k).flatMap fun i => false :: bin (x / 2 ^ (i * b)) b) ++ true :: bin (x / 2 ^ (k * b)) b := by
  induction k generalizing x rounds with
  | zero =>
    have : bw x ≤ b := (bw_le_iff x b).2 (by simpa using hx)
    cases rounds <;> simp [vbyteBlocks, this]
  | succ k ih =>
    obtain ⟨n, rfl⟩ : ∃ n, rounds = n + 1 := ⟨rounds - 1, by omega⟩
    have hge : 2 ^ ((k + 1) * b) ≤ x := by rcases hl with h | h; omega; exact h
    have h1 : ¬ bw x ≤ b := by
      rw [bw_le_iff]
      have : 2 ^ b ≤ 2 ^ ((k + 1) * b) := Nat.pow_le_pow_right (by omega) (Nat.le_mul_of_pos_left b (by omega))
      omega
    have e1 : (k + 1 + 1) * b = b + (k + 1) * b := by ring
    have e2 : (k + 1) * b = b + k * b := by ring
    have h2 : x / 2 ^ b < 2 ^ ((k + 1) * b) := by
      rw [Nat.div_lt_iff_lt_mul (by positivity), ← Nat.pow_add, Nat.add_comm, ← e1]; exact hx
    have h3 : 2 ^ (k * b) ≤ x / 2 ^ b := by
      rw [Nat.le_div_iff_mul_le (by positivity), ← Nat.pow_add, Nat.add_comm, ← e2]; exact hge
    have e : ∀ i, x / 2 ^ b / 2 ^ (i * b) = x / 2 ^ ((i + 1) * b) := fun i => by
      rw [Nat.div_div_eq_div_mul, ← Nat.pow_add]; congr 2; ring
    rw [vbyteBlocks, if_neg h1, ih n _ (by omega) h2 (Or.inr h3)]
    simp only [e, List.range_succ_eq_map, List.flatMap_cons, List.flatMap_map, Nat.succ_eq_add_one]
    simp

/-- The number of continuation blocks of a value exists (42 R230: max(1, ceil(bw/b)) blocks). -/
theorem exists_blocks {b : Nat} (hb : 1 ≤ b) (x : Nat) :
    ∃ k, k ≤ bw x ∧ x < 2 ^ ((k + 1) * b) ∧ (k = 0 ∨ 2 ^ (k * b) ≤ x) := by
  by_cases hx : x = 0
  · exact ⟨0, by omega, by subst hx; positivity, Or.inl rfl⟩
  · have h := isLog_bw hx
    have hp := bw_pos hx
    refine ⟨(bw x - 1) / b, ?_, ?_, ?_⟩
    · have := Nat.div_le_self (bw x - 1) b; omega
    · refine h.2.trans_le (Nat.pow_le_pow_right (by omega) ?_)
      have := Nat.lt_div_mul_add (a := bw x - 1) (b := b) hb
      rw [Nat.add_mul]; omega
    · right
      exact (Nat.pow_le_pow_right (by omega) (Nat.div_mul_le_self _ _)).trans h.1

theorem length_vbyte {x b k : Nat} (hb : 1 ≤ b) (hx : x < 2 ^ ((k + 1) * b)) (hl : k = 0 ∨ 2 ^ (k * b) ≤ x) :
    (vbyte x b).length = (k + 1) * (b + 1) := by
  have hk : k ≤ bw x := by
    rcases hl with h | h
    · omega
    · have : ¬ bw x ≤ k * b := by rw [bw_le_iff]; omega
      have := Nat.le_mul_of_pos_right k hb
      omega
  rw [vbyte, vbyteBlocks_eq k _ x hk hx hl]
  simp only [List.length_append, List.length_flatMap, List.length_cons, length_bin]
  simp; ring

theorem flatMap_bin_flatten (b x k : Nat) :
    ((List.range k).map fun i => bin (x / 2 ^ (i * b)) b).flatten = bin x (k * b) := by
  induction k with
  | zero => simp
  | succ k ih =>
    rw [List.range_succ, List.map_append, List.flatten_append, ih, Nat.add_mul, bin_add]
    simp

theorem pVbyte_vbyte {b : Nat} (hb : 1 ≤ b) (x : Nat) (rest : BitStr) (q : Nat) :
    pVbyte b { bits := vbyte x b ++ rest, q := q } =
      .ok (x, { bits := rest, q := q + (vbyte x b).length }) := by
  obtain ⟨k, hk, hx, hl⟩ := exists_blocks hb x
  have e := vbyteBlocks_eq k (bw x) x hk hx hl
  have h := pVbyte_append (b := b) ((List.range k).map fun i => bin (x / 2 ^ (i * b)) b)
    (last := bin (x / 2 ^ (k * b)) b) (by simp) (length_bin _ _) rest q
  rw [flatMap_bin_flatten, ← bin_add, val_bin, List.length_map, List.length_range] at h
  have e2 : k * b + b = (k + 1) * b := by ring
  rw [e2, Nat.mod_eq_of_lt hx] at h
  rw [length_vbyte hb hx hl, ← h, vbyte, e]
  simp [List.flatMap_map]

end Sys2Proof.Machine
end

