-- ==== Sys2Proof/Laws/Memory.lean ====
section
/-! SUPPORT. Cell arrays: what a read sees after a store, and that a store keeps the canonical form. -/

namespace Sys2Proof.Machine

variable {α : Type}

theorem Memory.get?_append (m n : Memory α) (k : Nat) :
    Memory.get? (m ++ n) k = (Memory.get? m k).or (Memory.get? n k) := by
  induction m with
  | nil => rfl
  | cons c m ih =>
    obtain ⟨j, v⟩ := c
    simp only [List.cons_append, Memory.get?]
    split <;> simp [ih]

theorem Memory.get?_filter (p : Nat → Bool) (m : Memory α) (k : Nat) :
    Memory.get? (m.filter fun c => p c.1) k = if p k then Memory.get? m k else none := by
  induction m with
  | nil => simp [Memory.get?]
  | cons c m ih =>
    obtain ⟨j, v⟩ := c
    by_cases hj : j = k
    · subst hj; cases hp : p j <;> simp_all [Memory.get?]
    · cases hp : p j <;> simp_all [Memory.get?]

theorem Memory.get?_block (k : Nat) (a : List α) (j : Nat) :
    Memory.get? (Memory.block k a) j = if k ≤ j then a[j - k]? else none := by
  induction a generalizing k with
  | nil => simp [Memory.block, Memory.get?]
  | cons v a ih =>
    simp only [Memory.block, Memory.get?, ih]
    by_cases hk : k = j
    · subst hk; simp
    · by_cases hl : k ≤ j
      · have e : j - k = (j - (k + 1)) + 1 := by omega
        have h2 : k + 1 ≤ j := by omega
        simp [hk, hl, h2, e]
      · have h2 : ¬ k + 1 ≤ j := by omega
        simp [hk, hl, h2]

/-- What a read of one cell sees after a store. -/
theorem Memory.get?_store (m : Memory α) (k : Nat) (a : List α) (j : Nat) :
    Memory.get? (Memory.store m k a) j =
      if k ≤ j ∧ j < k + a.length then a[j - k]? else Memory.get? m j := by
  rw [Memory.store, Memory.get?_append, Memory.get?_append, Memory.get?_filter (fun i => decide (i < k)),
    Memory.get?_filter (fun i => decide (k + a.length ≤ i)), Memory.get?_block]
  by_cases h1 : j < k
  · have : ¬ k ≤ j := by omega
    have h3 : ¬ k + a.length ≤ j := by omega
    simp [h1, this, h3]
  · have h2 : k ≤ j := by omega
    by_cases h3 : j < k + a.length
    · have h4 : j - k < a.length := by omega
      have h5 : ¬ k + a.length ≤ j := by omega
      simp [h1, h2, h3, h4]
    · have h4 : a.length ≤ j - k := by omega
      have h5 : k + a.length ≤ j := by omega
      simp [h1, h2, h3, h4, h5]

/-- A store at one index: that cell reads back, every other is as before. -/
theorem Memory.get?_store_one (m : Memory α) (k : Nat) (v : α) (j : Nat) :
    Memory.get? (Memory.store m k [v]) j = if j = k then some v else Memory.get? m j := by
  rw [Memory.get?_store]
  by_cases h : j = k
  · subst h; simp
  · rw [if_neg (by simp only [List.length_singleton]; omega), if_neg h]

theorem Memory.mem_block {k : Nat} {a : List α} {c : Nat × α} (h : c ∈ Memory.block k a) :
    k ≤ c.1 ∧ c.1 < k + a.length := by
  induction a generalizing k with
  | nil => simp [Memory.block] at h
  | cons v a ih =>
    simp only [Memory.block, List.mem_cons] at h
    rcases h with rfl | h
    · simp
    · have := ih h
      simp only [List.length_cons]; omega

theorem Memory.block_pairwise (k : Nat) (a : List α) :
    (Memory.block k a).Pairwise (fun x y => x.1 < y.1) := by
  induction a generalizing k with
  | nil => exact List.Pairwise.nil
  | cons v a ih =>
    refine List.Pairwise.cons (fun c hc => ?_) (ih (k + 1))
    exact (Memory.mem_block hc).1

/-- A store within the capacity keeps the canonical form. -/
theorem Memory.store_wf {cap : Nat} {m : Memory α} {k : Nat} {a : List α} (h : Memory.wf cap m)
    (hk : k + a.length ≤ cap) : Memory.wf cap (Memory.store m k a) := by
  obtain ⟨hp, hb⟩ := h
  refine ⟨?_, fun c hc => ?_⟩
  · simp only [Memory.store, List.pairwise_append]
    refine ⟨⟨hp.filter _, Memory.block_pairwise k a, fun x hx y hy => ?_⟩, hp.filter _, fun x hx y hy => ?_⟩
    · have := (Memory.mem_block hy).1
      simp only [List.mem_filter, decide_eq_true_eq] at hx
      omega
    · simp only [List.mem_filter, decide_eq_true_eq, List.mem_append] at hx hy
      rcases hx with hx | hx
      · omega
      · have := (Memory.mem_block hx).2
        omega
  · simp only [Memory.store, List.mem_append, List.mem_filter, decide_eq_true_eq] at hc
    rcases hc with (hc | hc) | hc
    · exact hb c hc.1
    · have := (Memory.mem_block hc).2
      omega
    · exact hb c hc.1

/-- No cell written is the canonical form of every capacity. -/
theorem Memory.wf_nil (cap : Nat) : Memory.wf cap ([] : Memory α) := by simp [Memory.wf]

end Sys2Proof.Machine
end

