-- ==== Sys2Proof/Laws/State.lean ====
section
/-! SUPPORT. One lemma per field per named update of the state, each true by rfl. -/

namespace Sys2Proof.Machine

@[simp] theorem setRes0_params (v : Nat) (s : State) : (setRes0 v s).params = s.params := rfl
@[simp] theorem setRes0_ie (v : Nat) (s : State) : (setRes0 v s).ie = s.ie := rfl
@[simp] theorem setRes0_busy (v : Nat) (s : State) : (setRes0 v s).busy = s.busy := rfl
@[simp] theorem setRes0_done (v : Nat) (s : State) : (setRes0 v s).done = s.done := rfl
@[simp] theorem setRes0_err (v : Nat) (s : State) : (setRes0 v s).err = s.err := rfl
@[simp] theorem setRes0_wovr (v : Nat) (s : State) : (setRes0 v s).wovr = s.wovr := rfl
@[simp] theorem setRes0_ecode (v : Nat) (s : State) : (setRes0 v s).ecode = s.ecode := rfl
@[simp] theorem setRes0_cmd (v : Nat) (s : State) : (setRes0 v s).cmd = s.cmd := rfl
@[simp] theorem setRes0_x (v : Nat) (s : State) : (setRes0 v s).x = s.x := rfl
@[simp] theorem setRes0_ulo (v : Nat) (s : State) : (setRes0 v s).ulo = s.ulo := rfl
@[simp] theorem setRes0_uhi (v : Nat) (s : State) : (setRes0 v s).uhi = s.uhi := rfl
@[simp] theorem setRes0_res0 (v : Nat) (s : State) : (setRes0 v s).res0 = reg v := rfl
@[simp] theorem setRes0_res1 (v : Nat) (s : State) : (setRes0 v s).res1 = s.res1 := rfl
@[simp] theorem setRes0_obit (v : Nat) (s : State) : (setRes0 v s).obit = s.obit := rfl
@[simp] theorem setRes0_ipos (v : Nat) (s : State) : (setRes0 v s).ipos = s.ipos := rfl
@[simp] theorem setRes0_ilen (v : Nat) (s : State) : (setRes0 v s).ilen = s.ilen := rfl
@[simp] theorem setRes0_hist (v : Nat) (s : State) : (setRes0 v s).hist = s.hist := rfl
@[simp] theorem setRes0_obuf (v : Nat) (s : State) : (setRes0 v s).obuf = s.obuf := rfl
@[simp] theorem setRes0_ibuf (v : Nat) (s : State) : (setRes0 v s).ibuf = s.ibuf := rfl
@[simp] theorem setRes0_tree (v : Nat) (s : State) : (setRes0 v s).tree = s.tree := rfl
@[simp] theorem setRes0_draws (v : Nat) (s : State) : (setRes0 v s).draws = s.draws := rfl
@[simp] theorem setRes0_turns (v : Nat) (s : State) : (setRes0 v s).turns = s.turns := rfl
@[simp] theorem setRes0_response (v : Nat) (s : State) : (setRes0 v s).response = s.response := rfl

@[simp] theorem setRes1_params (v : Nat) (s : State) : (setRes1 v s).params = s.params := rfl
@[simp] theorem setRes1_ie (v : Nat) (s : State) : (setRes1 v s).ie = s.ie := rfl
@[simp] theorem setRes1_busy (v : Nat) (s : State) : (setRes1 v s).busy = s.busy := rfl
@[simp] theorem setRes1_done (v : Nat) (s : State) : (setRes1 v s).done = s.done := rfl
@[simp] theorem setRes1_err (v : Nat) (s : State) : (setRes1 v s).err = s.err := rfl
@[simp] theorem setRes1_wovr (v : Nat) (s : State) : (setRes1 v s).wovr = s.wovr := rfl
@[simp] theorem setRes1_ecode (v : Nat) (s : State) : (setRes1 v s).ecode = s.ecode := rfl
@[simp] theorem setRes1_cmd (v : Nat) (s : State) : (setRes1 v s).cmd = s.cmd := rfl
@[simp] theorem setRes1_x (v : Nat) (s : State) : (setRes1 v s).x = s.x := rfl
@[simp] theorem setRes1_ulo (v : Nat) (s : State) : (setRes1 v s).ulo = s.ulo := rfl
@[simp] theorem setRes1_uhi (v : Nat) (s : State) : (setRes1 v s).uhi = s.uhi := rfl
@[simp] theorem setRes1_res0 (v : Nat) (s : State) : (setRes1 v s).res0 = s.res0 := rfl
@[simp] theorem setRes1_res1 (v : Nat) (s : State) : (setRes1 v s).res1 = reg v := rfl
@[simp] theorem setRes1_obit (v : Nat) (s : State) : (setRes1 v s).obit = s.obit := rfl
@[simp] theorem setRes1_ipos (v : Nat) (s : State) : (setRes1 v s).ipos = s.ipos := rfl
@[simp] theorem setRes1_ilen (v : Nat) (s : State) : (setRes1 v s).ilen = s.ilen := rfl
@[simp] theorem setRes1_hist (v : Nat) (s : State) : (setRes1 v s).hist = s.hist := rfl
@[simp] theorem setRes1_obuf (v : Nat) (s : State) : (setRes1 v s).obuf = s.obuf := rfl
@[simp] theorem setRes1_ibuf (v : Nat) (s : State) : (setRes1 v s).ibuf = s.ibuf := rfl
@[simp] theorem setRes1_tree (v : Nat) (s : State) : (setRes1 v s).tree = s.tree := rfl
@[simp] theorem setRes1_draws (v : Nat) (s : State) : (setRes1 v s).draws = s.draws := rfl
@[simp] theorem setRes1_turns (v : Nat) (s : State) : (setRes1 v s).turns = s.turns := rfl
@[simp] theorem setRes1_response (v : Nat) (s : State) : (setRes1 v s).response = s.response := rfl

@[simp] theorem advanceIpos_params (q : Nat) (s : State) : (advanceIpos q s).params = s.params := rfl
@[simp] theorem advanceIpos_ie (q : Nat) (s : State) : (advanceIpos q s).ie = s.ie := rfl
@[simp] theorem advanceIpos_busy (q : Nat) (s : State) : (advanceIpos q s).busy = s.busy := rfl
@[simp] theorem advanceIpos_done (q : Nat) (s : State) : (advanceIpos q s).done = s.done := rfl
@[simp] theorem advanceIpos_err (q : Nat) (s : State) : (advanceIpos q s).err = s.err := rfl
@[simp] theorem advanceIpos_wovr (q : Nat) (s : State) : (advanceIpos q s).wovr = s.wovr := rfl
@[simp] theorem advanceIpos_ecode (q : Nat) (s : State) : (advanceIpos q s).ecode = s.ecode := rfl
@[simp] theorem advanceIpos_cmd (q : Nat) (s : State) : (advanceIpos q s).cmd = s.cmd := rfl
@[simp] theorem advanceIpos_x (q : Nat) (s : State) : (advanceIpos q s).x = s.x := rfl
@[simp] theorem advanceIpos_ulo (q : Nat) (s : State) : (advanceIpos q s).ulo = s.ulo := rfl
@[simp] theorem advanceIpos_uhi (q : Nat) (s : State) : (advanceIpos q s).uhi = s.uhi := rfl
@[simp] theorem advanceIpos_res0 (q : Nat) (s : State) : (advanceIpos q s).res0 = s.res0 := rfl
@[simp] theorem advanceIpos_res1 (q : Nat) (s : State) : (advanceIpos q s).res1 = s.res1 := rfl
@[simp] theorem advanceIpos_obit (q : Nat) (s : State) : (advanceIpos q s).obit = s.obit := rfl
@[simp] theorem advanceIpos_ipos (q : Nat) (s : State) : (advanceIpos q s).ipos = reg (s.ipos.toNat + q) := rfl
@[simp] theorem advanceIpos_ilen (q : Nat) (s : State) : (advanceIpos q s).ilen = s.ilen := rfl
@[simp] theorem advanceIpos_hist (q : Nat) (s : State) : (advanceIpos q s).hist = s.hist := rfl
@[simp] theorem advanceIpos_obuf (q : Nat) (s : State) : (advanceIpos q s).obuf = s.obuf := rfl
@[simp] theorem advanceIpos_ibuf (q : Nat) (s : State) : (advanceIpos q s).ibuf = s.ibuf := rfl
@[simp] theorem advanceIpos_tree (q : Nat) (s : State) : (advanceIpos q s).tree = s.tree := rfl
@[simp] theorem advanceIpos_draws (q : Nat) (s : State) : (advanceIpos q s).draws = s.draws := rfl
@[simp] theorem advanceIpos_turns (q : Nat) (s : State) : (advanceIpos q s).turns = s.turns := rfl
@[simp] theorem advanceIpos_response (q : Nat) (s : State) : (advanceIpos q s).response = s.response := rfl

@[simp] theorem setTree_params (t : TreeState) (s : State) : (setTree t s).params = s.params := rfl
@[simp] theorem setTree_ie (t : TreeState) (s : State) : (setTree t s).ie = s.ie := rfl
@[simp] theorem setTree_busy (t : TreeState) (s : State) : (setTree t s).busy = s.busy := rfl
@[simp] theorem setTree_done (t : TreeState) (s : State) : (setTree t s).done = s.done := rfl
@[simp] theorem setTree_err (t : TreeState) (s : State) : (setTree t s).err = s.err := rfl
@[simp] theorem setTree_wovr (t : TreeState) (s : State) : (setTree t s).wovr = s.wovr := rfl
@[simp] theorem setTree_ecode (t : TreeState) (s : State) : (setTree t s).ecode = s.ecode := rfl
@[simp] theorem setTree_cmd (t : TreeState) (s : State) : (setTree t s).cmd = s.cmd := rfl
@[simp] theorem setTree_x (t : TreeState) (s : State) : (setTree t s).x = s.x := rfl
@[simp] theorem setTree_ulo (t : TreeState) (s : State) : (setTree t s).ulo = s.ulo := rfl
@[simp] theorem setTree_uhi (t : TreeState) (s : State) : (setTree t s).uhi = s.uhi := rfl
@[simp] theorem setTree_res0 (t : TreeState) (s : State) : (setTree t s).res0 = s.res0 := rfl
@[simp] theorem setTree_res1 (t : TreeState) (s : State) : (setTree t s).res1 = s.res1 := rfl
@[simp] theorem setTree_obit (t : TreeState) (s : State) : (setTree t s).obit = s.obit := rfl
@[simp] theorem setTree_ipos (t : TreeState) (s : State) : (setTree t s).ipos = s.ipos := rfl
@[simp] theorem setTree_ilen (t : TreeState) (s : State) : (setTree t s).ilen = s.ilen := rfl
@[simp] theorem setTree_hist (t : TreeState) (s : State) : (setTree t s).hist = s.hist := rfl
@[simp] theorem setTree_obuf (t : TreeState) (s : State) : (setTree t s).obuf = s.obuf := rfl
@[simp] theorem setTree_ibuf (t : TreeState) (s : State) : (setTree t s).ibuf = s.ibuf := rfl
@[simp] theorem setTree_tree (t : TreeState) (s : State) : (setTree t s).tree = t := rfl
@[simp] theorem setTree_draws (t : TreeState) (s : State) : (setTree t s).draws = s.draws := rfl
@[simp] theorem setTree_turns (t : TreeState) (s : State) : (setTree t s).turns = s.turns := rfl
@[simp] theorem setTree_response (t : TreeState) (s : State) : (setTree t s).response = s.response := rfl

@[simp] theorem setHist_params (m : Memory (BitVec 32)) (s : State) : (setHist m s).params = s.params := rfl
@[simp] theorem setHist_ie (m : Memory (BitVec 32)) (s : State) : (setHist m s).ie = s.ie := rfl
@[simp] theorem setHist_busy (m : Memory (BitVec 32)) (s : State) : (setHist m s).busy = s.busy := rfl
@[simp] theorem setHist_done (m : Memory (BitVec 32)) (s : State) : (setHist m s).done = s.done := rfl
@[simp] theorem setHist_err (m : Memory (BitVec 32)) (s : State) : (setHist m s).err = s.err := rfl
@[simp] theorem setHist_wovr (m : Memory (BitVec 32)) (s : State) : (setHist m s).wovr = s.wovr := rfl
@[simp] theorem setHist_ecode (m : Memory (BitVec 32)) (s : State) : (setHist m s).ecode = s.ecode := rfl
@[simp] theorem setHist_cmd (m : Memory (BitVec 32)) (s : State) : (setHist m s).cmd = s.cmd := rfl
@[simp] theorem setHist_x (m : Memory (BitVec 32)) (s : State) : (setHist m s).x = s.x := rfl
@[simp] theorem setHist_ulo (m : Memory (BitVec 32)) (s : State) : (setHist m s).ulo = s.ulo := rfl
@[simp] theorem setHist_uhi (m : Memory (BitVec 32)) (s : State) : (setHist m s).uhi = s.uhi := rfl
@[simp] theorem setHist_res0 (m : Memory (BitVec 32)) (s : State) : (setHist m s).res0 = s.res0 := rfl
@[simp] theorem setHist_res1 (m : Memory (BitVec 32)) (s : State) : (setHist m s).res1 = s.res1 := rfl
@[simp] theorem setHist_obit (m : Memory (BitVec 32)) (s : State) : (setHist m s).obit = s.obit := rfl
@[simp] theorem setHist_ipos (m : Memory (BitVec 32)) (s : State) : (setHist m s).ipos = s.ipos := rfl
@[simp] theorem setHist_ilen (m : Memory (BitVec 32)) (s : State) : (setHist m s).ilen = s.ilen := rfl
@[simp] theorem setHist_hist (m : Memory (BitVec 32)) (s : State) : (setHist m s).hist = m := rfl
@[simp] theorem setHist_obuf (m : Memory (BitVec 32)) (s : State) : (setHist m s).obuf = s.obuf := rfl
@[simp] theorem setHist_ibuf (m : Memory (BitVec 32)) (s : State) : (setHist m s).ibuf = s.ibuf := rfl
@[simp] theorem setHist_tree (m : Memory (BitVec 32)) (s : State) : (setHist m s).tree = s.tree := rfl
@[simp] theorem setHist_draws (m : Memory (BitVec 32)) (s : State) : (setHist m s).draws = s.draws := rfl
@[simp] theorem setHist_turns (m : Memory (BitVec 32)) (s : State) : (setHist m s).turns = s.turns := rfl
@[simp] theorem setHist_response (m : Memory (BitVec 32)) (s : State) : (setHist m s).response = s.response := rfl

@[simp] theorem completeWith_params (e : ErrCode) (s : State) : (completeWith e s).params = s.params := rfl
@[simp] theorem completeWith_ie (e : ErrCode) (s : State) : (completeWith e s).ie = s.ie := rfl
@[simp] theorem completeWith_busy (e : ErrCode) (s : State) : (completeWith e s).busy = false := rfl
@[simp] theorem completeWith_done (e : ErrCode) (s : State) : (completeWith e s).done = true := rfl
@[simp] theorem completeWith_err (e : ErrCode) (s : State) : (completeWith e s).err = (s.err || e != .ok) := rfl
@[simp] theorem completeWith_wovr (e : ErrCode) (s : State) : (completeWith e s).wovr = s.wovr := rfl
@[simp] theorem completeWith_ecode (e : ErrCode) (s : State) : (completeWith e s).ecode = e := rfl
@[simp] theorem completeWith_cmd (e : ErrCode) (s : State) : (completeWith e s).cmd = s.cmd := rfl
@[simp] theorem completeWith_x (e : ErrCode) (s : State) : (completeWith e s).x = s.x := rfl
@[simp] theorem completeWith_ulo (e : ErrCode) (s : State) : (completeWith e s).ulo = s.ulo := rfl
@[simp] theorem completeWith_uhi (e : ErrCode) (s : State) : (completeWith e s).uhi = s.uhi := rfl
@[simp] theorem completeWith_res0 (e : ErrCode) (s : State) : (completeWith e s).res0 = s.res0 := rfl
@[simp] theorem completeWith_res1 (e : ErrCode) (s : State) : (completeWith e s).res1 = s.res1 := rfl
@[simp] theorem completeWith_obit (e : ErrCode) (s : State) : (completeWith e s).obit = s.obit := rfl
@[simp] theorem completeWith_ipos (e : ErrCode) (s : State) : (completeWith e s).ipos = s.ipos := rfl
@[simp] theorem completeWith_ilen (e : ErrCode) (s : State) : (completeWith e s).ilen = s.ilen := rfl
@[simp] theorem completeWith_hist (e : ErrCode) (s : State) : (completeWith e s).hist = s.hist := rfl
@[simp] theorem completeWith_obuf (e : ErrCode) (s : State) : (completeWith e s).obuf = s.obuf := rfl
@[simp] theorem completeWith_ibuf (e : ErrCode) (s : State) : (completeWith e s).ibuf = s.ibuf := rfl
@[simp] theorem completeWith_tree (e : ErrCode) (s : State) : (completeWith e s).tree = s.tree := rfl
@[simp] theorem completeWith_draws (e : ErrCode) (s : State) : (completeWith e s).draws = s.draws + 1 := rfl
@[simp] theorem completeWith_turns (e : ErrCode) (s : State) : (completeWith e s).turns = s.turns := rfl
@[simp] theorem completeWith_response (e : ErrCode) (s : State) : (completeWith e s).response = s.response := rfl

@[simp] theorem accept_params (w : Word) (s : State) : (accept w s).params = s.params := rfl
@[simp] theorem accept_ie (w : Word) (s : State) : (accept w s).ie = s.ie := rfl
@[simp] theorem accept_busy (w : Word) (s : State) : (accept w s).busy = true := rfl
@[simp] theorem accept_done (w : Word) (s : State) : (accept w s).done = false := rfl
@[simp] theorem accept_err (w : Word) (s : State) : (accept w s).err = s.err := rfl
@[simp] theorem accept_wovr (w : Word) (s : State) : (accept w s).wovr = s.wovr := rfl
@[simp] theorem accept_ecode (w : Word) (s : State) : (accept w s).ecode = s.ecode := rfl
@[simp] theorem accept_cmd (w : Word) (s : State) : (accept w s).cmd = w := rfl
@[simp] theorem accept_x (w : Word) (s : State) : (accept w s).x = s.x := rfl
@[simp] theorem accept_ulo (w : Word) (s : State) : (accept w s).ulo = s.ulo := rfl
@[simp] theorem accept_uhi (w : Word) (s : State) : (accept w s).uhi = s.uhi := rfl
@[simp] theorem accept_res0 (w : Word) (s : State) : (accept w s).res0 = s.res0 := rfl
@[simp] theorem accept_res1 (w : Word) (s : State) : (accept w s).res1 = s.res1 := rfl
@[simp] theorem accept_obit (w : Word) (s : State) : (accept w s).obit = s.obit := rfl
@[simp] theorem accept_ipos (w : Word) (s : State) : (accept w s).ipos = s.ipos := rfl
@[simp] theorem accept_ilen (w : Word) (s : State) : (accept w s).ilen = s.ilen := rfl
@[simp] theorem accept_hist (w : Word) (s : State) : (accept w s).hist = s.hist := rfl
@[simp] theorem accept_obuf (w : Word) (s : State) : (accept w s).obuf = s.obuf := rfl
@[simp] theorem accept_ibuf (w : Word) (s : State) : (accept w s).ibuf = s.ibuf := rfl
@[simp] theorem accept_tree (w : Word) (s : State) : (accept w s).tree = s.tree := rfl
@[simp] theorem accept_draws (w : Word) (s : State) : (accept w s).draws = s.draws := rfl
@[simp] theorem accept_turns (w : Word) (s : State) : (accept w s).turns = s.turns := rfl
@[simp] theorem accept_response (w : Word) (s : State) : (accept w s).response = s.response := rfl

@[simp] theorem writeStatus_params (v : Word) (s : State) : (writeStatus v s).params = s.params := rfl
@[simp] theorem writeStatus_ie (v : Word) (s : State) : (writeStatus v s).ie = s.ie := rfl
@[simp] theorem writeStatus_busy (v : Word) (s : State) : (writeStatus v s).busy = s.busy := rfl
@[simp] theorem writeStatus_done (v : Word) (s : State) : (writeStatus v s).done = (s.done && !v.getLsbD 1) := rfl
@[simp] theorem writeStatus_err (v : Word) (s : State) : (writeStatus v s).err = (s.err && !v.getLsbD 2) := rfl
@[simp] theorem writeStatus_wovr (v : Word) (s : State) : (writeStatus v s).wovr = (s.wovr && !v.getLsbD 3) := rfl
@[simp] theorem writeStatus_ecode (v : Word) (s : State) : (writeStatus v s).ecode = s.ecode := rfl
@[simp] theorem writeStatus_cmd (v : Word) (s : State) : (writeStatus v s).cmd = s.cmd := rfl
@[simp] theorem writeStatus_x (v : Word) (s : State) : (writeStatus v s).x = s.x := rfl
@[simp] theorem writeStatus_ulo (v : Word) (s : State) : (writeStatus v s).ulo = s.ulo := rfl
@[simp] theorem writeStatus_uhi (v : Word) (s : State) : (writeStatus v s).uhi = s.uhi := rfl
@[simp] theorem writeStatus_res0 (v : Word) (s : State) : (writeStatus v s).res0 = s.res0 := rfl
@[simp] theorem writeStatus_res1 (v : Word) (s : State) : (writeStatus v s).res1 = s.res1 := rfl
@[simp] theorem writeStatus_obit (v : Word) (s : State) : (writeStatus v s).obit = s.obit := rfl
@[simp] theorem writeStatus_ipos (v : Word) (s : State) : (writeStatus v s).ipos = s.ipos := rfl
@[simp] theorem writeStatus_ilen (v : Word) (s : State) : (writeStatus v s).ilen = s.ilen := rfl
@[simp] theorem writeStatus_hist (v : Word) (s : State) : (writeStatus v s).hist = s.hist := rfl
@[simp] theorem writeStatus_obuf (v : Word) (s : State) : (writeStatus v s).obuf = s.obuf := rfl
@[simp] theorem writeStatus_ibuf (v : Word) (s : State) : (writeStatus v s).ibuf = s.ibuf := rfl
@[simp] theorem writeStatus_tree (v : Word) (s : State) : (writeStatus v s).tree = s.tree := rfl
@[simp] theorem writeStatus_draws (v : Word) (s : State) : (writeStatus v s).draws = s.draws := rfl
@[simp] theorem writeStatus_turns (v : Word) (s : State) : (writeStatus v s).turns = s.turns := rfl
@[simp] theorem writeStatus_response (v : Word) (s : State) : (writeStatus v s).response = s.response := rfl

@[simp] theorem takeTurn_params (s : State) : (takeTurn s).params = s.params := rfl
@[simp] theorem takeTurn_ie (s : State) : (takeTurn s).ie = s.ie := rfl
@[simp] theorem takeTurn_busy (s : State) : (takeTurn s).busy = s.busy := rfl
@[simp] theorem takeTurn_done (s : State) : (takeTurn s).done = s.done := rfl
@[simp] theorem takeTurn_err (s : State) : (takeTurn s).err = s.err := rfl
@[simp] theorem takeTurn_wovr (s : State) : (takeTurn s).wovr = s.wovr := rfl
@[simp] theorem takeTurn_ecode (s : State) : (takeTurn s).ecode = s.ecode := rfl
@[simp] theorem takeTurn_cmd (s : State) : (takeTurn s).cmd = s.cmd := rfl
@[simp] theorem takeTurn_x (s : State) : (takeTurn s).x = s.x := rfl
@[simp] theorem takeTurn_ulo (s : State) : (takeTurn s).ulo = s.ulo := rfl
@[simp] theorem takeTurn_uhi (s : State) : (takeTurn s).uhi = s.uhi := rfl
@[simp] theorem takeTurn_res0 (s : State) : (takeTurn s).res0 = s.res0 := rfl
@[simp] theorem takeTurn_res1 (s : State) : (takeTurn s).res1 = s.res1 := rfl
@[simp] theorem takeTurn_obit (s : State) : (takeTurn s).obit = s.obit := rfl
@[simp] theorem takeTurn_ipos (s : State) : (takeTurn s).ipos = s.ipos := rfl
@[simp] theorem takeTurn_ilen (s : State) : (takeTurn s).ilen = s.ilen := rfl
@[simp] theorem takeTurn_hist (s : State) : (takeTurn s).hist = s.hist := rfl
@[simp] theorem takeTurn_obuf (s : State) : (takeTurn s).obuf = s.obuf := rfl
@[simp] theorem takeTurn_ibuf (s : State) : (takeTurn s).ibuf = s.ibuf := rfl
@[simp] theorem takeTurn_tree (s : State) : (takeTurn s).tree = s.tree := rfl
@[simp] theorem takeTurn_draws (s : State) : (takeTurn s).draws = s.draws := rfl
@[simp] theorem takeTurn_turns (s : State) : (takeTurn s).turns = s.turns.tail := rfl
@[simp] theorem takeTurn_response (s : State) : (takeTurn s).response = s.response := rfl

@[simp] theorem respond_params (r : BusResponse) (s : State) : (respond r s).params = s.params := rfl
@[simp] theorem respond_ie (r : BusResponse) (s : State) : (respond r s).ie = s.ie := rfl
@[simp] theorem respond_busy (r : BusResponse) (s : State) : (respond r s).busy = s.busy := rfl
@[simp] theorem respond_done (r : BusResponse) (s : State) : (respond r s).done = s.done := rfl
@[simp] theorem respond_err (r : BusResponse) (s : State) : (respond r s).err = s.err := rfl
@[simp] theorem respond_wovr (r : BusResponse) (s : State) : (respond r s).wovr = s.wovr := rfl
@[simp] theorem respond_ecode (r : BusResponse) (s : State) : (respond r s).ecode = s.ecode := rfl
@[simp] theorem respond_cmd (r : BusResponse) (s : State) : (respond r s).cmd = s.cmd := rfl
@[simp] theorem respond_x (r : BusResponse) (s : State) : (respond r s).x = s.x := rfl
@[simp] theorem respond_ulo (r : BusResponse) (s : State) : (respond r s).ulo = s.ulo := rfl
@[simp] theorem respond_uhi (r : BusResponse) (s : State) : (respond r s).uhi = s.uhi := rfl
@[simp] theorem respond_res0 (r : BusResponse) (s : State) : (respond r s).res0 = s.res0 := rfl
@[simp] theorem respond_res1 (r : BusResponse) (s : State) : (respond r s).res1 = s.res1 := rfl
@[simp] theorem respond_obit (r : BusResponse) (s : State) : (respond r s).obit = s.obit := rfl
@[simp] theorem respond_ipos (r : BusResponse) (s : State) : (respond r s).ipos = s.ipos := rfl
@[simp] theorem respond_ilen (r : BusResponse) (s : State) : (respond r s).ilen = s.ilen := rfl
@[simp] theorem respond_hist (r : BusResponse) (s : State) : (respond r s).hist = s.hist := rfl
@[simp] theorem respond_obuf (r : BusResponse) (s : State) : (respond r s).obuf = s.obuf := rfl
@[simp] theorem respond_ibuf (r : BusResponse) (s : State) : (respond r s).ibuf = s.ibuf := rfl
@[simp] theorem respond_tree (r : BusResponse) (s : State) : (respond r s).tree = s.tree := rfl
@[simp] theorem respond_draws (r : BusResponse) (s : State) : (respond r s).draws = s.draws := rfl
@[simp] theorem respond_turns (r : BusResponse) (s : State) : (respond r s).turns = s.turns := rfl
@[simp] theorem respond_response (r : BusResponse) (s : State) : (respond r s).response = r := rfl

@[simp] theorem finishRead_params (v : Word) (s : State) : (finishRead v s).params = s.params := rfl
@[simp] theorem finishRead_ie (v : Word) (s : State) : (finishRead v s).ie = s.ie := rfl
@[simp] theorem finishRead_busy (v : Word) (s : State) : (finishRead v s).busy = s.busy := rfl
@[simp] theorem finishRead_done (v : Word) (s : State) : (finishRead v s).done = s.done := rfl
@[simp] theorem finishRead_err (v : Word) (s : State) : (finishRead v s).err = s.err := rfl
@[simp] theorem finishRead_wovr (v : Word) (s : State) : (finishRead v s).wovr = s.wovr := rfl
@[simp] theorem finishRead_ecode (v : Word) (s : State) : (finishRead v s).ecode = s.ecode := rfl
@[simp] theorem finishRead_cmd (v : Word) (s : State) : (finishRead v s).cmd = s.cmd := rfl
@[simp] theorem finishRead_x (v : Word) (s : State) : (finishRead v s).x = s.x := rfl
@[simp] theorem finishRead_ulo (v : Word) (s : State) : (finishRead v s).ulo = s.ulo := rfl
@[simp] theorem finishRead_uhi (v : Word) (s : State) : (finishRead v s).uhi = s.uhi := rfl
@[simp] theorem finishRead_res0 (v : Word) (s : State) : (finishRead v s).res0 = s.res0 := rfl
@[simp] theorem finishRead_res1 (v : Word) (s : State) : (finishRead v s).res1 = s.res1 := rfl
@[simp] theorem finishRead_obit (v : Word) (s : State) : (finishRead v s).obit = s.obit := rfl
@[simp] theorem finishRead_ipos (v : Word) (s : State) : (finishRead v s).ipos = s.ipos := rfl
@[simp] theorem finishRead_ilen (v : Word) (s : State) : (finishRead v s).ilen = s.ilen := rfl
@[simp] theorem finishRead_hist (v : Word) (s : State) : (finishRead v s).hist = s.hist := rfl
@[simp] theorem finishRead_obuf (v : Word) (s : State) : (finishRead v s).obuf = s.obuf := rfl
@[simp] theorem finishRead_ibuf (v : Word) (s : State) : (finishRead v s).ibuf = s.ibuf := rfl
@[simp] theorem finishRead_tree (v : Word) (s : State) : (finishRead v s).tree = s.tree := rfl
@[simp] theorem finishRead_draws (v : Word) (s : State) : (finishRead v s).draws = s.draws + 1 := rfl
@[simp] theorem finishRead_turns (v : Word) (s : State) : (finishRead v s).turns = s.turns := rfl
@[simp] theorem finishRead_response (v : Word) (s : State) : (finishRead v s).response = .data v := rfl

end Sys2Proof.Machine
end

