-- ==== Sys2Proof/Laws/Ops.lean ====
section
/-! SUPPORT. What each shared operation can do, said once: completion, the sink, the source view and the two commits, in
the terms of Safety. -/

namespace Sys2Proof.Machine

/-! ## Completion -/

@[simp] theorem complete_ok (s t : State) : complete s (.ok t) = .next (completeWith .ok t) := rfl

@[simp] theorem complete_error (s : State) (e : ErrCode) : complete s (.error e) = .next (completeWith e s) := rfl

/-- Completion always answers a next state: the commit's if none was raised, else the old one, completed. -/
theorem complete_cases {s t : State} {r : Except ErrCode State} (h : complete s r = .next t) :
    (∃ u, r = .ok u ∧ t = completeWith .ok u) ∨ (∃ e, r = .error e ∧ t = completeWith e s) := by
  cases r with
  | ok u => simp only [complete_ok, Host.Outcome.next.injEq] at h; exact Or.inl ⟨u, rfl, h.symm⟩
  | error e => simp only [complete_error, Host.Outcome.next.injEq] at h; exact Or.inr ⟨e, rfl, h.symm⟩

theorem failedWith_completeWith {e : ErrCode} (he : e ≠ .ok) (s : State) : FailedWith e s (completeWith e s) := by
  have : (e != ErrCode.ok) = true := by simp [he]
  simp [FailedWith, completeWith, this]

/-- A raised error completes with its code and changes nothing else. -/
theorem complete_failed {e : ErrCode} (he : e ≠ .ok) (s : State) :
    ∃ t, complete s (.error e) = .next t ∧ FailedWith e s t :=
  ⟨_, rfl, failedWith_completeWith he s⟩

/-- A command whose computation raises an error completes with that error. -/
theorem raises_of_error {i : Instr} {s : State} {e : ErrCode} {r : Except ErrCode State} (he : e ≠ .ok)
    (h : exec i s = complete s r) (hr : r = .error e) : Raises i s e := by
  obtain ⟨t, h1, h2⟩ := complete_failed he s
  exact ⟨t, by rw [h, hr]; exact h1, h2⟩

theorem completedOk_completeWith {s u : State} (h : u.err = s.err) : CompletedOk s (completeWith .ok u) := by
  simp [CompletedOk, h]

/-! ## The sink -/

/-- The state an encoder's commit gives. -/
theorem encoderCommit_ok {a : BitStr} {s : State} (h : s.obit.toNat + a.length ≤ ocap s.params) :
    encoderCommit a s = .ok (setRes1 a.length
      { s with obuf := Memory.store s.obuf s.obit.toNat a, obit := reg (s.obit.toNat + a.length) }) := by
  simp only [encoderCommit, emit, if_neg (Nat.not_lt.2 h)]; rfl

theorem encoderCommit_error {a : BitStr} {s : State} (h : ocap s.params < s.obit.toNat + a.length) :
    encoderCommit a s = .error .sinkFull := by
  simp only [encoderCommit, emit, if_pos h]; rfl

/-- An encoder's commit either fits and stores, or is SINK_FULL. -/
theorem encoderCommit_cases (a : BitStr) (s : State) :
    (s.obit.toNat + a.length ≤ ocap s.params ∧
      encoderCommit a s = .ok (setRes1 a.length
        { s with obuf := Memory.store s.obuf s.obit.toNat a, obit := reg (s.obit.toNat + a.length) })) ∨
    (ocap s.params < s.obit.toNat + a.length ∧ encoderCommit a s = .error .sinkFull) := by
  rcases Nat.lt_or_ge (ocap s.params) (s.obit.toNat + a.length) with h | h
  · exact Or.inr ⟨h, encoderCommit_error h⟩
  · exact Or.inl ⟨h, encoderCommit_ok h⟩

@[simp] theorem length_unary (x : Nat) : (unary x).length = x + 1 := by simp [unary]

/-- The capacity check before the string is written out is Emit's own. -/
theorem unaryCommit_eq (x : Nat) (s : State) : unaryCommit x s = encoderCommit (unary x) s := by
  unfold unaryCommit
  split
  · rw [encoderCommit_error (by simpa using ‹_›)]
  · rfl

theorem ocap_lt {p : Config.Params} (h : p.wf) : ocap p < 2 ^ 64 := by
  have h1 := h.2.2.2.1
  have : (2 : Nat) ^ p.olog ≤ 2 ^ 23 := Nat.pow_le_pow_right (by omega) h1
  unfold ocap; omega

/-- What an encoder's commit does, in the terms of the claims. -/
theorem encoded_commit {a : BitStr} {s : State} (hw : s.params.wf) (h : Fits s a.length) :
    ∃ t, encoderCommit a s = .ok t ∧ Encoded a s (completeWith .ok t) := by
  have ho := ocap_lt hw
  have h' : s.obit.toNat + a.length ≤ ocap s.params := h
  refine ⟨_, encoderCommit_ok h', ?_, ?_, fun i hi => ?_, fun j hj => ?_, ?_, ?_⟩
  · simp only [completeWith_obit, setRes1_obit]
    exact toNat_reg_of_lt (by omega)
  · simp only [completeWith_res1, setRes1_res1]
    exact toNat_reg_of_lt (by omega)
  · simp only [completeWith_obuf, setRes1_obuf]
    rw [Memory.get?_store, if_pos (by omega), Nat.add_sub_cancel_left]
  · simp only [completeWith_obuf, setRes1_obuf]
    rw [Memory.get?_store, if_neg (by omega)]
  · exact completedOk_completeWith rfl
  · simp [completeWith, setRes1]

theorem encoded_complete {a : BitStr} {s : State} (hw : s.params.wf) (h : Fits s a.length) :
    ∃ t, complete s (encoderCommit a s) = .next t ∧ Encoded a s t := by
  obtain ⟨t, h1, h2⟩ := encoded_commit hw h
  exact ⟨_, by rw [h1]; rfl, h2⟩

/-- What an encoder wrote, read back bit by bit. -/
theorem writtenBits_of_encoded {a : BitStr} {s t : State} (h : Encoded a s t) : writtenBits s t = a := by
  obtain ⟨h1, _, h3, _⟩ := h
  apply List.ext_getElem
  · simp [writtenBits, h1]
  · intro i hi1 hi2
    simp only [writtenBits, List.getElem_map, List.getElem_range, obufBit, h3 i hi2]
    simp [List.getElem?_eq_getElem hi2]

/-- If an encoder ended OK, it encoded. -/
theorem encoded_of_ok {a : BitStr} {s t : State} (hw : s.params.wf) (h : complete s (encoderCommit a s) = .next t)
    (hok : t.ecode = .ok) : Encoded a s t := by
  rcases encoderCommit_cases a s with ⟨hf, _⟩ | ⟨_, he⟩
  · obtain ⟨t', h1, h2⟩ := encoded_complete (a := a) (s := s) hw hf
    rw [h, Host.Outcome.next.injEq] at h1
    exact h1 ▸ h2
  · rw [he, complete_error, Host.Outcome.next.injEq] at h
    subst h; simp at hok

/-! ## The source -/

@[simp] theorem length_sourceView (s : State) : (sourceView s).length = sourceEnd s - s.ipos.toNat := by
  simp [sourceView]

theorem source_eq {s : State} {a : BitStr} (h : sourceView s = a) : source s = { bits := a, q := 0 } := by
  simp [source, h]

/-- What a decoder's commit does, in the terms of the claims, when it consumed a of the view. -/
theorem decoded_commit {v q : Nat} {a rest : BitStr} {s : State} {src : Src} (h : sourceView s = a ++ rest)
    (hq : a.length = q) (hs : src.q = q) (hv : v < 2 ^ 64) :
    Decoded v q s (completeWith .ok (decoderCommit v src s)) := by
  have hl : a.length + rest.length = sourceEnd s - s.ipos.toNat := by
    rw [← length_sourceView, h, List.length_append]
  have hend : sourceEnd s ≤ s.ilen.toNat := Nat.min_le_left _ _
  have h64 : s.ilen.toNat < 2 ^ 64 := s.ilen.isLt
  have hi : s.ipos.toNat < 2 ^ 64 := s.ipos.isLt
  subst hq
  refine ⟨?_, ?_, ?_, ?_, ?_⟩
  · simp only [decoderCommit, completeWith_ipos, setRes1_ipos, setRes0_ipos, advanceIpos_ipos, hs]
    exact toNat_reg_of_lt (by omega)
  · simp only [decoderCommit, completeWith_res0, setRes1_res0, setRes0_res0]
    exact toNat_reg_of_lt hv
  · simp only [decoderCommit, completeWith_res1, setRes1_res1, hs]
    exact toNat_reg_of_lt (by omega)
  · exact completedOk_completeWith rfl
  · simp [completeWith, decoderCommit, setRes0, setRes1, advanceIpos]

/-- What any parse of the source view consumed. -/
theorem consumed_of_source {s : State} {src : Src} (h : Consumes (source s) src) :
    ∃ a, sourceView s = a ++ src.bits ∧ src.q = a.length := by
  obtain ⟨a, h1, h2⟩ := h
  exact ⟨a, h1, by simpa [source] using h2⟩

/-! ## The universe operand -/

theorem checkUniverse_ok {s : State} (h : s.ulo.toNat ≤ s.uhi.toNat) : checkUniverse s = .ok () :=
  if_neg (Nat.not_lt.2 h)

theorem checkUniverse_error {s : State} (h : s.uhi.toNat < s.ulo.toNat) :
    checkUniverse s = .error .emptyUniverse := if_pos h

theorem upro_ok {s : State} {r : Nat} (h : InUniverse s r) : upro s = .ok r := by
  rw [upro, if_pos ⟨h.1, h.2.1⟩, h.2.2]

theorem upro_cases {s : State} {r : Nat} (h : upro s = .ok r) : InUniverse s r := by
  unfold upro at h
  split at h
  · cases h; exact ⟨‹_ ∧ _›.1, ‹_ ∧ _›.2, rfl⟩
  · cases h

theorem checkUniverse_of_in {s : State} {r : Nat} (h : InUniverse s r) : checkUniverse s = .ok () :=
  checkUniverse_ok (h.1.trans h.2.1)

theorem uepi_ok {s : State} {r : Nat} (h : s.ulo.toNat + r ≤ s.uhi.toNat) : uepi s r = .ok (s.ulo.toNat + r) :=
  if_neg (Nat.not_lt.2 h)

theorem uepi_error {s : State} {r : Nat} (h : s.uhi.toNat < s.ulo.toNat + r) : uepi s r = .error .range :=
  if_pos h

theorem checkWord_ok {v : Nat} (h : v < 2 ^ 64) : checkWord v = .ok () := if_neg (Nat.not_le.2 h)

theorem checkWord_error {v : Nat} (h : 2 ^ 64 ≤ v) : checkWord v = .error .overflow := if_pos h

theorem checkWord_cases {v : Nat} {u : Unit} (h : checkWord v = .ok u) : v < 2 ^ 64 := by
  unfold checkWord at h
  split at h
  · cases h
  · omega

@[simp] theorem checkK_true : checkK true = .ok () := rfl

@[simp] theorem checkK_false : checkK false = .error .param := rfl

theorem binWidthOk_iff (n : Byte) : binWidthOk n = true ↔ n.toNat ≤ 64 := by simp [binWidthOk]

theorem riceExpOk_iff (p : Byte) : riceExpOk p = true ↔ p.toNat ≤ 63 := by simp [riceExpOk]

theorem vbBlockOk_iff (b : Byte) : vbBlockOk b = true ↔ 1 ≤ b.toNat ∧ b.toNat ≤ 63 := by simp [vbBlockOk]

end Sys2Proof.Machine
end

