-- ==== Sys2Proof/Laws/Tree.lean ====
section
/-! SUPPORT. Trees: leaves and nodes, paths and codewords, the walk, and the serialized form with its parsers. -/

namespace Sys2Proof.Machine

/-! ## Leaves and nodes -/

theorem Tree.alpha_pos (t : Tree) : 1 ≤ t.alpha.length := by
  induction t with
  | leaf c => simp [Tree.alpha]
  | node l r ihl ihr => simp only [Tree.alpha, List.length_append]; omega

/-- A tree of k leaves has 2k − 1 nodes (10_state R50). -/
theorem Tree.nodes_eq (t : Tree) : t.nodes = 2 * t.alpha.length - 1 := by
  induction t with
  | leaf c => simp [Tree.alpha, Tree.nodes]
  | node l r ihl ihr =>
    have := l.alpha_pos
    have := r.alpha_pos
    simp only [Tree.alpha, Tree.nodes, List.length_append]; omega

theorem Tree.length_topo (t : Tree) : t.topo.length = t.nodes := by
  induction t with
  | leaf c => rfl
  | node l r ihl ihr => simp [Tree.topo, Tree.nodes, ihl, ihr]

theorem Tree.minChar_mem (t : Tree) : t.minChar ∈ t.alpha := by
  induction t with
  | leaf c => simp [Tree.alpha, Tree.minChar]
  | node l r ihl ihr =>
    simp only [Tree.alpha, Tree.minChar, List.mem_append]
    rcases Nat.le_total l.minChar r.minChar with h | h
    · rw [Nat.min_eq_left h]; exact Or.inl ihl
    · rw [Nat.min_eq_right h]; exact Or.inr ihr

theorem Tree.maxChar_mem (t : Tree) : t.maxChar ∈ t.alpha := by
  induction t with
  | leaf c => simp [Tree.alpha, Tree.maxChar]
  | node l r ihl ihr =>
    simp only [Tree.alpha, Tree.maxChar, List.mem_append]
    rcases Nat.le_total l.maxChar r.maxChar with h | h
    · rw [Nat.max_eq_right h]; exact Or.inr ihr
    · rw [Nat.max_eq_left h]; exact Or.inl ihl

theorem Tree.minChar_le {t : Tree} {c : Nat} (h : c ∈ t.alpha) : t.minChar ≤ c := by
  induction t with
  | leaf d => simp [Tree.alpha] at h; simp [Tree.minChar, h]
  | node l r ihl ihr =>
    simp only [Tree.alpha, List.mem_append] at h
    simp only [Tree.minChar]
    rcases h with h | h
    · exact (Nat.min_le_left _ _).trans (ihl h)
    · exact (Nat.min_le_right _ _).trans (ihr h)

theorem Tree.le_maxChar {t : Tree} {c : Nat} (h : c ∈ t.alpha) : c ≤ t.maxChar := by
  induction t with
  | leaf d => simp [Tree.alpha] at h; simp [Tree.maxChar, h]
  | node l r ihl ihr =>
    simp only [Tree.alpha, List.mem_append] at h
    simp only [Tree.maxChar]
    rcases h with h | h
    · exact (ihl h).trans (Nat.le_max_left _ _)
    · exact (ihr h).trans (Nat.le_max_right _ _)

/-! ## Paths -/

theorem Tree.mem_of_follow {t : Tree} {a : BitStr} {c : Nat} (h : t.follow a = some c) : c ∈ t.alpha := by
  induction t generalizing a with
  | leaf d =>
    cases a with
    | nil => simp [Tree.follow] at h; simp [Tree.alpha, h]
    | cons b a => simp [Tree.follow] at h
  | node l r ihl ihr =>
    cases a with
    | nil => simp [Tree.follow] at h
    | cons b a =>
      simp only [Tree.follow] at h
      simp only [Tree.alpha, List.mem_append]
      cases b
      · exact Or.inl (ihl (by simpa using h))
      · exact Or.inr (ihr (by simpa using h))

theorem Tree.length_follow {t : Tree} {a : BitStr} {c : Nat} (h : t.follow a = some c) : a.length ≤ t.depth := by
  induction t generalizing a with
  | leaf d =>
    cases a with
    | nil => simp
    | cons b a => simp [Tree.follow] at h
  | node l r ihl ihr =>
    cases a with
    | nil => simp
    | cons b a =>
      simp only [Tree.follow] at h
      simp only [Tree.depth, List.length_cons]
      cases b
      · have := ihl (a := a) (by simpa using h); omega
      · have := ihr (a := a) (by simpa using h); omega

/-- codebits finds a path to the character's leaf, and finds one exactly when the character is in the tree. -/
theorem Tree.codebits_cases (c : Nat) (t : Tree) :
    (∃ a, t.codebits c = some a ∧ t.follow a = some c ∧ c ∈ t.alpha) ∨ (t.codebits c = none ∧ c ∉ t.alpha) := by
  induction t with
  | leaf d =>
    by_cases h : d = c
    · left; exact ⟨[], by simp [Tree.codebits, h], by simp [Tree.follow, h], by simp [Tree.alpha, h]⟩
    · right; exact ⟨by simp [Tree.codebits, h], by simp [Tree.alpha, Ne.symm h]⟩
  | node l r ihl ihr =>
    simp only [Tree.codebits, Tree.alpha, List.mem_append]
    rcases ihl with ⟨a, h1, h2, h3⟩ | ⟨h1, h2⟩
    · left; exact ⟨false :: a, by simp [h1], by simp [Tree.follow, h2], Or.inl h3⟩
    · rcases ihr with ⟨a, h3, h4, h5⟩ | ⟨h3, h4⟩
      · left; exact ⟨true :: a, by simp [h1, h3], by simp [Tree.follow, h4], Or.inr h5⟩
      · right; exact ⟨by simp [h1, h3], by tauto⟩

/-- In a tree of distinct characters there is one path to each. -/
theorem Tree.follow_unique {t : Tree} (hn : t.alpha.Nodup) {a b : BitStr} {c : Nat} (ha : t.follow a = some c)
    (hb : t.follow b = some c) : a = b := by
  induction t generalizing a b with
  | leaf d =>
    cases a <;> cases b <;> simp_all [Tree.follow]
  | node l r ihl ihr =>
    simp only [Tree.alpha, List.nodup_append] at hn
    obtain ⟨hl, hr, hd⟩ := hn
    cases a with
    | nil => simp [Tree.follow] at ha
    | cons x a =>
      cases b with
      | nil => simp [Tree.follow] at hb
      | cons y b =>
        simp only [Tree.follow] at ha hb
        cases x <;> cases y <;> simp only [Bool.false_eq_true, if_false, if_true] at ha hb
        · rw [ihl hl ha hb]
        · exact absurd rfl (hd c (Tree.mem_of_follow ha) c (Tree.mem_of_follow hb))
        · exact absurd rfl (hd c (Tree.mem_of_follow hb) c (Tree.mem_of_follow ha))
        · rw [ihr hr ha hb]

theorem Tree.codebits_of_follow {t : Tree} (hn : t.alpha.Nodup) {a : BitStr} {c : Nat} (h : t.follow a = some c) :
    t.codebits c = some a := by
  rcases t.codebits_cases c with ⟨b, h1, h2, _⟩ | ⟨_, h2⟩
  · rw [h1, Tree.follow_unique hn h h2]
  · exact absurd (Tree.mem_of_follow h) h2

/-- The walk follows the path the source begins with. -/
theorem Tree.walk_append {t : Tree} {a : BitStr} {c : Nat} (h : t.follow a = some c) (rest : BitStr) (q : Nat) :
    t.walk { bits := a ++ rest, q := q } = .ok (c, { bits := rest, q := q + a.length }) := by
  induction t generalizing a q with
  | leaf d =>
    cases a with
    | nil => simp [Tree.follow] at h; simp [Tree.walk, h]
    | cons b a => simp [Tree.follow] at h
  | node l r ihl ihr =>
    cases a with
    | nil => simp [Tree.follow] at h
    | cons b a =>
      simp only [Tree.follow] at h
      simp only [Tree.walk, List.cons_append, get_cons, Except.ok_bind, List.length_cons]
      cases b
      · simp only [Bool.false_eq_true, if_false] at h ⊢
        rw [ihl h, Nat.add_assoc, Nat.add_comm 1]
      · simp only [if_true] at h ⊢
        rw [ihr h, Nat.add_assoc, Nat.add_comm 1]

theorem Tree.walk_consumes {t : Tree} {src src' : Src} {c : Nat} (h : t.walk src = .ok (c, src')) :
    Consumes src src' ∧ c ∈ t.alpha := by
  induction t generalizing src with
  | leaf d => cases h; exact ⟨.refl _, by simp [Tree.alpha]⟩
  | node l r ihl ihr =>
    obtain ⟨⟨b, s1⟩, h1, h2⟩ := Except.bind_eq_ok.1 h
    simp only [Tree.alpha, List.mem_append]
    cases b
    · have := ihl (by simpa using h2)
      exact ⟨(get_consumes h1).trans this.1, Or.inl this.2⟩
    · have := ihr (by simpa using h2)
      exact ⟨(get_consumes h1).trans this.1, Or.inr this.2⟩

/-! ## Shapes and the topology parser -/

/-- The shape of a tree: its topology without its characters. -/
def Tree.shape : Tree → Shape
  | .leaf _ => .leaf
  | .node l r => .node l.shape r.shape

/-- The number of nodes of a shape. -/
def Shape.nodes : Shape → Nat
  | .leaf => 1
  | .node l r => l.nodes + r.nodes + 1

theorem Tree.nodes_shape (t : Tree) : t.shape.nodes = t.nodes := by
  induction t with
  | leaf c => rfl
  | node l r ihl ihr => simp [Tree.shape, Shape.nodes, Tree.nodes, ihl, ihr]

theorem Tree.depth_lt_nodes (t : Tree) : t.depth < t.nodes := by
  induction t with
  | leaf c => simp [Tree.depth, Tree.nodes]
  | node l r ihl ihr => simp only [Tree.depth, Tree.nodes]; omega

/-- The topology parser reads back a topology (45 R330, R334). -/
theorem pTopo_append {cap : Nat} (t : Tree) (deep n : Nat) (hn : n + t.nodes ≤ cap) (hd : t.depth < deep)
    (rest : BitStr) (q : Nat) :
    pTopo cap deep { bits := t.topo ++ rest, q := q } n =
      .ok (t.shape, { bits := rest, q := q + t.nodes }, n + t.nodes) := by
  induction t generalizing deep n q rest with
  | leaf c =>
    obtain ⟨d, rfl⟩ : ∃ d, deep = d + 1 := ⟨deep - 1, by omega⟩
    simp only [Tree.nodes] at hn
    simp [pTopo, Tree.topo, Tree.shape, Tree.nodes, Nat.not_lt.2 hn]
  | node l r ihl ihr =>
    obtain ⟨d, rfl⟩ : ∃ d, deep = d + 1 := ⟨deep - 1, by omega⟩
    simp only [Tree.nodes] at hn
    simp only [Tree.depth] at hd
    have h1 : ¬ cap < n + 1 := by omega
    simp only [pTopo, Tree.topo, List.cons_append, List.append_assoc, get_cons, Except.ok_bind, if_neg h1,
      Bool.false_eq_true, if_false]
    rw [ihl d (n + 1) (by omega) (by omega)]
    simp only [Except.ok_bind]
    rw [ihr d (n + 1 + l.nodes) (by omega) (by omega)]
    have e1 : q + 1 + l.nodes + r.nodes = q + (l.nodes + r.nodes + 1) := by omega
    have e2 : n + 1 + l.nodes + r.nodes = n + (l.nodes + r.nodes + 1) := by omega
    simp only [Except.ok_bind, Tree.shape, Tree.nodes, e1, e2]

/-- What the topology parser gives: a shape of at most cap nodes, one bit each (45 R334). -/
theorem pTopo_ok {cap deep n m : Nat} {src src' : Src} {sh : Shape} (h : pTopo cap deep src n = .ok (sh, src', m)) :
    Consumes src src' ∧ m = n + sh.nodes ∧ m ≤ cap := by
  induction deep generalizing src src' n m sh with
  | zero => cases h
  | succ d ih =>
    obtain ⟨⟨b, s1⟩, h1, h2⟩ := Except.bind_eq_ok.1 h
    dsimp only at h2
    split at h2
    · cases h2
    · rename_i hc
      split at h2
      · cases h2
        exact ⟨get_consumes h1, rfl, by omega⟩
      · obtain ⟨⟨l, s2, n2⟩, h3, h4⟩ := Except.bind_eq_ok.1 h2
        obtain ⟨⟨r, s3, n3⟩, h5, h6⟩ := Except.bind_eq_ok.1 h4
        cases h6
        dsimp only at h5
        obtain ⟨c1, e1, _⟩ := ih h3
        obtain ⟨c2, e2, b2⟩ := ih h5
        exact ⟨((get_consumes h1).trans c1).trans c2, by simp only [Shape.nodes]; omega, b2⟩

/-- Any more nesting allowance changes nothing: NMAX + 1 is never used up before MALFORMED (45 R334). -/
theorem pTopo_deep {cap : Nat} (d e n : Nat) (hd : cap + 1 ≤ n + d) (he : cap + 1 ≤ n + e) (hn : n ≤ cap) (src : Src) :
    pTopo cap d src n = pTopo cap e src n := by
  induction d generalizing e n src with
  | zero => omega
  | succ d ih =>
    obtain ⟨e, rfl⟩ : ∃ k, e = k + 1 := ⟨e - 1, by omega⟩
    simp only [pTopo]
    cases hg : get src with
    | error x => rfl
    | ok p =>
      obtain ⟨b, s1⟩ := p
      simp only [Except.ok_bind]
      split
      · rfl
      · rename_i hc
        split
        · rfl
        · by_cases hn2 : n + 1 ≤ cap
          · rw [ih e (n + 1) (by omega) (by omega) hn2 s1]
            cases hp : pTopo cap e s1 (n + 1) with
            | error x => rfl
            | ok p =>
              obtain ⟨l, s2, m⟩ := p
              obtain ⟨_, h1, h2⟩ := pTopo_ok hp
              simp only [Except.ok_bind]
              rw [ih e m (by omega) (by omega) h2 s2]
          · omega

/-! ## The labelling -/

theorem labelLeaves_append {chars lo hi e : Nat} (t : Tree) (seen : List Nat)
    (hc : ∀ c ∈ t.alpha, lo ≤ c ∧ c ≤ hi ∧ c < chars ∧ c - lo < 2 ^ e) (hn : t.alpha.Nodup)
    (hs : ∀ c ∈ t.alpha, c ∉ seen) (rest : BitStr) (q : Nat) :
    labelLeaves chars lo hi e t.shape { bits := (t.alpha.flatMap fun c => bin (c - lo) e) ++ rest, q := q } seen =
      .ok (t, { bits := rest, q := q + t.alpha.length * e }, t.alpha.reverse ++ seen) := by
  induction t generalizing seen q rest with
  | leaf c =>
    obtain ⟨h1, h2, h3, h4⟩ := hc c (by simp [Tree.alpha])
    have h5 := hs c (by simp [Tree.alpha])
    have h6 : lo + (c - lo) = c := by omega
    have h7 : ¬ (hi < c ∨ chars ≤ c) := by omega
    simp only [labelLeaves, Tree.shape, Tree.alpha, List.flatMap_cons, List.flatMap_nil, List.append_nil]
    rw [getN_append (length_bin _ _)]
    simp only [Except.ok_bind, val_bin, Nat.mod_eq_of_lt h4, h6, if_neg h7, if_neg h5]
    simp
  | node l r ihl ihr =>
    simp only [Tree.alpha, List.mem_append] at hc hs
    simp only [Tree.alpha, List.nodup_append] at hn
    obtain ⟨hl, hr, hd⟩ := hn
    simp only [labelLeaves, Tree.shape, Tree.alpha, List.flatMap_append, List.append_assoc]
    rw [ihl seen (fun c h => hc c (Or.inl h)) hl (fun c h => hs c (Or.inl h))]
    simp only [Except.ok_bind]
    rw [ihr _ (fun c h => hc c (Or.inr h)) hr]
    · simp only [Except.ok_bind, List.reverse_append, List.append_assoc, List.length_append, Nat.add_mul,
        Nat.add_assoc]
    · intro c h
      simp only [List.mem_append, List.mem_reverse, not_or]
      exact ⟨fun h' => hd c h' c h rfl, hs c (Or.inr h)⟩

/-- What the labelling gives: a tree of that shape, its characters distinct, unseen before and below 2^CW
(45 R335). -/
theorem labelLeaves_ok {chars lo hi e : Nat} {sh : Shape} {src src' : Src} {seen seen' : List Nat} {t : Tree}
    (h : labelLeaves chars lo hi e sh src seen = .ok (t, src', seen')) :
    Consumes src src' ∧ t.shape = sh ∧ (∀ c ∈ t.alpha, c < chars ∧ c ∉ seen) ∧ t.alpha.Nodup ∧
      (∀ c, c ∈ seen' ↔ c ∈ t.alpha ∨ c ∈ seen) := by
  induction sh generalizing src src' seen seen' t with
  | leaf =>
    obtain ⟨⟨v, s1⟩, h1, h2⟩ := Except.bind_eq_ok.1 h
    dsimp only at h2
    split at h2
    · cases h2
    · split at h2
      · cases h2
      · rename_i hr hs
        cases h2
        refine ⟨getN_consumes h1, rfl, ?_, by simp [Tree.alpha], by simp [Tree.alpha]⟩
        simp only [Tree.alpha, List.mem_singleton, forall_eq]
        exact ⟨by omega, hs⟩
  | node l r ihl ihr =>
    obtain ⟨⟨tl, s1, n1⟩, h1, h2⟩ := Except.bind_eq_ok.1 h
    obtain ⟨⟨tr, s2, n2⟩, h3, h4⟩ := Except.bind_eq_ok.1 h2
    cases h4
    obtain ⟨c1, e1, a1, d1, m1⟩ := ihl h1
    obtain ⟨c2, e2, a2, d2, m2⟩ := ihr h3
    refine ⟨c1.trans c2, by simp [Tree.shape, e1, e2], ?_, ?_, ?_⟩
    · intro c hc
      simp only [Tree.alpha, List.mem_append] at hc
      rcases hc with hc | hc
      · exact a1 c hc
      · exact ⟨(a2 c hc).1, fun hs => (a2 c hc).2 ((m1 c).2 (Or.inr hs))⟩
    · simp only [Tree.alpha, List.nodup_append]
      refine ⟨d1, d2, fun c hc d hd hcd => ?_⟩
      subst hcd
      exact (a2 c hd).2 ((m1 c).2 (Or.inl hc))
    · intro c
      simp only [Tree.alpha, List.mem_append, m2, m1]
      tauto

/-- The alphabet parser reads back a low and a high end and the characters of a tree between them (45 R335). -/
theorem pAlpha_append {chars lo hi : Nat} (t : Tree) (hb : ∀ c ∈ t.alpha, lo ≤ c ∧ c ≤ hi)
    (hc : ∀ c ∈ t.alpha, c < chars) (hx : chars ≤ umax) (h64 : hi ≤ umax) (hd : hi - lo + 1 < 2 ^ 64) (hn : t.alpha.Nodup) (rest : BitStr)
    (q : Nat) :
    pAlpha chars t.shape
        { bits := delta (lo + 1) ++ (delta (hi - lo + 1) ++
            ((t.alpha.flatMap fun c => bin (c - lo) (entropy lo hi)) ++ rest)), q := q } =
      .ok (t, { bits := rest, q := q + (delta (lo + 1)).length + (delta (hi - lo + 1)).length +
        t.alpha.length * entropy lo hi }) := by
  have h1 := hb _ t.minChar_mem
  have he := (isEntropy_entropy lo hi).2.1
  have h2 : ¬ umax < lo + (hi - lo) := by omega
  have h0 := hc _ t.minChar_mem
  have h3 : lo + 1 < 2 ^ 64 := by simp only [umax] at hx; omega
  rw [pAlpha, pDelta_delta (by omega)]
  simp only [Except.ok_bind, checkWord_ok h3]
  rw [pDelta_delta (by omega)]
  simp only [Except.ok_bind, checkWord_ok hd, Nat.add_sub_cancel, if_neg h2]
  rw [show lo + (hi - lo) = hi by omega, labelLeaves_append t []]
  · rfl
  · intro c h
    have h4 := hb c h
    exact ⟨h4.1, h4.2, hc c h, by omega⟩
  · exact hn
  · simp

theorem pAlpha_ok {chars : Nat} {sh : Shape} {src src' : Src} {t : Tree} (h : pAlpha chars sh src = .ok (t, src')) :
    Consumes src src' ∧ t.shape = sh ∧ (∀ c ∈ t.alpha, c < chars) ∧ t.alpha.Nodup := by
  obtain ⟨⟨d1, s1⟩, h1, h2⟩ := Except.bind_eq_ok.1 h
  obtain ⟨_, _, h3⟩ := Except.bind_eq_ok.1 h2
  obtain ⟨⟨d2, s2⟩, h4, h5⟩ := Except.bind_eq_ok.1 h3
  obtain ⟨_, _, h6⟩ := Except.bind_eq_ok.1 h5
  dsimp only at h6
  split at h6
  · cases h6
  · obtain ⟨⟨u, s3, n3⟩, h7, h8⟩ := Except.bind_eq_ok.1 h6
    cases h8
    obtain ⟨c, e, a, d, _⟩ := labelLeaves_ok h7
    exact ⟨((pDelta_consumes h1).trans (pDelta_consumes h4)).trans c, e, fun c hc => (a c hc).1, d⟩

end Sys2Proof.Machine
end

