-- ==== Sys2Proof/Laws/Build.lean ====
section
/-! SUPPORT. The build: the queue stays in priority order, a build over leaves is a tree of exactly those leaves;
counts ordered alike make the same tree; the merge loop goes as the relation of Safety says. -/

namespace Sys2Proof.Machine

/-! ## The queue -/

/-- The priority order, in full (44 R294). -/
theorem Entry.before_iff (a b : Entry) : a.before b = true ↔
    a.freq < b.freq ∨ (a.freq = b.freq ∧ (a.kind < b.kind ∨ (a.kind = b.kind ∧ a.tb < b.tb))) := by
  simp [Entry.before]

/-- No entry comes before an earlier one. -/
def Sorted (q : List Entry) : Prop := q.Pairwise fun a b => ¬ b.before a = true

theorem push_perm (e : Entry) (q : List Entry) : (push e q).Perm (e :: q) := by
  induction q with
  | nil => exact .refl _
  | cons h q ih =>
    simp only [push]
    split
    · exact .refl _
    · exact (ih.cons h).trans (.swap _ _ _)

theorem push_sorted (e : Entry) {q : List Entry} (hq : Sorted q) : Sorted (push e q) := by
  induction q with
  | nil => exact List.pairwise_singleton _ _
  | cons h q ih =>
    obtain ⟨h1, h2⟩ := List.pairwise_cons.1 hq
    simp only [push]
    split
    · rename_i hb
      refine List.pairwise_cons.2 ⟨fun x hx => ?_, hq⟩
      rcases List.mem_cons.1 hx with rfl | hx
      · simp only [Entry.before_iff] at *; omega
      · have := h1 x hx
        simp only [Entry.before_iff] at *; omega
    · rename_i hb
      refine List.pairwise_cons.2 ⟨fun x hx => ?_, ih h2⟩
      rcases List.mem_cons.1 ((push_perm e q).mem_iff.1 hx) with rfl | hx
      · exact hb
      · exact h1 x hx

theorem foldr_push_perm (es : List Entry) : (es.foldr push []).Perm es := by
  induction es with
  | nil => exact .refl _
  | cons e es ih => exact (push_perm e _).trans (ih.cons e)

theorem foldr_push_sorted (es : List Entry) : Sorted (es.foldr push []) := by
  induction es with
  | nil => exact List.Pairwise.nil
  | cons e es ih => exact push_sorted e ih

/-! ## The merge loop -/

/-- The characters of the queue's trees. -/
def queueChars (q : List Entry) : List Nat := q.flatMap fun e => e.tree.alpha

/-- The merge loop merges a nonempty queue into one tree of all its leaves (44 R295). -/
theorem mergeLoop_some (rounds s : Nat) (q : List Entry) (hq : q ≠ []) (hr : q.length ≤ rounds + 1) :
    ∃ t, mergeLoop rounds s q = some t ∧ t.alpha.Perm (queueChars q) := by
  induction rounds generalizing s q with
  | zero =>
    match q, hq with
    | [e], _ => exact ⟨e.tree, rfl, by simp [queueChars]⟩
    | r :: l :: q, _ => simp at hr
  | succ n ih =>
    match q, hq with
    | [e], _ => exact ⟨e.tree, rfl, by simp [queueChars]⟩
    | r :: l :: q, _ =>
      have hp := push_perm (innerEntry s l r) q
      have hlen := hp.length_eq
      simp only [List.length_cons] at hlen hr
      obtain ⟨t, h1, h2⟩ := ih (s + 1) (push (innerEntry s l r) q)
        (fun h => by rw [h] at hlen; simp at hlen) (by omega)
      refine ⟨t, h1, h2.trans ((hp.flatMap_right _).trans ?_)⟩
      simp only [queueChars, List.flatMap_cons, innerEntry, Tree.alpha]
      rw [← List.append_assoc]
      exact List.perm_append_comm.append_right _

/-- A build over leaves is a tree of exactly those characters; over no leaves it is none (44 R293, R295). -/
theorem buildTree_some {leaves : List (Nat × Nat)} (h : leaves ≠ []) :
    ∃ t, buildTree leaves = some t ∧ t.alpha.Perm (leaves.map Prod.fst) := by
  have hp := foldr_push_perm (leaves.map leafEntry)
  obtain ⟨t, h1, h2⟩ := mergeLoop_some ((leaves.map leafEntry).foldr push []).length 0
    ((leaves.map leafEntry).foldr push [])
    (fun he => h (by rw [he] at hp; simpa using hp.symm.eq_nil)) (Nat.le_succ _)
  refine ⟨t, h1, h2.trans ((hp.flatMap_right _).trans ?_)⟩
  have : ∀ ls : List (Nat × Nat), (ls.map leafEntry).flatMap (fun e => e.tree.alpha) = ls.map Prod.fst := by
    intro ls
    induction ls with
    | nil => rfl
    | cons e ls ih => simp [leafEntry, Tree.alpha] at ih ⊢; exact ih
  rw [this]

theorem buildTree_nil : buildTree [] = none := rfl

/-! ## What each merge keeps -/

/-- A property of queues that each merge keeps holds of the tree the loop ends with. -/
theorem mergeLoop_keeps {P : List Entry → Prop}
    (hP : ∀ s r l q, P (r :: l :: q) → P (push (innerEntry s l r) q)) {rounds s : Nat} {q : List Entry} {t : Tree}
    (h : mergeLoop rounds s q = some t) (hq : P q) : ∃ e, P [e] ∧ e.tree = t := by
  induction rounds generalizing s q with
  | zero =>
    match q, h with
    | [e], h => exact ⟨e, hq, by simpa [mergeLoop] using h⟩
  | succ n ih =>
    match q, h with
    | [e], h => exact ⟨e, hq, by simpa [mergeLoop] using h⟩
    | r :: l :: q, h => exact ih h (hP s r l q hq)

/-! ## The order of the counts -/

/-- The two counts order all disjoint sets of characters in P alike. -/
def OrderAlike (P : Nat → Prop) (f g : Nat → Nat) : Prop :=
  ∀ a b : List Nat, (a ++ b).Nodup → (∀ c ∈ a ++ b, P c) → ((a.map f).sum < (b.map f).sum ↔ (a.map g).sum < (b.map g).sum)

/-- An entry's frequency, taken from counts of its tree's characters. -/
def Entry.reweigh (f : Nat → Nat) (e : Entry) : Entry := { e with freq := e.tree.weight f }

theorem Tree.weight_eq (f : Nat → Nat) (t : Tree) : t.weight f = (t.alpha.map f).sum := by
  induction t with
  | leaf c => simp [Tree.weight, Tree.alpha]
  | node l r ihl ihr => simp [Tree.weight, Tree.alpha, ihl, ihr]

theorem Entry.before_alike {P : Nat → Prop} {f g : Nat → Nat} (h : OrderAlike P f g) {a b : Entry}
    (hn : (a.tree.alpha ++ b.tree.alpha).Nodup) (hp : ∀ c ∈ a.tree.alpha ++ b.tree.alpha, P c) :
    (a.reweigh f).before (b.reweigh f) = (a.reweigh g).before (b.reweigh g) := by
  have h1 := h _ _ hn hp
  have h2 := h b.tree.alpha a.tree.alpha (List.perm_append_comm.nodup_iff.1 hn)
    fun c hc => hp c (List.perm_append_comm.mem_iff.1 hc)
  simp only [← Tree.weight_eq] at h1 h2
  rw [Bool.eq_iff_iff]
  simp only [Entry.before_iff, Entry.reweigh]
  omega

/-- Under counts ordered alike, a push goes to the same place. -/
theorem push_alike {P : Nat → Prop} {f g : Nat → Nat} (h : OrderAlike P f g) (e : Entry) (q : List Entry)
    (hn : (queueChars (e :: q)).Nodup) (hp : ∀ c ∈ queueChars (e :: q), P c) :
    ∃ q' : List Entry, push (e.reweigh f) (q.map (Entry.reweigh f)) = q'.map (Entry.reweigh f) ∧
      push (e.reweigh g) (q.map (Entry.reweigh g)) = q'.map (Entry.reweigh g) ∧ q'.Perm (e :: q) := by
  induction q with
  | nil => exact ⟨[e], rfl, rfl, .refl _⟩
  | cons x q ih =>
    simp only [queueChars, List.flatMap_cons, ← List.append_assoc] at hn hp
    have hb := Entry.before_alike h (a := e) (b := x) (List.nodup_append.1 hn).1
      fun c hc => hp c (List.mem_append_left _ hc)
    simp only [List.map_cons, push, hb]
    split
    · exact ⟨e :: x :: q, rfl, rfl, .refl _⟩
    · obtain ⟨q', h1, h2, h3⟩ := ih
        (hn.sublist (by simp only [queueChars, List.flatMap_cons]; exact (List.sublist_append_left _ _).append_right _))
        fun c hc => hp c (by simp only [queueChars, List.flatMap_cons, List.mem_append] at hc ⊢; tauto)
      exact ⟨x :: q', by simp [h1], by simp [h2], (h3.cons x).trans (.swap _ _ _)⟩

/-- Pushing entries one by one onto the empty queue gives the same queue under counts ordered alike. -/
theorem foldr_push_alike {P : Nat → Prop} {f g : Nat → Nat} (h : OrderAlike P f g) (es : List Entry)
    (hn : (queueChars es).Nodup) (hp : ∀ c ∈ queueChars es, P c) :
    ∃ q : List Entry, (es.map (Entry.reweigh f)).foldr push [] = q.map (Entry.reweigh f) ∧
      (es.map (Entry.reweigh g)).foldr push [] = q.map (Entry.reweigh g) ∧ q.Perm es := by
  induction es with
  | nil => exact ⟨[], rfl, rfl, .refl _⟩
  | cons e es ih =>
    simp only [queueChars, List.flatMap_cons] at hn hp
    obtain ⟨q, h1, h2, h3⟩ := ih (List.nodup_append.1 hn).2.1 fun c hc => hp c (List.mem_append_right _ hc)
    have hc : (queueChars (e :: q)).Perm (queueChars (e :: es)) := (h3.cons e).flatMap_right _
    obtain ⟨q', h4, h5, h6⟩ := push_alike h e q (hc.nodup_iff.2 hn) fun c hm => hp c (hc.mem_iff.1 hm)
    exact ⟨q', by simpa [h1] using h4, by simpa [h2] using h5, h6.trans (h3.cons e)⟩

/-- The merge loop makes the same tree of counts ordered alike. -/
theorem mergeLoop_alike {P : Nat → Prop} {f g : Nat → Nat} (h : OrderAlike P f g) (rounds s : Nat) (q : List Entry)
    (hn : (queueChars q).Nodup) (hp : ∀ c ∈ queueChars q, P c) :
    mergeLoop rounds s (q.map (Entry.reweigh f)) = mergeLoop rounds s (q.map (Entry.reweigh g)) := by
  induction rounds generalizing s q with
  | zero =>
    match q with
    | [] | [_] | _ :: _ :: _ => rfl
  | succ n ih =>
    match q with
    | [] | [_] => rfl
    | r :: l :: q =>
      have hc : (queueChars (innerEntry s l r :: q)).Perm (queueChars (r :: l :: q)) := by
        simp only [queueChars, List.flatMap_cons, innerEntry, Tree.alpha]
        rw [← List.append_assoc]
        exact List.perm_append_comm.append_right _
      obtain ⟨q', h1, h2, h3⟩ := push_alike h (innerEntry s l r) q (hc.nodup_iff.2 hn) fun c hm => hp c (hc.mem_iff.1 hm)
      have hc' : (queueChars q').Perm (queueChars (r :: l :: q)) := (h3.flatMap_right _).trans hc
      have := ih (s + 1) q' (hc'.nodup_iff.2 hn) fun c hm => hp c (hc'.mem_iff.1 hm)
      rw [← h1, ← h2] at this
      exact this

/-- The tree depends on the order of the counts only (44 R299). -/
theorem buildTree_alike {P : Nat → Prop} {f g : Nat → Nat} (h : OrderAlike P f g) (cs : List Nat) (hn : cs.Nodup)
    (hp : ∀ c ∈ cs, P c) : buildTree (cs.map fun c => (c, f c)) = buildTree (cs.map fun c => (c, g c)) := by
  let es : List Entry := cs.map fun c => leafEntry (c, 0)
  have hes : queueChars es = cs := by
    simp only [es, queueChars, List.flatMap_map, leafEntry, Tree.alpha]
    simp
  have hw : ∀ k : Nat → Nat, (cs.map fun c => (c, k c)).map leafEntry = es.map (Entry.reweigh k) := fun k => by
    simp only [es, List.map_map]; rfl
  obtain ⟨q, h1, h2, h3⟩ := foldr_push_alike h es (by rwa [hes]) (by rwa [hes])
  have hc : (queueChars q).Perm (queueChars es) := h3.flatMap_right _
  rw [hes] at hc
  simp only [buildTree, hw, h1, h2, List.length_map]
  exact mergeLoop_alike h _ _ q (hc.nodup_iff.2 hn) fun c hm => hp c (hc.mem_iff.1 hm)

/-! ## The merge loop as a relation -/

/-- The keys of a queue before the n-th merge: pairwise distinct, inner nodes numbered below n. -/
def Keyed (n : Nat) (q : List Entry) : Prop :=
  (q.map fun e => (e.kind, e.tb)).Nodup ∧ ∀ e ∈ q, e.kind = 0 → e.tb < n

/-- In a sorted queue of distinct keys each entry precedes every later one. -/
theorem Sorted.precedes {q : List Entry} (h : Sorted q) (hk : (q.map fun e => (e.kind, e.tb)).Nodup) :
    q.Pairwise Entry.Precedes := by
  induction q with
  | nil => exact .nil
  | cons a q ih =>
    obtain ⟨h1, h2⟩ := List.pairwise_cons.1 h
    obtain ⟨k1, k2⟩ := List.nodup_cons.1 hk
    refine List.pairwise_cons.2 ⟨fun b hb => ?_, ih h2 k2⟩
    have hn := h1 b hb
    have hne : ¬ (b.kind = a.kind ∧ b.tb = a.tb) := fun he =>
      k1 (List.mem_map.2 ⟨b, hb, by rw [he.1, he.2]⟩)
    rw [Entry.before_iff] at hn
    unfold Entry.Precedes
    omega

/-- The merge loop goes as the relation says (44 R294, R295). -/
theorem mergeLoop_merges {rounds n : Nat} {q q' : List Entry} {t : Tree} (h : mergeLoop rounds n q = some t)
    (hs : Sorted q) (hk : Keyed n q) (hq : q'.Perm q) : Merges n q' t := by
  have one : ∀ e : Entry, q = [e] → e.tree = t → Merges n q' t := fun e h1 h2 => by
    rw [h1, List.perm_singleton] at hq
    rw [hq, ← h2]; exact .root n e
  induction rounds generalizing n q q' with
  | zero =>
    match q, h with
    | [e], h => exact one e rfl (by simpa [mergeLoop] using h)
  | succ m ih =>
    match q, h with
    | [e], h => exact one e rfl (by simpa [mergeLoop] using h)
    | r :: l :: q, h =>
      obtain ⟨k1, k2⟩ := hk
      obtain ⟨p1, p2⟩ := List.pairwise_cons.1 (hs.precedes k1)
      have p3 := (List.pairwise_cons.1 p2).1
      have hp := push_perm (innerEntry n l r) q
      have hk' : Keyed (n + 1) (push (innerEntry n l r) q) := by
        refine ⟨(hp.map _).nodup_iff.2 (List.nodup_cons.2 ⟨fun hm => ?_, ?_⟩), fun e he h0 => ?_⟩
        · obtain ⟨e, he, hx⟩ := List.mem_map.1 hm
          simp only [innerEntry, Prod.mk.injEq] at hx
          have := k2 e (by simp [he]) hx.1
          omega
        · exact (List.nodup_cons.1 (List.nodup_cons.1 k1).2).2
        · rcases List.mem_cons.1 (hp.mem_iff.1 he) with rfl | he
          · exact Nat.lt_succ_self n
          · have := k2 e (by simp [he]) h0; omega
      refine .merge n q' r l q t hq (p1 l (by simp)) (fun e he => ⟨p1 e (by simp [he]), p3 e he⟩) ?_
      refine ih h (push_sorted _ (List.pairwise_cons.1 (List.pairwise_cons.1 hs).2).2) hk' hp.symm fun e h1 h2 => ?_
      have := hp.symm
      rw [h1, List.perm_singleton] at this
      have h3 : innerEntry n l r :: q = [e] := this
      rw [show ({ freq := l.freq + r.freq, kind := 0, tb := n, tree := .node l.tree r.tree } : Entry) :: q = [e] from h3,
        ← h2]
      exact .root _ e

/-- A build over leaves of distinct characters goes as the relation says. -/
theorem buildTree_merges {leaves : List (Nat × Nat)} {t : Tree} (h : buildTree leaves = some t)
    (hn : (leaves.map Prod.fst).Nodup) : Merges 0 (leaves.map leafEntry) t := by
  have hp := foldr_push_perm (leaves.map leafEntry)
  refine mergeLoop_merges h (foldr_push_sorted _) ⟨(hp.map _).nodup_iff.2 ?_, fun e he h0 => ?_⟩ hp.symm
  · rw [List.map_map]
    have : (leaves.map Prod.fst).map (fun c => (1, c)) = leaves.map ((fun e => (e.kind, e.tb)) ∘ leafEntry) := by
      rw [List.map_map]; rfl
    rw [← this]
    exact hn.map fun a b hab => by simpa using hab
  · obtain ⟨x, _, rfl⟩ := List.mem_map.1 (hp.mem_iff.1 he)
    simp [leafEntry] at h0

end Sys2Proof.Machine
end

