-- ==== Sys2Proof/Laws/Bus.lean ====
section
/-! SUPPORT. The address map, said once: an aligned 64-bit access inside the window reads or writes the place at its
offset, and which place that is. -/

namespace Sys2Proof.Machine

/-- The sizes the address map rests on (00_scope R8, R9, 20_memory R70). -/
theorem window_sizes {p : Config.Params} (h : p.wf) :
    8 * 2 ^ p.cw ≤ 0x80000 ∧ 2 ^ p.olog ≤ 0x800000 ∧ 2 ^ p.ilog ≤ 0x800000 ∧ 2 ^ p.olog % 64 = 0 ∧
      2 ^ p.ilog % 64 = 0 := by
  obtain ⟨_, h1, h2, h3, h4, h5, _⟩ := h
  have e1 : (2 : Nat) ^ p.cw ≤ 2 ^ 16 := Nat.pow_le_pow_right (by omega) h1
  have e2 : (2 : Nat) ^ p.olog ≤ 2 ^ 23 := Nat.pow_le_pow_right (by omega) h3
  have e3 : (2 : Nat) ^ p.ilog ≤ 2 ^ 23 := Nat.pow_le_pow_right (by omega) h5
  have e4 : (2 : Nat) ^ 6 ∣ 2 ^ p.olog := pow_dvd_pow 2 h2
  have e5 : (2 : Nat) ^ 6 ∣ 2 ^ p.ilog := pow_dvd_pow 2 h4
  omega

/-- An aligned 64-bit write inside the window (20_memory R80). -/
theorem hostStep_write (s : State) {off : Nat} (v : Word) (h : off < 2 ^ 22) (h8 : off % 8 = 0) :
    hostStep s (.write (s.params.base + off) 8 v) =
      .next (respond .written (writeLocation s v (locate s.params off))) := by
  have h' : off < 4194304 := h
  simp [hostStep, inWindow, accessOk, h', h8]

/-- An aligned 64-bit read inside the window (20_memory R80, R81). -/
theorem hostStep_read (s : State) {off : Nat} (h : off < 2 ^ 22) (h8 : off % 8 = 0) :
    hostStep s (.read (s.params.base + off) 8) =
      .next (finishRead (readLocation s (locate s.params off)) s) := by
  have h' : off < 4194304 := h
  simp [hostStep, inWindow, accessOk, h', h8]

theorem locate_register (p : Config.Params) {off : Nat} (h : off < 0x080000) : locate p off = registerAt off :=
  if_pos h

theorem registerAt_reserved {off : Nat} (h : 0x068 ≤ off) : registerAt off = .reserved := by
  unfold registerAt
  split <;> first | omega | rfl

theorem locate_hist (p : Config.Params) {c : Nat} (h : c < 2 ^ p.cw) (hc : 8 * c < 0x80000) :
    locate p (0x080000 + 8 * c) = .hist c := by
  have e : (0x080000 + 8 * c - 0x080000) / 8 = c := by omega
  have h' : c < numChars p := h
  simp only [locate, e, if_pos h']
  rw [if_neg (by omega), if_pos (by omega)]

theorem locate_obuf (p : Config.Params) {j : Nat} (h : j < 2 ^ p.olog / 64) (hj : 8 * j < 0x100000) :
    locate p (0x100000 + 8 * j) = .obuf j := by
  have e : (0x100000 + 8 * j - 0x100000) / 8 = j := by omega
  have h' : j < ocap p / 64 := h
  simp only [locate, e, if_pos h']
  rw [if_neg (by omega), if_neg (by omega), if_pos (by omega)]

theorem locate_ibuf (p : Config.Params) {j : Nat} (h : j < 2 ^ p.ilog / 64) (hj : 8 * j < 0x100000) :
    locate p (0x200000 + 8 * j) = .ibuf j := by
  have e : (0x200000 + 8 * j - 0x200000) / 8 = j := by omega
  have h' : j < icap p / 64 := h
  simp only [locate, e, if_pos h']
  rw [if_neg (by omega), if_neg (by omega), if_neg (by omega), if_pos (by omega)]

/-- The offsets that hold nothing (20_memory R72). -/
theorem locate_reserved {p : Config.Params} (hp : p.wf) {off : Nat} (h8 : off % 8 = 0) (h : 0x068 ≤ off)
    (hr : off < 0x080000 ∨ (0x080000 + 8 * 2 ^ p.cw ≤ off ∧ off < 0x100000) ∨
      (0x100000 + 2 ^ p.olog / 8 ≤ off ∧ off < 0x200000) ∨ 0x200000 + 2 ^ p.ilog / 8 ≤ off) :
    locate p off = .reserved := by
  obtain ⟨_, _, _, h1, h2⟩ := window_sizes hp
  have e1 : 0 < 2 ^ p.olog := by positivity
  have e2 : 0 < 2 ^ p.ilog := by positivity
  unfold locate
  split
  · exact registerAt_reserved h
  split
  · exact if_neg (by simp only [numChars]; omega)
  split
  · exact if_neg (by simp only [ocap]; omega)
  split
  · exact if_neg (by simp only [icap]; omega)
  · rfl

end Sys2Proof.Machine
end

