-- ==== Sys2Proof/Laws/Exec.lean ====
section
/-! SUPPORT. What any command can do, said once (exec_cases): it completes; with an error code that is not OK, or with a
commit that leaves every register the spec says no command writes as it was. -/

namespace Sys2Proof.Machine

/-- A computation that fails, fails with a code other than OK. -/
def Proper {α : Type} (r : Except ErrCode α) : Prop := r ≠ .error .ok

theorem proper_ok {α : Type} (a : α) : Proper (.ok a : Except ErrCode α) := by simp [Proper]

theorem proper_error {α : Type} {e : ErrCode} (h : e ≠ .ok) : Proper (.error e : Except ErrCode α) := by
  simpa [Proper] using h

theorem Proper.bind {α β : Type} {x : Except ErrCode α} {f : α → Except ErrCode β} (hx : Proper x)
    (hf : ∀ a, Proper (f a)) : Proper (x >>= f) := by
  cases x with
  | ok a => exact hf a
  | error e => simpa [Proper, bind, Except.bind] using hx

theorem Proper.ite {α : Type} {c : Prop} [Decidable c] {x y : Except ErrCode α} (hx : Proper x) (hy : Proper y) :
    Proper (if c then x else y) := by
  split <;> assumption

theorem proper_get (src : Src) : Proper (get src) := by
  unfold get; split <;> simp [Proper]

theorem proper_getN (n : Nat) (src : Src) : Proper (getN n src) := by
  unfold getN; split <;> simp [Proper]

theorem proper_checkUniverse (s : State) : Proper (checkUniverse s) := by
  unfold checkUniverse; split <;> simp [Proper]

theorem proper_upro (s : State) : Proper (upro s) := by
  unfold upro; split <;> simp [Proper]

theorem proper_uepi (s : State) (r : Nat) : Proper (uepi s r) := by
  unfold uepi; split <;> simp [Proper]

theorem proper_checkWord (v : Nat) : Proper (checkWord v) := by
  unfold checkWord; split <;> simp [Proper]

theorem proper_checkK (l : Bool) : Proper (checkK l) := by
  cases l <;> simp [Proper]

theorem proper_encoderCommit (a : BitStr) (s : State) : Proper (encoderCommit a s) := by
  rcases encoderCommit_cases a s with ⟨_, h⟩ | ⟨_, h⟩ <;> rw [h] <;> simp [Proper]

theorem proper_pUnary (src : Src) : Proper (pUnary src) := by
  unfold pUnary
  generalize 0 = c
  generalize src.q = q
  induction src.bits generalizing c q with
  | nil => simp [countOnes, Proper]
  | cons b bits ih => cases b <;> simp [countOnes, proper_ok, ih]

theorem proper_pGamma (src : Src) : Proper (pGamma src) :=
  (proper_pUnary src).bind fun _ => .ite (proper_ok _) ((proper_getN _ _).bind fun _ => proper_ok _)

theorem proper_pDelta (src : Src) : Proper (pDelta src) :=
  (proper_pGamma src).bind fun _ => .ite (proper_ok _) ((proper_getN _ _).bind fun _ => proper_ok _)

theorem proper_pRice (p : Nat) (src : Src) : Proper (pRice p src) :=
  (proper_pGamma src).bind fun _ => (proper_checkWord _).bind fun _ => (proper_getN _ _).bind fun _ => proper_ok _

theorem proper_pVbyteLoop (b rounds v i : Nat) (src : Src) : Proper (pVbyteLoop b rounds v i src) := by
  induction rounds generalizing v i src with
  | zero => simp [pVbyteLoop, Proper]
  | succ n ih =>
    exact (proper_get _).bind fun _ => (proper_getN _ _).bind fun _ => .ite (proper_ok _) (ih _ _ _)

theorem proper_pVbyte (b : Nat) (src : Src) : Proper (pVbyte b src) := proper_pVbyteLoop _ _ _ _ _

theorem proper_heldTree (s : State) : Proper (heldTree s) := by
  unfold heldTree; split <;> simp [Proper]

theorem proper_lookupX (s : State) (t : Tree) : Proper (lookupX s t) := by
  unfold lookupX; split
  · simp [Proper]
  · split <;> simp [Proper]

theorem proper_walk (t : Tree) (src : Src) : Proper (t.walk src) := by
  induction t generalizing src with
  | leaf c => exact proper_ok _
  | node l r ihl ihr => exact (proper_get _).bind fun _ => .ite (ihr _) (ihl _)

theorem proper_serialize (t : TreeState) : Proper (serialize t) := by
  cases t <;> simp [serialize, Proper]

theorem proper_pTopo (cap deep : Nat) (src : Src) (n : Nat) : Proper (pTopo cap deep src n) := by
  induction deep generalizing src n with
  | zero => simp [pTopo, Proper]
  | succ d ih =>
    exact (proper_get _).bind fun _ => .ite (proper_error (by simp)) (.ite (proper_ok _)
      ((ih _ _).bind fun _ => (ih _ _).bind fun _ => proper_ok _))

theorem proper_labelLeaves (chars lo hi e : Nat) (sh : Shape) (src : Src) (seen : List Nat) :
    Proper (labelLeaves chars lo hi e sh src seen) := by
  induction sh generalizing src seen with
  | leaf => exact (proper_getN _ _).bind fun _ => .ite (proper_error (by simp)) (.ite (proper_error (by simp)) (proper_ok _))
  | node l r ihl ihr => exact (ihl _ _).bind fun _ => (ihr _ _).bind fun _ => proper_ok _

theorem proper_pAlpha (chars : Nat) (sh : Shape) (src : Src) : Proper (pAlpha chars sh src) :=
  (proper_pDelta _).bind fun _ => (proper_checkWord _).bind fun _ => (proper_pDelta _).bind fun _ =>
    (proper_checkWord _).bind fun _ => .ite (proper_error (by simp))
      ((proper_labelLeaves _ _ _ _ _ _ _).bind fun _ => proper_ok _)

/-- A commit changes at most the sink, the source cursor, the results, HIST and TREE. -/
def Commits (s u : State) : Prop :=
  u = { s with
    hist := u.hist, obuf := u.obuf, obit := u.obit, ipos := u.ipos, res0 := u.res0, res1 := u.res1, tree := u.tree }

/-- A command's outcome before completion: an error other than OK, or a commit. -/
def Effect (s : State) (r : Except ErrCode State) : Prop := Proper r ∧ ∀ u, r = .ok u → Commits s u

theorem Effect.ok {s u : State} (h : Commits s u) : Effect s (.ok u) :=
  ⟨proper_ok _, fun v hv => by cases hv; exact h⟩

theorem Effect.error {s : State} {e : ErrCode} (h : e ≠ .ok) : Effect s (.error e) :=
  ⟨proper_error h, fun v hv => by cases hv⟩

theorem Effect.bind {α : Type} {s : State} {x : Except ErrCode α} {f : α → Except ErrCode State} (hx : Proper x)
    (hf : ∀ a, Effect s (f a)) : Effect s (x >>= f) :=
  ⟨hx.bind fun a => (hf a).1, fun u hu => by
    obtain ⟨a, _, h⟩ := Except.bind_eq_ok.1 hu
    exact (hf a).2 u h⟩

theorem Effect.ite {s : State} {c : Prop} [Decidable c] {x y : Except ErrCode State} (hx : Effect s x)
    (hy : Effect s y) : Effect s (if c then x else y) := by
  split <;> assumption

theorem effect_encoderCommit (a : BitStr) (s : State) : Effect s (encoderCommit a s) := by
  rcases encoderCommit_cases a s with ⟨_, h⟩ | ⟨_, h⟩ <;> rw [h]
  · exact .ok rfl
  · exact .error (by simp)

theorem effect_unaryCommit (x : Nat) (s : State) : Effect s (unaryCommit x s) := by
  rw [unaryCommit_eq]; exact effect_encoderCommit _ _

theorem effect_riceEncode (p : Byte) (x : Nat) (s : State) : Effect s (riceEncode p x s) :=
  .ite (.error (by simp)) (effect_encoderCommit _ _)

/-- What any command does: it completes an effect (10_state R31, 60_exceptions R373, R374). -/
theorem exec_effect (i : Instr) (s : State) : ∃ r, exec i s = complete s r ∧ Effect s r := by
  cases i
  case nop => exact ⟨.ok s, rfl, .ok rfl⟩
  case uniEnt => exact ⟨_, rfl, .bind (proper_checkUniverse s) fun _ => .ok rfl⟩
  case binEnc n => exact ⟨_, rfl, .bind (proper_checkK _) fun _ => effect_encoderCommit _ _⟩
  case binDec n => exact ⟨_, rfl, .bind (proper_checkK _) fun _ => .bind (proper_getN _ _) fun _ => .ok rfl⟩
  case binEncU =>
    exact ⟨_, rfl, .bind (proper_checkUniverse s) fun _ => .bind (proper_upro s) fun _ => effect_encoderCommit _ _⟩
  case binDecU =>
    exact ⟨_, rfl, .bind (proper_checkUniverse s) fun _ => .bind (proper_getN _ _) fun _ =>
      .bind (proper_uepi s _) fun _ => .ok rfl⟩
  case unaEnc => exact ⟨_, rfl, effect_unaryCommit _ _⟩
  case unaDec => exact ⟨_, rfl, .bind (proper_pUnary _) fun _ => .ok rfl⟩
  case unaEncU =>
    exact ⟨_, rfl, .bind (proper_checkUniverse s) fun _ => .bind (proper_upro s) fun _ => effect_unaryCommit _ _⟩
  case unaDecU =>
    exact ⟨_, rfl, .bind (proper_checkUniverse s) fun _ => .bind (proper_pUnary _) fun _ =>
      .bind (proper_uepi s _) fun _ => .ok rfl⟩
  case gamEnc => exact ⟨_, rfl, .ite (.error (by simp)) (effect_encoderCommit _ _)⟩
  case gamDec => exact ⟨_, rfl, .bind (proper_pGamma _) fun _ => .bind (proper_checkWord _) fun _ => .ok rfl⟩
  case gamEncU =>
    exact ⟨_, rfl, .bind (proper_checkUniverse s) fun _ => .bind (proper_upro s) fun _ =>
      .ite (.error (by simp)) (effect_encoderCommit _ _)⟩
  case gamDecU =>
    exact ⟨_, rfl, .bind (proper_checkUniverse s) fun _ => .bind (proper_pGamma _) fun _ =>
      .bind (proper_checkWord _) fun _ => .bind (proper_uepi s _) fun _ => .ok rfl⟩
  case delEnc => exact ⟨_, rfl, .ite (.error (by simp)) (effect_encoderCommit _ _)⟩
  case delDec => exact ⟨_, rfl, .bind (proper_pDelta _) fun _ => .bind (proper_checkWord _) fun _ => .ok rfl⟩
  case delEncU =>
    exact ⟨_, rfl, .bind (proper_checkUniverse s) fun _ => .bind (proper_upro s) fun _ =>
      .ite (.error (by simp)) (effect_encoderCommit _ _)⟩
  case delDecU =>
    exact ⟨_, rfl, .bind (proper_checkUniverse s) fun _ => .bind (proper_pDelta _) fun _ =>
      .bind (proper_checkWord _) fun _ => .bind (proper_uepi s _) fun _ => .ok rfl⟩
  case riceEnc p => exact ⟨_, rfl, .bind (proper_checkK _) fun _ => effect_riceEncode _ _ _⟩
  case riceDec p =>
    exact ⟨_, rfl, .bind (proper_checkK _) fun _ => .bind (proper_pRice _ _) fun _ =>
      .bind (proper_checkWord _) fun _ => .ok rfl⟩
  case riceEncU p =>
    exact ⟨_, rfl, .bind (proper_checkK _) fun _ => .bind (proper_checkUniverse s) fun _ =>
      .bind (proper_upro s) fun _ => effect_riceEncode _ _ _⟩
  case riceDecU p =>
    exact ⟨_, rfl, .bind (proper_checkK _) fun _ => .bind (proper_checkUniverse s) fun _ =>
      .bind (proper_pRice _ _) fun _ => .bind (proper_checkWord _) fun _ => .bind (proper_uepi s _) fun _ => .ok rfl⟩
  case vbEnc b => exact ⟨_, rfl, .bind (proper_checkK _) fun _ => effect_encoderCommit _ _⟩
  case vbDec b =>
    exact ⟨_, rfl, .bind (proper_checkK _) fun _ => .bind (proper_pVbyte _ _) fun _ =>
      .bind (proper_checkWord _) fun _ => .ok rfl⟩
  case vbEncU b =>
    exact ⟨_, rfl, .bind (proper_checkK _) fun _ => .bind (proper_checkUniverse s) fun _ =>
      .bind (proper_upro s) fun _ => effect_encoderCommit _ _⟩
  case vbDecU b =>
    exact ⟨_, rfl, .bind (proper_checkK _) fun _ => .bind (proper_checkUniverse s) fun _ =>
      .bind (proper_pVbyte _ _) fun _ => .bind (proper_checkWord _) fun _ => .bind (proper_uepi s _) fun _ => .ok rfl⟩
  case hClr => exact ⟨.ok _, rfl, .ok rfl⟩
  case hInc => exact ⟨_, rfl, .ite (.error (by simp)) (.ite (.error (by simp)) (.ok rfl))⟩
  case hBuild =>
    refine ⟨_, rfl, ?_⟩
    dsimp only
    split
    · exact .ok rfl
    · exact .ite (.error (by simp)) (.ok rfl)
  case hCode =>
    exact ⟨_, rfl, .bind (proper_heldTree s) fun _ => .bind (proper_lookupX s _) fun _ => .ok rfl⟩
  case hEnc =>
    exact ⟨_, rfl, .bind (proper_heldTree s) fun _ => .bind (proper_lookupX s _) fun _ => effect_encoderCommit _ _⟩
  case hDec =>
    exact ⟨_, rfl, .bind (proper_heldTree s) fun _ => .bind (proper_walk _ _) fun _ => .ok rfl⟩
  case hSer =>
    refine ⟨_, rfl, .bind (proper_serialize _) fun a => ?_⟩
    rcases encoderCommit_cases a.1 s with ⟨_, h⟩ | ⟨_, h⟩
    · exact ⟨by simp [h, Proper], fun u hu => by simp only [h, Except.ok_bind] at hu; cases hu; rfl⟩
    · exact ⟨by simp [h, Proper], fun u hu => by simp [h] at hu⟩
  case hDeser =>
    exact ⟨_, rfl, .bind (proper_pTopo _ _ _ _) fun _ => .ite (.ok rfl)
      (.bind (proper_pAlpha _ _ _) fun _ => .ite (.error (by simp)) (.ok rfl))⟩

end Sys2Proof.Machine
end

