-- ==== Sys2Proof/Laws/PerInstr.lean ====
section
/-! SUPPORT. The family Encoding, instruction by instruction: the command word of an instruction carries its opcode, its
K and RSV = 0. -/

namespace Sys2Proof

/-- The three fields of an encoded command word (30_encoding R100, R111). -/
theorem fields_encode (i : Instr) :
    opcField (encode i) = i.opc ∧ kField (encode i) = i.k ∧ rsvField (encode i) = 0#48 := by
  refine ⟨?_, ?_, ?_⟩ <;> apply BitVec.eq_of_getLsbD_eq <;> intro j hj
  · simp [opcField, encode, hj]
    omega
  · have h1 : 8 + j < 64 := by omega
    simp [kField, encode, hj, h1]
  · simp [rsvField, encode, hj]
    exact ⟨fun _ => BitVec.getLsbD_of_ge _ _ (by omega), fun _ _ _ => BitVec.getLsbD_of_ge _ _ (by omega)⟩

/-- Every instruction's word carries its opcode in bits 7:0, its K in bits 15:8, and 0 above (30_encoding R111). -/
def Laws.Encoding.Statement (i : Instr) : Prop :=
  opcField (encode i) = i.opc ∧ kField (encode i) = i.k ∧ rsvField (encode i) = 0#48

theorem Laws.Encoding.nop : Laws.Encoding.Statement .nop := fields_encode _

theorem Laws.Encoding.uniEnt : Laws.Encoding.Statement .uniEnt := fields_encode _

theorem Laws.Encoding.binEnc (n : Byte) : Laws.Encoding.Statement (.binEnc n) := fields_encode _

theorem Laws.Encoding.binDec (n : Byte) : Laws.Encoding.Statement (.binDec n) := fields_encode _

theorem Laws.Encoding.binEncU : Laws.Encoding.Statement .binEncU := fields_encode _

theorem Laws.Encoding.binDecU : Laws.Encoding.Statement .binDecU := fields_encode _

theorem Laws.Encoding.unaEnc : Laws.Encoding.Statement .unaEnc := fields_encode _

theorem Laws.Encoding.unaDec : Laws.Encoding.Statement .unaDec := fields_encode _

theorem Laws.Encoding.unaEncU : Laws.Encoding.Statement .unaEncU := fields_encode _

theorem Laws.Encoding.unaDecU : Laws.Encoding.Statement .unaDecU := fields_encode _

theorem Laws.Encoding.gamEnc : Laws.Encoding.Statement .gamEnc := fields_encode _

theorem Laws.Encoding.gamDec : Laws.Encoding.Statement .gamDec := fields_encode _

theorem Laws.Encoding.gamEncU : Laws.Encoding.Statement .gamEncU := fields_encode _

theorem Laws.Encoding.gamDecU : Laws.Encoding.Statement .gamDecU := fields_encode _

theorem Laws.Encoding.delEnc : Laws.Encoding.Statement .delEnc := fields_encode _

theorem Laws.Encoding.delDec : Laws.Encoding.Statement .delDec := fields_encode _

theorem Laws.Encoding.delEncU : Laws.Encoding.Statement .delEncU := fields_encode _

theorem Laws.Encoding.delDecU : Laws.Encoding.Statement .delDecU := fields_encode _

theorem Laws.Encoding.riceEnc (p : Byte) : Laws.Encoding.Statement (.riceEnc p) := fields_encode _

theorem Laws.Encoding.riceDec (p : Byte) : Laws.Encoding.Statement (.riceDec p) := fields_encode _

theorem Laws.Encoding.riceEncU (p : Byte) : Laws.Encoding.Statement (.riceEncU p) := fields_encode _

theorem Laws.Encoding.riceDecU (p : Byte) : Laws.Encoding.Statement (.riceDecU p) := fields_encode _

theorem Laws.Encoding.vbEnc (b : Byte) : Laws.Encoding.Statement (.vbEnc b) := fields_encode _

theorem Laws.Encoding.vbDec (b : Byte) : Laws.Encoding.Statement (.vbDec b) := fields_encode _

theorem Laws.Encoding.vbEncU (b : Byte) : Laws.Encoding.Statement (.vbEncU b) := fields_encode _

theorem Laws.Encoding.vbDecU (b : Byte) : Laws.Encoding.Statement (.vbDecU b) := fields_encode _

theorem Laws.Encoding.hClr : Laws.Encoding.Statement .hClr := fields_encode _

theorem Laws.Encoding.hInc : Laws.Encoding.Statement .hInc := fields_encode _

theorem Laws.Encoding.hBuild : Laws.Encoding.Statement .hBuild := fields_encode _

theorem Laws.Encoding.hCode : Laws.Encoding.Statement .hCode := fields_encode _

theorem Laws.Encoding.hEnc : Laws.Encoding.Statement .hEnc := fields_encode _

theorem Laws.Encoding.hDec : Laws.Encoding.Statement .hDec := fields_encode _

theorem Laws.Encoding.hSer : Laws.Encoding.Statement .hSer := fields_encode _

theorem Laws.Encoding.hDeser : Laws.Encoding.Statement .hDeser := fields_encode _

end Sys2Proof
end

