-- ==== Sys2Proof/Laws/Short.lean ====
section
/-! SUPPORT. Where the parsers stop: on a source that ends inside an item, on a topology that is none or too large,
at a leaf whose character is out of range or repeated; and that a longer source changes nothing else. -/

namespace Sys2Proof.Machine

/-! ## Sources that end inside an item -/

theorem getN_short {n : Nat} {src : Src} (h : src.bits.length < n) : getN n src = .error .srcEmpty := if_pos h

theorem pUnary_ones {l : BitStr} (h : ∀ b ∈ l, b = true) (q : Nat) :
    pUnary { bits := l, q := q } = .error .srcEmpty := by
  suffices ∀ c q, countOnes c l q = .error .srcEmpty from this _ _
  induction l with
  | nil => exact fun _ _ => rfl
  | cons b l ih =>
    obtain rfl := h b (by simp)
    exact fun _ _ => ih (fun b hb => h b (by simp [hb])) _ _

theorem pGamma_ones {l : BitStr} (h : ∀ b ∈ l, b = true) (q : Nat) :
    pGamma { bits := l, q := q } = .error .srcEmpty := by
  rw [pGamma, pUnary_ones h]; rfl

theorem pGamma_short {m : Nat} {a : BitStr} (h : a.length < m) (q : Nat) :
    pGamma { bits := List.replicate m true ++ false :: a, q := q } = .error .srcEmpty := by
  rw [pGamma, pUnary_append]
  simp only [Except.ok_bind]
  rw [if_neg (by omega), getN_short h]; rfl

theorem gammaBits_append (a rest : BitStr) :
    gammaBits a ++ rest = List.replicate a.length true ++ false :: (a ++ rest) := by simp [gammaBits]

/-- A delta code needs all of its tail (41 R201). -/
theorem pDelta_short {c a : BitStr} (h : a.length + 1 < gammaValue c) (q : Nat) :
    pDelta { bits := gammaBits c ++ a, q := q } = .error .srcEmpty := by
  unfold gammaValue at h
  rw [gammaBits_append, pDelta, pGamma_append]
  simp only [Except.ok_bind]
  rw [if_neg (by omega), getN_short (by simp only []; omega)]; rfl

/-- A Rice code needs all of its remainder (42 R221). -/
theorem pRice_short {p : Nat} {a r : BitStr} (h : gammaValue a < 2 ^ 64) (hr : r.length < p) (q : Nat) :
    pRice p { bits := gammaBits a ++ r, q := q } = .error .srcEmpty := by
  rw [gammaBits_append, pRice, pGamma_append]
  simp only [Except.ok_bind]
  rw [show checkWord (2 ^ a.length + val a) = .ok () from checkWord_ok h]
  simp only [Except.ok_bind]
  rw [getN_short hr]; rfl

/-- A Vbyte string needs its terminator block, whole (42 R231). -/
theorem pVbyteLoop_short {b : Nat} (blocks : List BitStr) {a : BitStr} (hb : ∀ d ∈ blocks, d.length = b)
    (ha : a.length ≤ b) (rounds v i q : Nat) :
    pVbyteLoop b rounds v i { bits := blockBits blocks ++ a, q := q } = .error .srcEmpty := by
  induction rounds generalizing blocks v i q with
  | zero => rfl
  | succ n ih =>
    cases blocks with
    | nil =>
      cases a with
      | nil => rfl
      | cons x a =>
        simp only [List.length_cons] at ha
        simp only [blockBits, List.flatMap_nil, List.nil_append, pVbyteLoop, get_cons, Except.ok_bind]
        rw [getN_short (by simp only []; omega)]; rfl
    | cons d blocks =>
      simp only [blockBits, List.flatMap_cons, List.cons_append, List.append_assoc, pVbyteLoop, get_cons, Except.ok_bind]
      rw [getN_append (hb d (by simp))]
      simp only [Except.ok_bind, Bool.false_eq_true, if_false]
      exact ih blocks (fun d hd => hb d (by simp [hd])) _ _ _

/-- A walk along a path cut short (43 R265). -/
theorem Tree.walk_short {t : Tree} {x a : BitStr} {c : Nat} (h : t.follow (x ++ a) = some c) (ha : a ≠ []) (q : Nat) :
    t.walk { bits := x, q := q } = .error .srcEmpty := by
  induction t generalizing x q with
  | leaf d =>
    cases x with
    | nil =>
      cases a with
      | nil => exact absurd rfl ha
      | cons => simp [Tree.follow] at h
    | cons => simp [Tree.follow] at h
  | node l r ihl ihr =>
    cases x with
    | nil => rfl
    | cons b x =>
      simp only [List.cons_append, Tree.follow] at h
      simp only [Tree.walk, get_cons, Except.ok_bind]
      cases b
      · exact ihl (by simpa using h) _
      · exact ihr (by simpa using h) _

/-! ## A longer source -/

/-- The source with the string y behind it. -/
def more (y : BitStr) (src : Src) : Src := { src with bits := src.bits ++ y }

/-- Unless it is SRC_EMPTY, the outcome of p on a longer source is the same, with the longer source left: g says where
the outcome holds that source. -/
def Extends {α : Type} (g : BitStr → α → α) (p : Src → Except ErrCode α) : Prop :=
  ∀ src y, p src ≠ .error .srcEmpty → p (more y src) = (p src).map (g y)

/-- A value and the source left. -/
def moreLast {α : Type} (y : BitStr) (r : α × Src) : α × Src := (r.1, more y r.2)

/-- A value, the source left, and a count or list. -/
def moreMid {α β : Type} (y : BitStr) (r : α × Src × β) : α × Src × β := (r.1, more y r.2.1, r.2.2)

theorem extends_bind_of {α β : Type} {g : BitStr → α → α} {g' : BitStr → β → β} {p : Src → Except ErrCode α}
    {f : α → Except ErrCode β} (hp : Extends g p)
    (hf : ∀ a y, f a ≠ .error .srcEmpty → f (g y a) = (f a).map (g' y)) : Extends g' (fun s => p s >>= f) := by
  intro src y h
  cases hps : p src with
  | error e =>
    have := hp src y (by intro h2; simp only [h2] at h; exact h rfl)
    simp only [this, hps]; rfl
  | ok a =>
    have := hp src y (by rw [hps]; simp)
    simp only [this, hps] at h ⊢
    exact hf a y h

theorem extends_bind {α β : Type} {g' : BitStr → β → β} {p : Src → Except ErrCode (α × Src)}
    {f : α × Src → Except ErrCode β} (hp : Extends moreLast p)
    (hf : ∀ a src y, f (a, src) ≠ .error .srcEmpty → f (a, more y src) = (f (a, src)).map (g' y)) :
    Extends g' (fun s => p s >>= f) :=
  extends_bind_of hp fun a y h => hf a.1 a.2 y h

theorem extends_bind3 {α β γ : Type} {g' : BitStr → β → β} {p : Src → Except ErrCode (α × Src × γ)}
    {f : α × Src × γ → Except ErrCode β} (hp : Extends moreMid p)
    (hf : ∀ a src c y, f (a, src, c) ≠ .error .srcEmpty → f (a, more y src, c) = (f (a, src, c)).map (g' y)) :
    Extends g' (fun s => p s >>= f) :=
  extends_bind_of hp fun a y h => hf a.1 a.2.1 a.2.2 y h

theorem extends_get : Extends moreLast get := by
  intro src y h
  cases src with | mk bits q =>
  cases bits with
  | nil => exact absurd rfl h
  | cons b bits => rfl

theorem extends_getN (n : Nat) : Extends moreLast (getN n) := by
  intro src y h
  unfold getN at h ⊢
  have : ¬ src.bits.length < n := by intro hl; rw [if_pos hl] at h; exact h rfl
  rw [if_neg this, if_neg (by simp [more]; omega)]
  simp only [more, Except.map, moreLast]
  rw [List.take_append_of_le_length (by omega), List.drop_append_of_le_length (by omega)]

theorem extends_pUnary : Extends moreLast pUnary := by
  intro src y h
  unfold pUnary at *
  cases src with | mk bits q =>
  simp only [more] at *
  generalize 0 = c at *
  induction bits generalizing c q with
  | nil => exact absurd rfl h
  | cons b bits ih =>
    cases b
    · rfl
    · exact ih _ _ h

theorem extends_pGamma : Extends moreLast pGamma := by
  refine extends_bind extends_pUnary fun m src y h => ?_
  by_cases hm : m = 0
  · simp only [if_pos hm]; rfl
  · simp only [if_neg hm] at h ⊢
    exact extends_bind (g' := moreLast) (extends_getN m) (fun b s y _ => rfl) src y h

theorem extends_pDelta : Extends moreLast pDelta := by
  refine extends_bind extends_pGamma fun m src y h => ?_
  by_cases hm : m = 1
  · simp only [if_pos hm]; rfl
  · simp only [if_neg hm] at h ⊢
    exact extends_bind (g' := moreLast) (extends_getN _) (fun b s y _ => rfl) src y h

theorem extends_pTopo (cap deep n : Nat) : Extends moreMid (fun s => pTopo cap deep s n) := by
  induction deep generalizing n with
  | zero => intro src y h; rfl
  | succ d ih =>
    refine extends_bind extends_get fun b src y h => ?_
    by_cases h1 : cap < n + 1
    · simp only [if_pos h1]; rfl
    · simp only [if_neg h1] at h ⊢
      by_cases h2 : b = true
      · simp only [if_pos h2]; rfl
      · simp only [if_neg h2] at h ⊢
        refine extends_bind3 (g' := moreMid) (ih (n + 1)) (fun l s2 n2 y h => ?_) src y h
        exact extends_bind3 (g' := moreMid) (ih n2) (fun a s c y _ => rfl) s2 y h

theorem extends_labelLeaves (chars lo hi e : Nat) (sh : Shape) (seen : List Nat) :
    Extends moreMid (fun s => labelLeaves chars lo hi e sh s seen) := by
  induction sh generalizing seen with
  | leaf =>
    refine extends_bind (extends_getN e) fun t src y h => ?_
    by_cases h1 : hi < lo + t ∨ chars ≤ lo + t
    · simp only [if_pos h1]; rfl
    · by_cases h2 : lo + t ∈ seen
      · simp only [if_neg h1, if_pos h2]; rfl
      · simp only [if_neg h1, if_neg h2]; rfl
  | node l r ihl ihr =>
    refine extends_bind3 (g' := moreMid) (ihl seen) fun tl s2 n2 y h => ?_
    exact extends_bind3 (g' := moreMid) (ihr n2) (fun a s c y _ => rfl) s2 y h

theorem extends_pAlpha (chars : Nat) (sh : Shape) : Extends moreLast (pAlpha chars sh) := by
  refine extends_bind extends_pDelta fun d1 s1 y h => ?_
  cases hc : checkWord d1 with
  | error e => simp only [hc]; rfl
  | ok u =>
    simp only [hc, Except.ok_bind] at *
    refine extends_bind extends_pDelta (fun d2 s2 y h => ?_) s1 y h
    cases hc : checkWord d2 with
    | error e => rfl
    | ok u =>
      simp only [hc, Except.ok_bind] at *
      by_cases h1 : umax < d1 - 1 + (d2 - 1)
      · simp only [if_pos h1]; rfl
      · simp only [if_neg h1] at h ⊢
        exact extends_bind3 (g' := moreLast) (extends_labelLeaves _ _ _ _ _ _) (fun a s c y _ => rfl) s2 y h

/-! ## Topologies and leaves -/

/-- Every shape carries any list of as many characters. -/
theorem exists_relabelled (t : Tree) (cs : List Nat) (h : cs.length = t.alpha.length) :
    ∃ u : Tree, u.shape = t.shape ∧ u.alpha = cs := by
  induction t generalizing cs with
  | leaf c =>
    match cs, h with
    | [d], _ => exact ⟨.leaf d, rfl, rfl⟩
  | node l r ihl ihr =>
    simp only [Tree.alpha, List.length_append] at h
    obtain ⟨u, h1, h2⟩ := ihl (cs.take l.alpha.length) (by simp; omega)
    obtain ⟨v, h3, h4⟩ := ihr (cs.drop l.alpha.length) (by simp; omega)
    exact ⟨.node u v, by simp [Tree.shape, h1, h3], by simp [Tree.alpha, h2, h4]⟩

/-- The first leaf whose character is above the high end or no character of the part, or repeated (45 R335). -/
theorem labelLeaves_error {chars lo hi e : Nat} (t : Tree) (seen cs : List Nat) (c : Nat) (err : ErrCode)
    (hk : cs.length < t.alpha.length)
    (hc : ∀ c ∈ cs, lo ≤ c ∧ c ≤ hi ∧ c < chars ∧ c - lo < 2 ^ e) (hn : cs.Nodup)
    (hs : ∀ c ∈ cs, c ∉ seen) (h1 : lo ≤ c) (h2 : c - lo < 2 ^ e)
    (hb : (hi < c ∨ chars ≤ c) ∧ err = .range ∨
      ¬ (hi < c ∨ chars ≤ c) ∧ c ∈ cs ++ seen ∧ err = .malformed) (rest : BitStr) (q : Nat) :
    labelLeaves chars lo hi e t.shape
      { bits := (cs.flatMap fun c => bin (c - lo) e) ++ (bin (c - lo) e ++ rest), q := q } seen =
        .error err := by
  induction t generalizing seen cs rest q with
  | leaf d =>
    obtain rfl : cs = [] := by simpa [Tree.alpha] using hk
    simp only [List.flatMap_nil, List.nil_append, labelLeaves, Tree.shape]
    rw [getN_append (length_bin _ _)]
    have h6 : lo + (c - lo) = c := Nat.add_sub_cancel' h1
    simp only [Except.ok_bind, val_bin, Nat.mod_eq_of_lt h2, h6]
    rcases hb with ⟨h, rfl⟩ | ⟨h, h3, rfl⟩
    · rw [if_pos h]
    · rw [if_neg h, if_pos (by simpa using h3)]
  | node l r ihl ihr =>
    simp only [labelLeaves, Tree.shape]
    simp only [Tree.alpha, List.length_append] at hk
    by_cases hl : cs.length < l.alpha.length
    · rw [ihl seen cs hl hc hn hs hb]; rfl
    · have hcs := List.take_append_drop l.alpha.length cs
      generalize hA : cs.take l.alpha.length = A at *
      generalize hB : cs.drop l.alpha.length = B at *
      have lA : A.length = l.alpha.length := by rw [← hA]; simp; omega
      have lB : A.length + B.length = cs.length := by rw [← hcs]; simp
      obtain ⟨u, hu1, hu2⟩ := exists_relabelled l A lA
      subst hcs
      rw [List.nodup_append] at hn
      have := labelLeaves_append (chars := chars) (lo := lo) (hi := hi) (e := e) u seen
        (by rw [hu2]; exact fun c h => hc c (by simp [h])) (by rw [hu2]; exact hn.1)
        (by rw [hu2]; exact fun c h => hs c (by simp [h]))
        ((B.flatMap fun c => bin (c - lo) e) ++ (bin (c - lo) e ++ rest)) q
      rw [hu2, hu1] at this
      simp only [List.flatMap_append, List.append_assoc]
      rw [this]
      simp only [Except.ok_bind]
      rw [ihr (A.reverse ++ seen) B (by omega) (fun c h => hc c (by simp [h])) hn.2.1]
      · rfl
      · intro d hd hm
        rcases List.mem_append.1 hm with hm | hm
        · exact hn.2.2 d (List.mem_reverse.1 hm) d hd rfl
        · exact hs d (by simp [hd]) hm
      · rcases hb with h | ⟨h, h3, h4⟩
        · exact Or.inl h
        · exact Or.inr ⟨h, by simp only [List.mem_append, List.mem_reverse] at h3 ⊢; tauto, h4⟩

/-- A topology parsed is that of a tree, of at most the cap's bits (45 R334). -/
theorem pTopo_tree {cap deep n m : Nat} {src src' : Src} {sh : Shape} (h : pTopo cap deep src n = .ok (sh, src', m)) :
    ∃ b : Tree, src.bits = b.topo ++ src'.bits ∧ m = n + b.topo.length ∧ m ≤ cap := by
  induction deep generalizing src src' n m sh with
  | zero => cases h
  | succ d ih =>
    obtain ⟨⟨b, s1⟩, h1, h2⟩ := Except.bind_eq_ok.1 h
    have hb : src.bits = b :: s1.bits := by
      unfold get at h1
      split at h1
      · cases h1
      · cases h1; assumption
    dsimp only at h2
    split at h2
    · cases h2
    · rename_i hc
      split at h2
      · rename_i hb2
        cases h2
        exact ⟨.leaf 0, by simp [Tree.topo, hb, hb2], rfl, by omega⟩
      · rename_i hb2
        obtain ⟨⟨l, s2, n2⟩, h3, h4⟩ := Except.bind_eq_ok.1 h2
        obtain ⟨⟨r, s3, n3⟩, h5, h6⟩ := Except.bind_eq_ok.1 h4
        cases h6
        dsimp only at h5
        obtain ⟨c1, e1, e3, _⟩ := ih h3
        obtain ⟨c2, e2, e4, b2⟩ := ih h5
        have : b = false := by simpa using hb2
        exact ⟨.node c1 c2, by simp [Tree.topo, hb, this, e1, e2], by simp [Tree.topo]; omega, b2⟩

/-- Where the topology's parser stops: it ran out of bits, or read one more than the cap (45 R334). -/
theorem pTopo_error {cap deep n : Nat} {src : Src} {e : ErrCode} (hd : cap < n + deep) (hn : n ≤ cap)
    (h : pTopo cap deep src n = .error e) :
    (e = .srcEmpty ∧ n + src.bits.length ≤ cap) ∨ (e = .malformed ∧ cap < n + src.bits.length) := by
  induction deep generalizing src n with
  | zero => omega
  | succ d ih =>
    simp only [pTopo] at h
    cases hs : src.bits with
    | nil =>
      have : get src = .error .srcEmpty := by rw [get, hs]
      rw [this] at h; cases h; exact Or.inl ⟨rfl, by simpa using hn⟩
    | cons b bits =>
      have : get src = .ok (b, { bits := bits, q := src.q + 1 }) := by rw [get, hs]
      rw [this] at h
      simp only [Except.ok_bind] at h
      split at h
      · cases h; exact Or.inr ⟨rfl, by simp; omega⟩
      · rename_i h1
        split at h
        · cases h
        · cases h2 : pTopo cap d { bits := bits, q := src.q + 1 } (n + 1) with
          | error e' =>
            rw [h2] at h; cases h
            have := ih (by omega) (by omega) h2
            simp only [List.length_cons] at *
            rcases this with ⟨a, b⟩ | ⟨a, b⟩
            · exact Or.inl ⟨a, by omega⟩
            · exact Or.inr ⟨a, by omega⟩
          | ok r =>
            obtain ⟨l, s2, n2⟩ := r
            rw [h2] at h
            simp only [Except.ok_bind] at h
            obtain ⟨b1, g1, moreLast, moreMid⟩ := pTopo_tree h2
            have hlen := congrArg List.length g1
            simp only [List.length_append] at hlen
            cases h3 : pTopo cap d s2 n2 with
            | error e' =>
              rw [h3] at h; cases h
              have := ih (by omega) (by omega) h3
              simp only [List.length_cons] at *
              rcases this with ⟨a, b⟩ | ⟨a, b⟩
              · exact Or.inl ⟨a, by omega⟩
              · exact Or.inr ⟨a, by omega⟩
            | ok r => rw [h3] at h; cases h

end Sys2Proof.Machine
end

