-- ==== Sys2Proof/Tests/Slice0.lean ====
section
/-! SUPPORT. Tests: ill-formed terms, one word per command, the vectors of 95_test_vectors one step at a time, and a
witness for the hypotheses of every statement. -/

namespace Sys2Proof.Tests

open Sys2Proof.Machine

-- One theorem at a time: each `decide +kernel` takes a thread with a large stack.
set_option Elab.async false

/-! ## Helpers -/

/-- A string in wire order, as 95_test_vectors writes it. -/
def wire (l : List Nat) : BitStr := l.map fun d => d == 1

/-- The reset state with operands. -/
def st (x lo hi : Nat) : State := { State.reset with x := reg x, ulo := reg lo, uhi := reg hi }

/-- The state with the string as the whole source view. -/
def view (a : BitStr) (s : State) : State :=
  { s with
    ibuf := (List.range ((a.length + 63) / 64)).map fun j => (j, reg (val ((a.drop (64 * j)).take 64)))
    ilen := reg a.length }

/-- The smallest part there is. -/
def smallPart : Config.Params := { cw := 1, olog := 6, ilog := 6, base := 0 }

/-- The smallest part with both counters written. -/
def counts (a b : Nat) : State :=
  { State.resetWith smallPart with hist := [(0, BitVec.ofNat 32 a), (1, BitVec.ofNat 32 b)] }

/-- The smallest part's counts (1, 2): its tree is Node(Leaf(1), Leaf(0)) by 44 R294. -/
def pair : Machine.Tree := .node (.leaf 1) (.leaf 0)

/-- The tree of 95 V-H-9. -/
def three : Machine.Tree := .node (.leaf 0x63) (.node (.leaf 0x62) (.leaf 0x61))

/-- The state that holds a tree. -/
def holding (t : Machine.Tree) (s : State) : State := { s with tree := .valid t }

/-- The state with the output cursor there. -/
def nearEnd (o : Word) (s : State) : State := { s with obit := o }

/-- The state in flight with a command word. -/
def inFlight (w : Word) : State := { State.reset with cmd := w, busy := true }

/-- The command ended OK, wrote exactly this string, and RES1 is its length. -/
def encodes (i : Instr) (s : State) (a : BitStr) : Bool :=
  match exec i s with
  | .next t => t.ecode == .ok && writtenBits s t == a && t.res1 == reg a.length
  | _ => false

/-- The command ended OK with these results, and moved IPOS by the second. -/
def decodes (i : Instr) (s : State) (v q : Nat) : Bool :=
  match exec i s with
  | .next t => t.ecode == .ok && t.res0 == reg v && t.res1 == reg q && t.ipos == reg q
  | _ => false

/-- The command ended with this code and committed nothing. -/
def fails (i : Instr) (s : State) (e : ErrCode) : Bool :=
  match exec i s with
  | .next t => t == { s with ecode := e, done := true, err := true, draws := s.draws + 1 }
  | _ => false

/-- The command ended OK and left this tree, RES0 and RES1. -/
def leaves (i : Instr) (s : State) (t : TreeState) (v q : Nat) : Bool :=
  match exec i s with
  | .next u => u.ecode == .ok && u.tree == t && u.res0 == reg v && u.res1 == reg q
  | _ => false

/-- The hypotheses of a round trip: the encoder ended OK, and the source view begins with what it wrote. -/
def feeds (enc : Instr) (s u : State) : Bool :=
  match exec enc s with
  | .next t => decide s.params.wf && t.ecode == .ok && u.ulo == s.ulo && u.uhi == s.uhi &&
      (writtenBits s t).isPrefixOf (sourceView u)
  | _ => false

/-! ## Ill-formed terms, one per check (30_encoding R105) -/

theorem test_wf_bin : (Instr.binEnc 65).wf = false ∧ (Instr.binDec 65).wf = false := by decide

theorem test_wf_rice : (Instr.riceEnc 64).wf = false ∧ (Instr.riceDec 64).wf = false ∧ (Instr.riceEncU 64).wf = false ∧
    (Instr.riceDecU 64).wf = false := by decide

theorem test_wf_vb_zero : (Instr.vbEnc 0).wf = false ∧ (Instr.vbDec 0).wf = false ∧ (Instr.vbEncU 0).wf = false ∧
    (Instr.vbDecU 0).wf = false := by decide

theorem test_wf_vb_top : (Instr.vbEnc 64).wf = false ∧ (Instr.vbDec 64).wf = false ∧ (Instr.vbEncU 64).wf = false ∧
    (Instr.vbDecU 64).wf = false := by decide

/-! ## One word per command, from the opcode map (30_encoding R100, R106) -/

theorem test_decode_nop : decodeWord 0b00000000_00000000 = .ok .nop := by decide

theorem test_decode_uniEnt : decodeWord 0b00000000_00000001 = .ok .uniEnt := by decide

theorem test_decode_binEnc : decodeWord 0b00000101_00010000 = .ok (.binEnc 5) := by decide

theorem test_decode_binDec : decodeWord 0b01000000_00010001 = .ok (.binDec 64) := by decide

theorem test_decode_binEncU : decodeWord 0b00000000_00010010 = .ok .binEncU := by decide

theorem test_decode_binDecU : decodeWord 0b00000000_00010011 = .ok .binDecU := by decide

theorem test_decode_unaEnc : decodeWord 0b00000000_00100000 = .ok .unaEnc := by decide

theorem test_decode_unaDec : decodeWord 0b00000000_00100001 = .ok .unaDec := by decide

theorem test_decode_unaEncU : decodeWord 0b00000000_00100010 = .ok .unaEncU := by decide

theorem test_decode_unaDecU : decodeWord 0b00000000_00100011 = .ok .unaDecU := by decide

theorem test_decode_gamEnc : decodeWord 0b00000000_00110000 = .ok .gamEnc := by decide

theorem test_decode_gamDec : decodeWord 0b00000000_00110001 = .ok .gamDec := by decide

theorem test_decode_gamEncU : decodeWord 0b00000000_00110010 = .ok .gamEncU := by decide

theorem test_decode_gamDecU : decodeWord 0b00000000_00110011 = .ok .gamDecU := by decide

theorem test_decode_delEnc : decodeWord 0b00000000_01000000 = .ok .delEnc := by decide

theorem test_decode_delDec : decodeWord 0b00000000_01000001 = .ok .delDec := by decide

theorem test_decode_delEncU : decodeWord 0b00000000_01000010 = .ok .delEncU := by decide

theorem test_decode_delDecU : decodeWord 0b00000000_01000011 = .ok .delDecU := by decide

theorem test_decode_riceEnc : decodeWord 0b00000101_01010000 = .ok (.riceEnc 5) := by decide

theorem test_decode_riceDec : decodeWord 0b00111111_01010001 = .ok (.riceDec 63) := by decide

theorem test_decode_riceEncU : decodeWord 0b00000000_01010010 = .ok (.riceEncU 0) := by decide

theorem test_decode_riceDecU : decodeWord 0b00001001_01010011 = .ok (.riceDecU 9) := by decide

theorem test_decode_vbEnc : decodeWord 0b00000011_01100000 = .ok (.vbEnc 3) := by decide

theorem test_decode_vbDec : decodeWord 0b00111111_01100001 = .ok (.vbDec 63) := by decide

theorem test_decode_vbEncU : decodeWord 0b00000001_01100010 = .ok (.vbEncU 1) := by decide

theorem test_decode_vbDecU : decodeWord 0b00000111_01100011 = .ok (.vbDecU 7) := by decide

theorem test_decode_hClr : decodeWord 0b00000000_10000000 = .ok .hClr := by decide

theorem test_decode_hInc : decodeWord 0b00000000_10000001 = .ok .hInc := by decide

theorem test_decode_hBuild : decodeWord 0b00000000_10000010 = .ok .hBuild := by decide

theorem test_decode_hCode : decodeWord 0b00000000_10000011 = .ok .hCode := by decide

theorem test_decode_hEnc : decodeWord 0b00000000_10000100 = .ok .hEnc := by decide

theorem test_decode_hDec : decodeWord 0b00000000_10000101 = .ok .hDec := by decide

theorem test_decode_hSer : decodeWord 0b00000000_10000110 = .ok .hSer := by decide

theorem test_decode_hDeser : decodeWord 0b00000000_10000111 = .ok .hDeser := by decide

/-- 95 V-M-4 to V-M-9: words that are no command. -/
theorem test_illegal_words : decodeWord 0x02 = .error .illegal ∧ decodeWord 0x14 = .error .illegal ∧
    decodeWord 0x88 = .error .illegal ∧ decodeWord 0xFF = .error .illegal ∧
    decodeWord 0x0000000000010030 = .error .illegal ∧ decodeWord 0x8000000000000030 = .error .illegal ∧
    decodeWord 0x0120 = .error .illegal ∧ decodeWord 0x0183 = .error .illegal := by decide

/-- 95 V-M-11 to V-M-13, V-RICE-7: K outside its range. -/
theorem test_param_words : decodeWord 0x4110 = .error .param ∧ decodeWord 0x4061 = .error .param ∧
    decodeWord 0x0062 = .error .param ∧ decodeWord 0x4050 = .error .param := by decide

/-! ## One step of each command, on the vectors of 95_test_vectors (the vector is named in the test's name) -/

theorem test_V_M_1_nop : leaves .nop (st 0 0 0) .none 0 0 = true := by decide +kernel

theorem test_V_M_2_uniEnt : decodes .uniEnt (st 0 0 4) 3 0 = true := by decide +kernel

theorem test_V_M_3_uniEnt : fails .uniEnt (st 0 5 4) .emptyUniverse = true := by decide +kernel

theorem test_V_BIN_1_binEnc : encodes (.binEnc 5) (st 22 0 0) (wire [0, 1, 1, 0, 1]) = true := by decide +kernel

theorem test_V_BIN_2_binEnc : encodes (.binEnc 3) (st 22 0 0) (wire [0, 1, 1]) = true := by decide +kernel

theorem test_V_BIN_11_binDec : decodes (.binDec 5) (view (wire [0, 1, 1, 0, 1]) (st 0 0 0)) 22 5 = true := by decide +kernel

theorem test_V_BIN_13_binDec : decodes (.binDec 0) (view (wire []) (st 0 0 0)) 0 0 = true := by decide +kernel

theorem test_V_BIN_5_binEncU : encodes .binEncU (st 0x75 0x73 0x7A) (wire [0, 1, 0]) = true := by decide +kernel

theorem test_V_BIN_8_binEncU : fails .binEncU (st 9 10 20) .range = true := by decide +kernel

theorem test_V_BIN_15_binDecU : decodes .binDecU (view (wire [1, 1, 1]) (st 0 0x73 0x7A)) 0x7A 3 = true := by decide +kernel

theorem test_V_BIN_16_binDecU : fails .binDecU (view (wire [1, 1, 1]) (st 0 (umax - 4) umax)) .range = true := by decide +kernel

theorem test_V_UNA_1_unaEnc : encodes .unaEnc (st 3 0 0) (wire [1, 1, 1, 0]) = true := by decide +kernel

theorem test_V_UNA_5_unaEnc : fails .unaEnc { st 3 0 0 with obit := 65533 } .sinkFull = true := by decide +kernel

theorem test_V_UNA_11_unaDec : decodes .unaDec (view (wire [1, 1, 1, 0, 0]) (st 0 0 0)) 3 4 = true := by decide +kernel

theorem test_V_UNA_12_unaDec : fails .unaDec (view (wire [1, 1, 1]) (st 0 0 0)) .srcEmpty = true := by decide +kernel

theorem test_V_UNA_3_unaEncU : encodes .unaEncU (st 13 10 20) (wire [1, 1, 1, 0]) = true := by decide +kernel

theorem test_V_UNA_4_unaEncU : encodes .unaEncU (st 10 10 20) (wire [0]) = true := by decide +kernel

theorem test_V_UNA_13_unaDecU : decodes .unaDecU (view (wire [1, 1, 1, 0]) (st 0 10 20)) 13 4 = true := by decide +kernel

theorem test_V_UNA_14_unaDecU : fails .unaDecU (view (wire [1, 1, 1, 1, 1, 1, 1, 1, 1, 1, 1, 0]) (st 0 10 20)) .range = true := by decide +kernel

theorem test_V_GAM_4_gamEnc : encodes .gamEnc (st 16 0 0) (wire [1, 1, 1, 1, 0, 0, 0, 0, 0]) = true := by decide +kernel

theorem test_V_GAM_5_gamEnc : fails .gamEnc (st 0 0 0) .arg = true := by decide +kernel

theorem test_V_GAM_11_gamDec : decodes .gamDec (view (wire [1, 1, 0, 1, 1]) (st 0 0 0)) 7 5 = true := by decide +kernel

theorem test_V_GAM_14_gamDec : fails .gamDec (view (List.replicate 64 true ++ List.replicate 65 false) (st 0 0 0)) .overflow = true := by decide +kernel

theorem test_V_GAM_7_gamEncU : encodes .gamEncU (st 6 0 100) (wire [1, 1, 0, 1, 1]) = true := by decide +kernel

theorem test_V_GAM_9_gamEncU : fails .gamEncU (st umax 0 umax) .arg = true := by decide +kernel

theorem test_V_GAM_16_gamDecU : decodes .gamDecU (view (wire [1, 1, 0, 1, 1]) (st 0 0 100)) 6 5 = true := by decide +kernel

theorem test_V_GAM_17_gamDecU : decodes .gamDecU (view (wire [0]) (st 0 5 5)) 5 1 = true := by decide +kernel

theorem test_V_DEL_3_delEnc : encodes .delEnc (st 8 0 0) (wire [1, 1, 0, 0, 0, 0, 0, 0]) = true := by decide +kernel

theorem test_V_DEL_2_delEnc : encodes .delEnc (st 2 0 0) (wire [1, 0, 0, 0]) = true := by decide +kernel

theorem test_V_DEL_11_delDec : decodes .delDec (view (wire [1, 1, 0, 0, 0, 0, 0, 0]) (st 0 0 0)) 8 8 = true := by decide +kernel

theorem test_V_DEL_14_delDec : fails .delDec (view ((wire [1, 1, 1, 1, 1, 1, 0, 1, 0, 0, 0, 0, 0]) ++ List.replicate 64 false) (st 0 0 0)) .overflow = true := by decide +kernel

theorem test_V_DEL_6_delEncU : encodes .delEncU (st 0x73 0 umax) (wire [1, 1, 0, 1, 1, 0, 0, 1, 0, 1, 1]) = true := by decide +kernel

theorem test_V_DEL_7_delEncU : encodes .delEncU (st 0x7A 0x73 umax) (wire [1, 1, 0, 0, 0, 0, 0, 0]) = true := by decide +kernel

theorem test_V_DEL_15_delDecU : decodes .delDecU (view (wire [1, 1, 0, 0, 0, 0, 0, 0]) (st 0 0x73 umax)) 0x7A 8 = true := by decide +kernel

theorem test_V_RICE_1_riceEnc : encodes (.riceEnc 5) (st 95 0 0) (wire [1, 0, 1, 1, 1, 1, 1, 1]) = true := by decide +kernel

theorem test_V_RICE_5_riceEnc : fails (.riceEnc 0) (st umax 0 0) .arg = true := by decide +kernel

theorem test_V_RICE_11_riceDec : decodes (.riceDec 5) (view (wire [1, 0, 1, 1, 1, 1, 1, 1]) (st 0 0 0)) 95 8 = true := by decide +kernel

theorem test_V_RICE_13_riceDec : fails (.riceDec 3) (view (wire [1, 0, 1, 1]) (st 0 0 0)) .srcEmpty = true := by decide +kernel

theorem test_V_RICE_6_riceEncU : encodes (.riceEncU 5) (st 1095 1000 2000) (wire [1, 0, 1, 1, 1, 1, 1, 1]) = true := by decide +kernel

theorem test_V_RICE_15_riceDecU : decodes (.riceDecU 5) (view (wire [1, 0, 1, 1, 1, 1, 1, 1]) (st 0 1000 2000)) 1095 8 = true := by decide +kernel

theorem test_V_VB_1_vbEnc : encodes (.vbEnc 3) (st 8 0 0) (wire [0, 0, 0, 0, 1, 1, 0, 0]) = true := by decide +kernel

theorem test_V_VB_4_vbEnc : encodes (.vbEnc 7) (st 300 0 0) (wire [0, 0, 0, 1, 1, 0, 1, 0, 1, 0, 1, 0, 0, 0, 0, 0]) = true := by decide +kernel

theorem test_V_VB_12_vbDec : decodes (.vbDec 3) (view (wire [0, 0, 0, 0, 1, 0, 0, 1]) (st 0 0 0)) 32 8 = true := by decide +kernel

theorem test_V_VB_15_vbDec : decodes (.vbDec 3) (view (wire [0, 0, 0, 0, 1, 0, 0, 0]) (st 0 0 0)) 0 8 = true := by decide +kernel

theorem test_V_VB_6_vbEncU : encodes (.vbEncU 3) (st 108 100 200) (wire [0, 0, 0, 0, 1, 1, 0, 0]) = true := by decide +kernel

theorem test_V_VB_19_vbDecU : decodes (.vbDecU 3) (view (wire [0, 0, 0, 0, 1, 1, 0, 0]) (st 0 100 200)) 108 8 = true := by decide +kernel

/-- 44 R290, on the smallest part: every counter of HIST becomes 0, written before or not. -/
theorem test_V_H_1_hClr : (match exec .hClr (State.resetWith smallPart) with
    | .next t => t.hist == [(0, 0), (1, 0)] && t.ecode == .ok
    | _ => false) = true := by decide +kernel

/-- 44 R291: the third H.INC of 95 V-H-2. -/
theorem test_V_H_2_hInc : (match exec .hInc { st 0x78 0 0 with hist := [(0x78, 2)] } with
    | .next t => t.hist == [(0x78, 3)] && t.res0 == 3
    | _ => false) = true := by decide +kernel

theorem test_V_H_3_hInc : fails .hInc { st 5 0 0 with hist := [(5, 4294967295)] } .overflow = true := by decide +kernel

/-- 95 V-H-8, with the two characters of the smallest part: equal counts, so the smaller character is the right
child. -/
theorem test_V_H_8_hBuild : leaves .hBuild (counts 1 1) (.valid pair) 2 3 = true := by decide +kernel

/-- 95 T6 (44 R294, R295): the build of the eight counts of the source's scenario 6. -/
theorem test_V_H_5_build : buildTree [(0x73, 7), (0x74, 7), (0x75, 6), (0x76, 5), (0x77, 4), (0x78, 3), (0x79, 2),
    (0x7A, 1)] = some (.node (.node (.node (.leaf 0x75) (.node (.leaf 0x78) (.node (.leaf 0x79) (.leaf 0x7A))))
      (.node (.leaf 0x76) (.leaf 0x77))) (.node (.leaf 0x74) (.leaf 0x73))) := by decide +kernel

theorem test_V_C_H9_hCode_left : leaves .hCode (holding three (st 0x62 0 0)) (.valid three) 0b01 2 = true := by decide +kernel

theorem test_V_C_2_hCode : fails .hCode (holding three (st 0x74 0 0)) .notInTree = true := by decide +kernel

theorem test_V_C_H9_hEnc : encodes .hEnc (holding three (st 0x62 0 0)) (wire [1, 0]) = true := by decide +kernel

theorem test_V_C_6_hEnc : fails .hEnc { holding three (st 0x62 0 0) with obit := 65535 } .sinkFull = true := by decide +kernel

theorem test_V_C_H9_hDec : decodes .hDec (view (wire [1, 0]) (holding three (st 0 0 0))) 0x62 2 = true := by decide +kernel

theorem test_V_C_9_hDec : fails .hDec (view (wire [1]) (holding three (st 0 0 0))) .srcEmpty = true := by decide +kernel

theorem test_V_S_6_hSer : encodes .hSer (holding three (st 0 0 0)) (wire [0, 1, 0, 1, 1, 1, 1, 0, 1, 1, 0, 1, 0, 0, 0, 1, 1, 0, 0, 1, 0, 1, 1, 0, 0, 0]) = true := by decide +kernel

/-- 95 V-S-2. -/
theorem test_V_S_2_hSer : encodes .hSer { st 0 0 0 with tree := .empty } [true] = true := by decide +kernel

/-- 95 V-S-14. -/
theorem test_V_S_14_hDeser : leaves .hDeser (view (wire [0, 1, 1, 1, 0, 1, 0, 1, 1, 0, 0, 0, 1, 0]) (st 0 0 0)) (.valid (.node (.leaf 6) (.leaf 5))) 2 14 = true := by decide +kernel

theorem test_V_S_15_hDeser : fails .hDeser (view (wire [0, 1, 1, 1, 0, 1, 0, 1, 1, 0, 0, 1, 1, 1, 0, 0]) (st 0 0 0)) .range = true := by decide +kernel

/-! ## The HOST, and the fetch -/

/-- 95 V-M-10: the word, as the HOST writes it to CMD, is rejected before the tree is looked at. -/
theorem test_step_rejects : (match step (State.reset.withFetchWord 64 0x0183) with
    | .next t => t.ecode == .illegal && t.done && t.err && !t.busy
    | _ => false) = true := by decide +kernel

/-- 95 P1: the first command of the program runs right after reset. -/
theorem test_step_runs : (match step ({ State.reset with x := 95 }.withFetchWord 64 0x0550) with
    | .next t => t.obit == 8 && t.res1 == 8
    | _ => false) = true := by decide +kernel

/-- 10_state R42: PARAMS of the vectors' part is 0x10104008 in bits 31:0. -/
theorem test_params : paramsWord Config.reference = 0x10104008 := by decide +kernel

/-- 10_state R38, R41: a write of 8 to STATUS clears WOVR and nothing else. -/
theorem test_status_w1c : writeStatus 8 { State.reset with wovr := true, done := true } =
    { State.reset with done := true } := by decide +kernel

/-- 20_memory R72: the first offset past the counters of CW = 8 is reserved, the last one is counter 255. -/
theorem test_locate : locate Config.reference 0x080800 = .reserved ∧ locate Config.reference 0x0807F8 = .hist 255 := by
  decide +kernel

/-! ## Witnesses: the hypotheses of every statement, met -/

theorem reference_wf : Config.reference.wf := by decide +kernel

theorem reset_inv : State.reset.Inv :=
  ⟨reference_wf, by decide, by decide, by decide, trivial, by decide⟩

theorem three_valid : three.Valid Config.reference := by decide +kernel

theorem holding_inv (x : Nat) : (holding three (st x 0 0)).Inv :=
  ⟨reference_wf, by simp [holding, st, State.reset, State.resetWith, Memory.wf],
    by simp [holding, st, State.reset, State.resetWith, Memory.wf],
    by simp [holding, st, State.reset, State.resetWith, Memory.wf], three_valid, by simp [holding, st, State.reset, State.resetWith]⟩

theorem witness_DecodeEncodeAgree : (Instr.binEnc 64).wf = true ∧ (Instr.riceDecU 63).wf = true ∧
    (Instr.vbEnc 1).wf = true ∧ (Instr.vbDecU 63).wf = true := by decide

theorem witness_EncodeDecodeAgree : decodeWord 0x4010 = .ok (.binEnc 64) ∧ decodeWord 0x87 = .ok .hDeser := by decide

theorem witness_StepRunsDecodedCommand : nextTurn (inFlight 0x550) = .engine ∧ (inFlight 0x550).busy = true ∧
    decodeWord (inFlight 0x550).cmd = .ok (.riceEnc 5) := by decide

theorem witness_StepRejectsOtherWords :
    (nextTurn (inFlight 0x02) = .engine ∧ (inFlight 0x02).busy = true ∧ decodeWord (inFlight 0x02).cmd = .error .illegal) ∧
    (nextTurn (inFlight 0x60) = .engine ∧ (inFlight 0x60).busy = true ∧ decodeWord (inFlight 0x60).cmd = .error .param) := by
  decide

theorem witness_AcceptedCommandRunsNext : Instr.hBuild.wf = true ∧ (Instr.binEnc 64).wf = true := by decide

theorem witness_EngineTurnCompletes : (nextTurn (inFlight 0) = .engine ∧ (inFlight 0).busy = true) ∧
    (nextTurn State.reset = .engine ∧ State.reset.busy = false) := by decide

theorem witness_FailedCommandChangesNothing : (∃ t, exec .gamEnc State.reset = .next t ∧ t.ecode ≠ .ok) ∧
    (∃ t, engineStep (inFlight 0x02) = .next t ∧ t.ecode ≠ .ok) ∧ ∃ t, engineStep (inFlight 0) = .next t ∧ t.ecode = .ok :=
  ⟨⟨completeWith .arg State.reset, rfl, by decide⟩, ⟨completeWith .illegal (inFlight 0x02), rfl, by decide⟩,
    ⟨completeWith .ok (inFlight 0), rfl, rfl⟩⟩

theorem witness_MiscellaneousResults :
    ((st 0 0 umax).ulo.toNat ≤ (st 0 0 umax).uhi.toNat ∧ IsEntropy (st 0 0 umax).ulo.toNat (st 0 0 umax).uhi.toNat 64) ∧
    ((st 0 5 5).ulo.toNat ≤ (st 0 5 5).uhi.toNat ∧ IsEntropy (st 0 5 5).ulo.toNat (st 0 5 5).uhi.toNat 1) ∧
    (st 0 5 4).uhi.toNat < (st 0 5 4).ulo.toNat := by unfold IsEntropy; decide +kernel

theorem witness_BinaryEncodeResults : (st umax 0 0).params.wf ∧
    ((64 : Byte).toNat ≤ 64 ∧ Fits (st umax 0 0) (64 : Byte).toNat) ∧
    ((0 : Byte).toNat ≤ 64 ∧ Fits { st 0 0 0 with obit := 65536 } (0 : Byte).toNat) ∧
    (InUniverse (st 0x7A 0x73 0x7A) 7 ∧ IsEntropy 0x73 0x7A 3 ∧ Fits (st 0x7A 0x73 0x7A) 3) := by
  unfold Fits InUniverse IsEntropy; decide +kernel

theorem witness_BinaryDecodeResults :
    (sourceView (view (wire [0, 1, 1, 0, 1]) (st 0 0 0)) = wire [0, 1, 1, 0, 1] ++ [] ∧ (5 : Byte).toNat ≤ 64 ∧
      (wire [0, 1, 1, 0, 1]).length = (5 : Byte).toNat) ∧
    (sourceView (view (wire [1, 1, 1]) (st 0 0x73 0x7A)) = wire [1, 1, 1] ++ [] ∧
      (st 0 0x73 0x7A).ulo.toNat ≤ (st 0 0x73 0x7A).uhi.toNat ∧
      IsEntropy (st 0 0x73 0x7A).ulo.toNat (st 0 0x73 0x7A).uhi.toNat (wire [1, 1, 1]).length ∧
      (st 0 0x73 0x7A).ulo.toNat + val (wire [1, 1, 1]) ≤ (st 0 0x73 0x7A).uhi.toNat) := by
  unfold IsEntropy; decide +kernel

theorem witness_UnaryEncodeResults : (st 65535 0 0).params.wf ∧ Fits (st 65535 0 0) ((st 65535 0 0).x.toNat + 1) ∧
    (InUniverse (st 20 10 20) 10 ∧ Fits (st 20 10 20) (10 + 1)) := by
  unfold Fits InUniverse; decide +kernel

theorem witness_UnaryDecodeResults :
    sourceView (view (wire [1, 1, 1, 0]) (st 0 10 13)) = List.replicate 3 true ++ false :: [] ∧
    (view (wire [1, 1, 1, 0]) (st 0 10 13)).ulo.toNat + 3 ≤ (view (wire [1, 1, 1, 0]) (st 0 10 13)).uhi.toNat := by
  decide +kernel

theorem witness_GammaEncodeResults : (st umax 1 umax).params.wf ∧ Fits (st umax 1 umax) (2 * 63 + 1) ∧
    IsLog (st umax 1 umax).x.toNat 63 ∧
    (InUniverse (st umax 1 umax) (umax - 1) ∧ umax - 1 ≠ umax ∧ IsLog (umax - 1 + 1) 63) ∧
    (Fits (st 1 0 0) (2 * 0 + 1) ∧ IsLog (st 1 0 0).x.toNat 0) := by
  unfold Fits InUniverse IsLog; decide +kernel

theorem witness_GammaDecodeResults :
    (sourceView (view (wire [1, 1, 0, 1, 1]) (st 0 0 6)) =
        List.replicate (wire [1, 1]).length true ++ false :: (wire [1, 1] ++ []) ∧
      2 ^ (wire [1, 1]).length + val (wire [1, 1]) < 2 ^ 64 ∧
      (st 0 0 6).ulo.toNat + (2 ^ (wire [1, 1]).length + val (wire [1, 1]) - 1) ≤ (st 0 0 6).uhi.toNat) ∧
    (2 ^ (List.replicate 63 true).length + val (List.replicate 63 true) < 2 ^ 64) := by decide +kernel

theorem witness_DeltaEncodeResults : (st umax 1 umax).params.wf ∧ IsLog (63 + 1) 6 ∧
    Fits (st umax 1 umax) (2 * 6 + 1 + 63) ∧ IsLog (st umax 1 umax).x.toNat 63 ∧
    (InUniverse (st umax 1 umax) (umax - 1) ∧ umax - 1 ≠ umax ∧ IsLog (umax - 1 + 1) 63) := by
  unfold Fits InUniverse IsLog; decide +kernel

theorem witness_DeltaDecodeResults :
    sourceView (view (wire [1, 1, 0, 0, 0, 0, 0, 0]) (st 0 0x73 0x7A)) =
      List.replicate (wire [0, 0]).length true ++ false :: (wire [0, 0] ++ (wire [0, 0, 0] ++ [])) ∧
    (wire [0, 0, 0]).length + 1 = 2 ^ (wire [0, 0]).length + val (wire [0, 0]) ∧
    2 ^ (wire [0, 0, 0]).length + val (wire [0, 0, 0]) < 2 ^ 64 ∧
    (st 0 0x73 0x7A).ulo.toNat + (2 ^ (wire [0, 0, 0]).length + val (wire [0, 0, 0]) - 1) ≤
      (st 0 0x73 0x7A).uhi.toNat := by decide +kernel

theorem witness_RiceEncodeResults :
    ((st umax 0 0).params.wf ∧ (63 : Byte).toNat ≤ 63 ∧ Fits (st umax 0 0) (2 * 1 + 1 + (63 : Byte).toNat) ∧
      (st umax 0 0).x.toNat >>> (63 : Byte).toNat ≠ umax ∧ IsLog ((st umax 0 0).x.toNat >>> (63 : Byte).toNat + 1) 1) ∧
    ((0 : Byte).toNat ≤ 63 ∧ Fits (st (umax - 1) 0 0) (2 * 63 + 1 + (0 : Byte).toNat) ∧
      (st (umax - 1) 0 0).x.toNat >>> (0 : Byte).toNat ≠ umax ∧
      IsLog ((st (umax - 1) 0 0).x.toNat >>> (0 : Byte).toNat + 1) 63) ∧
    (InUniverse (st 1095 1000 2000) 95 ∧ 95 >>> (5 : Byte).toNat ≠ umax ∧ IsLog (95 >>> (5 : Byte).toNat + 1) 1 ∧
      Fits (st 1095 1000 2000) (2 * 1 + 1 + (5 : Byte).toNat)) := by
  unfold Fits InUniverse IsLog; decide +kernel

theorem witness_RiceDecodeResults :
    (5 : Byte).toNat ≤ 63 ∧ (wire [1, 1, 1, 1, 1]).length = (5 : Byte).toNat ∧
    sourceView (view (wire [1, 0, 1, 1, 1, 1, 1, 1]) (st 0 1000 1095)) =
      List.replicate (wire [1]).length true ++ false :: (wire [1] ++ (wire [1, 1, 1, 1, 1] ++ [])) ∧
    (2 ^ (wire [1]).length + val (wire [1]) - 1) * 2 ^ (5 : Byte).toNat + val (wire [1, 1, 1, 1, 1]) < 2 ^ 64 ∧
    2 ^ (wire [1]).length + val (wire [1]) < 2 ^ 64 ∧
    (st 0 1000 1095).ulo.toNat +
        ((2 ^ (wire [1]).length + val (wire [1]) - 1) * 2 ^ (5 : Byte).toNat + val (wire [1, 1, 1, 1, 1])) ≤
      (st 0 1000 1095).uhi.toNat := by decide +kernel

theorem witness_VbyteEncodeResults :
    ((st umax 0 0).params.wf ∧ 1 ≤ (63 : Byte).toNat ∧ (63 : Byte).toNat ≤ 63 ∧
      Fits (st umax 0 0) ((1 + 1) * ((63 : Byte).toNat + 1)) ∧ (st umax 0 0).x.toNat < 2 ^ ((1 + 1) * (63 : Byte).toNat) ∧
      (1 = 0 ∨ 2 ^ (1 * (63 : Byte).toNat) ≤ (st umax 0 0).x.toNat)) ∧
    (Fits (st 0 0 0) ((0 + 1) * ((1 : Byte).toNat + 1)) ∧ (st 0 0 0).x.toNat < 2 ^ ((0 + 1) * (1 : Byte).toNat)) ∧
    (InUniverse (st 108 100 200) 8 ∧ 8 < 2 ^ ((1 + 1) * (3 : Byte).toNat) ∧ (1 = 0 ∨ 2 ^ (1 * (3 : Byte).toNat) ≤ 8) ∧
      Fits (st 108 100 200) ((1 + 1) * ((3 : Byte).toNat + 1))) := by
  unfold Fits InUniverse; decide +kernel

theorem witness_VbyteDecodeResults :
    1 ≤ (3 : Byte).toNat ∧ (3 : Byte).toNat ≤ 63 ∧ (∀ a ∈ [wire [0, 0, 0]], a.length = (3 : Byte).toNat) ∧
    (wire [1, 0, 0]).length = (3 : Byte).toNat ∧
    sourceView (view (wire [0, 0, 0, 0, 1, 1, 0, 0]) (st 0 100 108)) =
      ([wire [0, 0, 0]].flatMap fun a => false :: a) ++ true :: (wire [1, 0, 0] ++ []) ∧
    val ([wire [0, 0, 0]].flatten ++ wire [1, 0, 0]) < 2 ^ 64 ∧
    (st 0 100 108).ulo.toNat + val ([wire [0, 0, 0]].flatten ++ wire [1, 0, 0]) ≤ (st 0 100 108).uhi.toNat := by
  decide +kernel

theorem witness_EmptyUniverseRejected : (Instr.vbDecU 63).wf = true ∧ (st 5 5 4).uhi.toNat < (st 5 5 4).ulo.toNat ∧
    Instr.binEncU.wf = true := by decide +kernel

theorem witness_EncoderOutsideUniverse : Instr.binEncU.wf = true ∧
    ((st 9 10 20).ulo.toNat ≤ (st 9 10 20).uhi.toNat ∧ (st 9 10 20).x.toNat < (st 9 10 20).ulo.toNat) ∧
    ((st 21 10 20).ulo.toNat ≤ (st 21 10 20).uhi.toNat ∧ (st 21 10 20).uhi.toNat < (st 21 10 20).x.toNat) := by
  decide +kernel

theorem witness_InvalidCodeArgument : (st 0 0 0).x.toNat = 0 ∧ (st umax 0 umax).ulo.toNat = 0 ∧
    (st umax 0 umax).uhi.toNat = umax ∧ (st umax 0 umax).x.toNat = umax := by decide +kernel

theorem witness_SinkFullWritesNothing :
    ¬ Fits (nearEnd 65533 (st 3 0 0)) ((nearEnd 65533 (st 3 0 0)).x.toNat + 1) ∧
    ((64 : Byte).toNat ≤ 64 ∧ ¬ Fits (nearEnd 65473 (st 0 0 0)) (64 : Byte).toNat ∧
      ¬ Fits (nearEnd 65537 (st 0 0 0)) (0 : Byte).toNat) ∧
    (IsLog (st 1 0 0).x.toNat 0 ∧ ¬ Fits (nearEnd 65536 (st 1 0 0)) (2 * 0 + 1) ∧
      IsLog (st umax 0 0).x.toNat 63 ∧ ¬ Fits (nearEnd 65410 (st umax 0 0)) (2 * 63 + 1) ∧
      IsLog (63 + 1) 6 ∧ ¬ Fits (nearEnd 65461 (st umax 0 0)) (2 * 6 + 1 + 63)) ∧
    ((63 : Byte).toNat ≤ 63 ∧ (st umax 0 0).x.toNat >>> (63 : Byte).toNat ≠ umax ∧
      IsLog ((st umax 0 0).x.toNat >>> (63 : Byte).toNat + 1) 1 ∧
      ¬ Fits (nearEnd 65471 (st umax 0 0)) (2 * 1 + 1 + (63 : Byte).toNat)) ∧
    (1 ≤ (63 : Byte).toNat ∧ (63 : Byte).toNat ≤ 63 ∧ (st umax 0 0).x.toNat < 2 ^ ((1 + 1) * (63 : Byte).toNat) ∧
      2 ^ (1 * (63 : Byte).toNat) ≤ (st umax 0 0).x.toNat ∧
      ¬ Fits (nearEnd 65409 (st umax 0 0)) ((1 + 1) * ((63 : Byte).toNat + 1))) ∧
    (2 ^ (st 0 0 0).params.olog < (nearEnd 65537 (st 0 0 0)).obit.toNat) := by
  unfold Fits IsLog; decide +kernel

theorem witness_SinkFull_universe :
    InUniverse (nearEnd 65533 (st 20 10 20)) 10 ∧
    (IsEntropy (st 20 10 20).ulo.toNat (st 20 10 20).uhi.toNat 4 ∧ ¬ Fits (nearEnd 65533 (st 20 10 20)) 4) ∧
    ¬ Fits (nearEnd 65533 (st 20 10 20)) (10 + 1) ∧
    (10 ≠ umax ∧ IsLog (10 + 1) 3 ∧ ¬ Fits (nearEnd 65533 (st 20 10 20)) (2 * 3 + 1) ∧
      IsLog (3 + 1) 2 ∧ ¬ Fits (nearEnd 65533 (st 20 10 20)) (2 * 2 + 1 + 3)) ∧
    ((1 : Byte).toNat ≤ 63 ∧ 10 >>> (1 : Byte).toNat ≠ umax ∧ IsLog (10 >>> (1 : Byte).toNat + 1) 2 ∧
      ¬ Fits (nearEnd 65533 (st 20 10 20)) (2 * 2 + 1 + (1 : Byte).toNat)) ∧
    (1 ≤ (3 : Byte).toNat ∧ (3 : Byte).toNat ≤ 63 ∧ 10 < 2 ^ ((1 + 1) * (3 : Byte).toNat) ∧
      2 ^ (1 * (3 : Byte).toNat) ≤ 10 ∧ ¬ Fits (nearEnd 65533 (st 20 10 20)) ((1 + 1) * ((3 : Byte).toNat + 1))) := by
  unfold Fits IsLog IsEntropy InUniverse; decide +kernel

theorem witness_SinkFull_tree :
    ((nearEnd 65535 (holding three (st 0x62 0 0))).Inv ∧
      three.follow [true, false] = some (nearEnd 65535 (holding three (st 0x62 0 0))).x.toNat ∧
      ¬ Fits (nearEnd 65535 (holding three (st 0x62 0 0))) [true, false].length) ∧
    ({ State.reset with tree := .empty }.tree = .empty ∧ ¬ Fits (nearEnd 65536 { State.reset with tree := .empty }) 1) ∧
    ((holding three (st 0 0 0)).tree = .valid three ∧ 0x61 ∈ three.alpha ∧ (∀ c ∈ three.alpha, 0x61 ≤ c) ∧
      0x63 ∈ three.alpha ∧ (∀ c ∈ three.alpha, c ≤ 0x63) ∧ IsEntropy 0x61 0x63 2 ∧
      ¬ Fits (nearEnd 65511 (holding three (st 0 0 0))) (three.topo ++ delta (0x61 + 1) ++ delta (0x63 - 0x61 + 1) ++
        three.alpha.flatMap fun c => bitsOf (c - 0x61) 2).length) := by
  refine ⟨⟨holding_inv 0x62, ?_⟩, ?_⟩ <;> unfold Fits <;> try unfold IsEntropy
  all_goals decide +kernel

theorem witness_EmptySourceView :
    (min State.reset.ilen.toNat (2 ^ State.reset.params.ilog) ≤ State.reset.ipos.toNat ∧
      min (5 : Word).toNat (2 ^ State.reset.params.ilog) ≤ (10 : Word).toNat ∧
      (st 0 5 5).ulo.toNat ≤ (st 0 5 5).uhi.toNat ∧
      (holding three State.reset).tree = .valid (.node (.leaf 0x63) (.node (.leaf 0x62) (.leaf 0x61)))) ∧
    ((64 : Byte).toNat ≤ 64 ∧
      (sourceView (view (List.replicate 63 true) (st 0 0 0))).length < (64 : Byte).toNat) ∧
    (IsEntropy (st 0 0x73 0x7A).ulo.toNat (st 0 0x73 0x7A).uhi.toNat 3 ∧
      (sourceView (view (wire [1, 1]) (st 0 0x73 0x7A))).length < 3) ∧
    (∀ b ∈ sourceView (view (wire [1, 1, 1]) (st 0 0 5)), b = true) ∧
    (sourceView (view (wire [1, 0]) (st 0 0 5)) = List.replicate 1 true ++ false :: [] ∧ ([] : BitStr).length < 1) ∧
    (sourceView (view (wire [1, 1, 0, 0, 0, 0, 0]) (st 0 0 5)) = gammaBits (wire [0, 0]) ++ wire [0, 0] ∧
      (wire [0, 0]).length + 1 < gammaValue (wire [0, 0])) ∧
    ((3 : Byte).toNat ≤ 63 ∧ sourceView (view (wire [1, 0, 1, 1]) (st 0 0 5)) = gammaBits (wire [1]) ++ wire [1] ∧
      gammaValue (wire [1]) < 2 ^ 64 ∧ (wire [1]).length < (3 : Byte).toNat) ∧
    (1 ≤ (3 : Byte).toNat ∧ (3 : Byte).toNat ≤ 63 ∧ (∀ d ∈ [wire [0, 0, 0]], d.length = (3 : Byte).toNat) ∧
      sourceView (view (wire [0, 0, 0, 0, 1, 1, 0]) (st 0 0 5)) = blockBits [wire [0, 0, 0]] ++ wire [1, 1, 0] ∧
      (wire [1, 1, 0]).length ≤ (3 : Byte).toNat) ∧
    ((view (wire [1]) (holding three (st 0 0 0))).tree = .valid three ∧
      three.follow (sourceView (view (wire [1]) (holding three (st 0 0 0))) ++ [false]) = some 0x62) := by
  unfold IsEntropy; decide +kernel

theorem witness_DecodedValueTooLarge_elias :
    (sourceView (view (List.replicate 64 true ++ List.replicate 65 false) (st 0 0 0)) =
        gammaBits (List.replicate 64 false) ++ [] ∧ 2 ^ 64 ≤ gammaValue (List.replicate 64 false) ∧ (63 : Byte).toNat ≤ 63) ∧
    (sourceView (view (wire [1, 1, 0, 1, 1]) (st 0 0 5)) = gammaBits (wire [1, 1]) ++ [] ∧
      gammaValue (wire [1, 1]) < 2 ^ 64 ∧ (st 0 0 5).ulo.toNat ≤ (st 0 0 5).uhi.toNat ∧
      (st 0 0 5).uhi.toNat < (st 0 0 5).ulo.toNat + (gammaValue (wire [1, 1]) - 1)) ∧
    (sourceView (view (wire [1, 1, 1, 1, 1, 1, 0, 1, 0, 0, 0, 0, 0] ++ List.replicate 64 false) (st 0 0 0)) =
        gammaBits (wire [1, 0, 0, 0, 0, 0]) ++ (List.replicate 64 false ++ []) ∧
      (List.replicate 64 false).length + 1 = gammaValue (wire [1, 0, 0, 0, 0, 0]) ∧
      2 ^ 64 ≤ gammaValue (List.replicate 64 false)) ∧
    (sourceView (view (wire [1, 1, 0, 0, 0, 0, 0, 0]) (st 0 0x73 0x79)) =
        gammaBits (wire [0, 0]) ++ (wire [0, 0, 0] ++ []) ∧ (wire [0, 0, 0]).length + 1 = gammaValue (wire [0, 0]) ∧
      gammaValue (wire [0, 0, 0]) < 2 ^ 64 ∧ (st 0 0x73 0x79).ulo.toNat ≤ (st 0 0x73 0x79).uhi.toNat ∧
      (st 0 0x73 0x79).uhi.toNat < (st 0 0x73 0x79).ulo.toNat + (gammaValue (wire [0, 0, 0]) - 1)) := by decide +kernel

theorem witness_DecodedValueTooLarge_blocks :
    ((63 : Byte).toNat ≤ 63 ∧ (List.replicate 63 false).length = (63 : Byte).toNat ∧
      sourceView (view (wire [1, 0, 1] ++ List.replicate 63 false) (st 0 0 0)) =
        gammaBits (wire [1]) ++ (List.replicate 63 false ++ []) ∧ gammaValue (wire [1]) < 2 ^ 64 ∧
      2 ^ 64 ≤ (gammaValue (wire [1]) - 1) * 2 ^ (63 : Byte).toNat + val (List.replicate 63 false)) ∧
    (sourceView (view (wire [1, 0, 1, 1, 1, 1, 1, 1]) (st 0 1000 1094)) =
        gammaBits (wire [1]) ++ (wire [1, 1, 1, 1, 1] ++ []) ∧
      (st 0 1000 1094).ulo.toNat ≤ (st 0 1000 1094).uhi.toNat ∧ (st 0 1000 1094).uhi.toNat <
        (st 0 1000 1094).ulo.toNat + ((gammaValue (wire [1]) - 1) * 2 ^ (5 : Byte).toNat + val (wire [1, 1, 1, 1, 1]))) ∧
    (sourceView (view (List.replicate 64 false ++ wire [1, 0, 1] ++ List.replicate 61 false) (st 0 0 0)) =
        blockBits [List.replicate 63 false] ++ true :: (wire [0, 1] ++ List.replicate 61 false ++ []) ∧
      (wire [0, 1] ++ List.replicate 61 false).length = (63 : Byte).toNat ∧
      2 ^ 64 ≤ val ([List.replicate 63 false].flatten ++ (wire [0, 1] ++ List.replicate 61 false))) ∧
    (1 ≤ (3 : Byte).toNat ∧ (∀ a ∈ [wire [0, 0, 0]], a.length = (3 : Byte).toNat) ∧
      sourceView (view (wire [0, 0, 0, 0, 1, 1, 0, 0]) (st 0 100 107)) =
        blockBits [wire [0, 0, 0]] ++ true :: (wire [1, 0, 0] ++ []) ∧
      (st 0 100 107).uhi.toNat < (st 0 100 107).ulo.toNat + val ([wire [0, 0, 0]].flatten ++ wire [1, 0, 0])) ∧
    (sourceView (view (wire [1, 1, 1, 0]) (st 0 10 12)) = List.replicate 3 true ++ false :: [] ∧
      (st 0 10 12).ulo.toNat ≤ (st 0 10 12).uhi.toNat ∧ (st 0 10 12).uhi.toNat < (st 0 10 12).ulo.toNat + 3) ∧
    (sourceView (view (wire [1, 1, 1]) (st 0 (umax - 4) umax)) = wire [1, 1, 1] ++ [] ∧
      IsEntropy (st 0 (umax - 4) umax).ulo.toNat (st 0 (umax - 4) umax).uhi.toNat (wire [1, 1, 1]).length ∧
      (st 0 (umax - 4) umax).uhi.toNat < (st 0 (umax - 4) umax).ulo.toNat + val (wire [1, 1, 1])) := by
  unfold IsEntropy; decide +kernel

theorem witness_BinaryRoundTrip :
    ((5 : Byte).toNat ≤ 64 ∧ (st 22 0 0).x.toNat < 2 ^ (5 : Byte).toNat ∧
      feeds (.binEnc 5) (st 22 0 0) (view (wire [0, 1, 1, 0, 1, 1]) (st 0 0 0)) = true) ∧
    feeds .binEncU (st 0x7A 0x73 0x7A) (view (wire [1, 1, 1]) (st 0 0x73 0x7A)) = true := by decide +kernel

theorem witness_UnaryRoundTrip : feeds .unaEnc (st 3 0 0) (view (wire [1, 1, 1, 0]) (st 0 0 0)) = true ∧
    feeds .unaEncU (st 13 10 20) (view (wire [1, 1, 1, 0]) (st 0 10 20)) = true := by decide +kernel

theorem witness_EliasRoundTrip : feeds .gamEnc (st 7 0 0) (view (wire [1, 1, 0, 1, 1]) (st 0 0 0)) = true ∧
    feeds .gamEncU (st 6 0 100) (view (wire [1, 1, 0, 1, 1]) (st 0 0 100)) = true ∧
    feeds .delEnc (st 2 0 0) (view (wire [1, 0, 0, 0]) (st 0 0 0)) = true ∧
    feeds .delEncU (st 1 0 9) (view (wire [1, 0, 0, 0]) (st 0 0 9)) = true := by decide +kernel

theorem witness_RiceRoundTrip : (5 : Byte).toNat ≤ 63 ∧
    feeds (.riceEnc 5) (st 95 0 0) (view (wire [1, 0, 1, 1, 1, 1, 1, 1]) (st 0 0 0)) = true ∧
    feeds (.riceEncU 5) (st 1095 1000 2000) (view (wire [1, 0, 1, 1, 1, 1, 1, 1]) (st 0 1000 2000)) = true := by
  decide +kernel

theorem witness_VbyteRoundTrip : 1 ≤ (3 : Byte).toNat ∧ (3 : Byte).toNat ≤ 63 ∧
    feeds (.vbEnc 3) (st 8 0 0) (view (wire [0, 0, 0, 0, 1, 1, 0, 0]) (st 0 0 0)) = true ∧
    feeds (.vbEncU 3) (st 108 100 200) (view (wire [0, 0, 0, 0, 1, 1, 0, 0]) (st 0 100 200)) = true := by decide +kernel

theorem witness_CursorChaining :
    ∃ t, exec .unaDec (view (wire [1, 0, 1]) (State.resetWith smallPart)) = .next t ∧ t.ecode = .ok ∧ smallPart.wf ∧
      (∀ j, j < 2 ^ smallPart.ilog / 64 →
        (Memory.get? (view (wire [1, 0, 1]) (State.resetWith smallPart)).ibuf j).isSome) := by
  refine ⟨_, rfl, ?_⟩
  decide +kernel

theorem witness_HistogramCommands :
    ((st 255 0 0).x.toNat < 2 ^ (st 255 0 0).params.cw ∧
      (histCount { st 255 0 0 with hist := [(255, 4294967294)] } (st 255 0 0).x.toNat).toNat < 2 ^ 32 - 1) ∧
    2 ^ (st 256 0 0).params.cw ≤ (st 256 0 0).x.toNat ∧
    (histCount { st 255 0 0 with hist := [(255, 4294967295)] } (st 255 0 0).x.toNat).toNat = 2 ^ 32 - 1 := by
  decide +kernel

theorem witness_HBuildSmall : smallPart.wf ∧ countedChars (counts 0 0) = [] ∧ countedChars (counts 5 0) = [0] ∧
    countedChars (counts 0 5) = [1] := by decide +kernel

theorem witness_HBuildResult : smallPart.wf ∧ 2 ≤ (countedChars (counts 1 2)).length := by decide +kernel

theorem witness_BuiltTreeCanonical : smallPart.wf ∧
    buildTree (withSynthetic smallPart.cw (histLeaves (counts 1 2))) = some pair ∧
    buildTree (withSynthetic smallPart.cw (histLeaves (counts 1 1))) = some pair ∧
    (∃ t, exec .hBuild (counts 1 2) = .next t ∧ t.ecode = .ok ∧ t.tree = .valid pair) ∧
    (.node (.leaf 1) (.leaf 0)) ∈ pair.subtrees := by
  refine ⟨by decide +kernel, by decide +kernel, by decide +kernel, ⟨_, rfl, ?_⟩, by decide +kernel⟩
  decide +kernel

/-- The lists of different characters of the smallest part. -/
theorem small_lists {l : List Nat} (h : l.Nodup) (hc : ∀ c ∈ l, c < 2) : l ∈ [[], [0], [1], [0, 1], [1, 0]] := by
  match l with
  | [] => simp
  | [a] => have := hc a (by simp); simp; omega
  | [a, b] =>
    have := hc a (by simp)
    have := hc b (by simp)
    simp at h ⊢
    omega
  | a :: b :: c :: l =>
    have := hc a (by simp)
    have := hc b (by simp)
    have := hc c (by simp)
    simp at h
    omega

/-- The counts (1, 3) order all disjoint sets of characters as (1, 2) does, and are not those scaled. -/
theorem witness_BuildScaleInvariant_order (a b : List Nat) (h : (a ++ b).Nodup)
    (hc : ∀ c ∈ a ++ b, c < 2 ^ (counts 1 2).params.cw) :
    countSum (counts 1 3) a < countSum (counts 1 3) b ↔ countSum (counts 1 2) a < countSum (counts 1 2) b := by
  have ha := small_lists (List.nodup_append.1 h).1 fun c m => hc c (by simp [m])
  have hb := small_lists (List.nodup_append.1 h).2.1 fun c m => hc c (by simp [m])
  have all : ∀ a ∈ [[], [0], [1], [0, 1], [1, 0]], ∀ b ∈ [[], [0], [1], [0, 1], [1, 0]], (a ++ b).Nodup →
      (countSum (counts 1 3) a < countSum (counts 1 3) b ↔ countSum (counts 1 2) a < countSum (counts 1 2) b) := by
    decide +kernel
  exact all a ha b hb h

theorem witness_BuildScaleInvariant : 0 < 3 ∧ (counts 3 6).params = (counts 1 2).params ∧
    (counts 1 3).params = (counts 1 2).params ∧
    (∀ c, c < 2 ^ (counts 1 2).params.cw → (histCount (counts 3 6) c).toNat = 3 * (histCount (counts 1 2) c).toNat) := by
  decide +kernel

theorem witness_CodewordOfX : (holding three (st 0x62 0 0)).Inv ∧ (holding three (st 0x62 0 0)).tree = .valid three ∧
    three.follow [true, false] = some (holding three (st 0x62 0 0)).x.toNat ∧
    Fits (holding three (st 0x62 0 0)) [true, false].length :=
  ⟨holding_inv _, rfl, by decide +kernel, by unfold Fits; decide +kernel⟩

theorem walking_inv : (view (wire [1, 0]) (holding three (st 0 0 0))).Inv :=
  ⟨reference_wf, by simp [view, holding, st, State.reset, State.resetWith, Memory.wf],
    by simp [view, holding, st, State.reset, State.resetWith, Memory.wf], by decide +kernel, three_valid,
    by simp [view, holding, st, State.reset, State.resetWith]⟩

theorem witness_PrefixAndDecodeLaw : (view (wire [1, 0]) (holding three (st 0 0 0))).Inv ∧
    (view (wire [1, 0]) (holding three (st 0 0 0))).tree = .valid three ∧
    (three.follow [true, false] = some 0x62 ∧ [true, false] <+: [true, false]) ∧
    sourceView (view (wire [1, 0]) (holding three (st 0 0 0))) = [true, false] ++ [] :=
  ⟨walking_inv, rfl, by decide +kernel, by decide +kernel⟩

theorem witness_TreeCommandErrors : State.reset.tree = .none ∧ { State.reset with tree := .empty }.tree = .empty ∧
    (holding three (st 0x74 0 0)).tree = .valid three ∧ (holding three (st 0x74 0 0)).x.toNat ∉ three.alpha := by
  decide +kernel

theorem witness_HSerResult : (holding three (st 0 0 0)).Inv ∧ (holding three (st 0 0 0)).tree = .valid three ∧
    0x61 ∈ three.alpha ∧ (∀ c ∈ three.alpha, 0x61 ≤ c) ∧ 0x63 ∈ three.alpha ∧ (∀ c ∈ three.alpha, c ≤ 0x63) ∧
    IsEntropy 0x61 0x63 2 ∧
    Fits (holding three (st 0 0 0)) (three.topo ++ delta (0x61 + 1) ++ delta (0x63 - 0x61 + 1) ++
      three.alpha.flatMap fun c => bitsOf (c - 0x61) 2).length ∧
    ({ State.reset with tree := .empty }.Inv ∧ Fits { State.reset with tree := .empty } 1) :=
  ⟨holding_inv _, rfl, by decide, by decide, by decide, by decide, by unfold IsEntropy; decide +kernel,
    by unfold Fits; decide +kernel, ⟨reference_wf, by decide, by decide, by decide, trivial, by decide⟩,
    by unfold Fits; decide +kernel⟩

theorem witness_HDeserEmpty : sourceView (view (wire [1, 0, 1]) (st 0 0 0)) = true :: wire [0, 1] := by decide +kernel

/-- A tree of n + 1 leaves, the deepest n edges down. -/
def comb : Nat → Machine.Tree
  | 0 => .leaf 0
  | n + 1 => .node (.leaf (n + 1)) (comb n)

/-- The string of a tree with the ends lo and hi, the characters in e bits each (45 R331). -/
def serial (b : Machine.Tree) (lo hi e : Nat) : BitStr :=
  b.topo ++ delta (lo + 1) ++ delta (hi - lo + 1) ++ b.alpha.flatMap fun c => bitsOf (c - lo) e

theorem witness_HDeserTree :
    ((st 0 0 0).params.wf ∧ (2 ≤ pair.alpha.length ∧ pair.nodes < 2 ^ ((st 0 0 0).params.cw + 1) ∧ pair.alpha.Nodup ∧
      (∀ c ∈ pair.alpha, 0 ≤ c ∧ c ≤ 7 ∧ c < 2 ^ (st 0 0 0).params.cw) ∧ 7 ≤ umax ∧ 7 - 0 + 1 < 2 ^ 64 ∧
      IsEntropy 0 7 3 ∧ pair.depth ≤ 64) ∧
      sourceView (view (serial pair 0 7 3 ++ [true]) (st 0 0 0)) = serial pair 0 7 3 ++ [true]) ∧
    (sourceView (view (serial pair 0 7 3).dropLast (st 0 0 0)) ++ [false] = serial pair 0 7 3) ∧
    (sourceView (view [] (st 0 0 0)) ++ serial pair 0 7 3 = serial pair 0 7 3) ∧
    (2 ≤ (comb 65).alpha.length ∧ (comb 65).nodes < 2 ^ ((st 0 0 0).params.cw + 1) ∧ (comb 65).alpha.Nodup ∧
      (∀ c ∈ (comb 65).alpha, 0 ≤ c ∧ c ≤ 65 ∧ c < 2 ^ (st 0 0 0).params.cw) ∧ IsEntropy 0 65 7 ∧
      64 < (comb 65).depth ∧ sourceView (view (serial (comb 65) 0 65 7) (st 0 0 0)) = serial (comb 65) 0 65 7 ++ []) := by
  unfold IsEntropy; decide +kernel

/-- Every topology has a leaf. -/
theorem topo_leaf (b : Machine.Tree) : true ∈ b.topo := by
  induction b <;> simp_all [Tree.topo]

theorem witness_HDeserTree_topology (n : Nat) (h : n ≤ 4) (b : Machine.Tree)
    (p : b.topo <+: sourceView (view (List.replicate n false) (State.resetWith smallPart))) :
    2 ^ (smallPart.cw + 1) ≤ b.topo.length := by
  have e : sourceView (view (List.replicate n false) (State.resetWith smallPart)) = List.replicate n false := by
    clear p; revert n; decide +kernel
  exact absurd (List.eq_of_mem_replicate (e ▸ p.subset (topo_leaf b))) (by decide)

theorem witness_HDeserTree_lengths : smallPart.wf ∧
    (sourceView (view (List.replicate 3 false) (State.resetWith smallPart))).length < 2 ^ (smallPart.cw + 1) ∧
    2 ^ (smallPart.cw + 1) ≤ (sourceView (view (List.replicate 4 false) (State.resetWith smallPart))).length := by
  decide +kernel

theorem witness_HDeserTree_ends :
    (2 ≤ pair.alpha.length ∧ pair.nodes < 2 ^ ((st 0 0 0).params.cw + 1)) ∧
    sourceView (view (pair.topo ++ delta (2 ^ 64)) (st 0 0 0)) = pair.topo ++ (delta (2 ^ 64) ++ []) ∧
    (5 < umax ∧ sourceView (view (pair.topo ++ (delta 6 ++ delta (2 ^ 64))) (st 0 0 0)) =
      pair.topo ++ (delta (5 + 1) ++ delta (2 ^ 64) ++ [])) ∧
    (umax - 1 < umax ∧ 2 < umax ∧ umax < umax - 1 + 2 ∧
      sourceView (view (pair.topo ++ (delta umax ++ delta 3)) (st 0 0 0)) =
        pair.topo ++ (delta (umax - 1 + 1) ++ delta (2 + 1) ++ [])) := by decide +kernel

theorem witness_HDeserTree_characters :
    (IsEntropy 5 7 2 ∧ 8 - 5 < 2 ^ 2 ∧ 7 < 8 ∧ sourceView (view (pair.topo ++ (delta 6 ++ delta 3 ++ wire [1, 1])) (st 0 0 0)) =
      pair.topo ++ (delta (5 + 1) ++ delta (7 - 5 + 1) ++ (([] : List Nat).flatMap fun d => bitsOf (d - 5) 2) ++
        bitsOf (8 - 5) 2 ++ [])) ∧
    (IsEntropy 250 300 6 ∧ 256 - 250 < 2 ^ 6 ∧ 2 ^ (st 0 0 0).params.cw ≤ 256 ∧
      sourceView (view (pair.topo ++ (delta 251 ++ delta 51 ++ wire [0, 1, 1, 0, 0, 0])) (st 0 0 0)) =
      pair.topo ++ (delta (250 + 1) ++ delta (300 - 250 + 1) ++ (([] : List Nat).flatMap fun d => bitsOf (d - 250) 6) ++
        bitsOf (256 - 250) 6 ++ [])) ∧
    ([5].length < pair.alpha.length ∧ [5].Nodup ∧ (∀ d ∈ [5], 5 ≤ d ∧ d ≤ 6 ∧ d < 2 ^ (st 0 0 0).params.cw) ∧
      IsEntropy 5 6 1 ∧ 5 ∈ [5] ∧ sourceView (view (pair.topo ++ (delta 6 ++ delta 2 ++ wire [0, 0])) (st 0 0 0)) =
      pair.topo ++ (delta (5 + 1) ++ delta (6 - 5 + 1) ++ ([5].flatMap fun d => bitsOf (d - 5) 1) ++
        bitsOf (5 - 5) 1 ++ [])) := by unfold IsEntropy; decide +kernel

theorem witness_HuffmanRoundTrip :
    ((st 0 0 0).params.wf ∧ (TreeState.valid three).Valid Config.reference ∧
      serialize (.valid three) = .ok (three.ser, 3) ∧ three.ser <+: sourceView (view three.ser (st 0 0 0))) ∧
    ((TreeState.empty).Valid Config.reference ∧ serialize .empty = .ok ([true], 0) ∧
      [true] <+: sourceView (view (wire [1, 0]) (st 0 0 0))) ∧
    ((holding three (st 0x62 0 0)).Inv ∧
      feeds .hSer (holding three (st 0x62 0 0)) (view three.ser (st 0x62 0 0)) = true ∧
      (view three.ser (st 0x62 0 0)).params = (holding three (st 0x62 0 0)).params) ∧
    (feeds .hEnc (holding three (st 0x62 0 0)) (view (wire [1, 0, 1]) (holding three (st 0x62 0 0))) = true ∧
      (view (wire [1, 0, 1]) (holding three (st 0x62 0 0))).tree = (holding three (st 0x62 0 0)).tree) :=
  ⟨⟨reference_wf, three_valid, by decide +kernel, by decide +kernel⟩,
    ⟨trivial, rfl, by decide +kernel⟩, ⟨holding_inv _, by decide +kernel, rfl⟩, by decide +kernel, rfl⟩

theorem witness_StepKeepsInvariant : State.reset.Inv ∧ step State.reset = .next State.reset := ⟨reset_inv, rfl⟩

theorem witness_ResetState : smallPart.wf ∧ Config.reference.wf ∧
    ({ cw := 16, olog := 23, ilog := 23, base := 2 ^ 22 } : Config.Params).wf ∧
    nextTurn { inFlight 0x550 with turns := [.hardReset] } = .hardReset := by decide +kernel

theorem witness_SoftReset : (2 : Word).getLsbD 1 = true ∧ (3 : Word).getLsbD 1 = true := by decide +kernel

theorem witness_IdleWritesStore : State.reset.busy = false ∧ (1 : Word).getLsbD 1 = false := by decide +kernel

theorem witness_BusyWritesDropped : (inFlight 0).params.wf ∧ (inFlight 0).busy = true ∧
    (0x058 % 8 = 0 ∧ 0x058 ∈ [0x018, 0x020, 0x028, 0x030, 0x048, 0x050, 0x058]) ∧
    (0x0807F8 % 8 = 0 ∧ 0x080000 ≤ 0x0807F8 ∧ 0x0807F8 < 0x080000 + 8 * 2 ^ (inFlight 0).params.cw) ∧
    (0x201FF8 % 8 = 0 ∧ 0x200000 ≤ 0x201FF8 ∧ 0x201FF8 < 0x200000 + 2 ^ (inFlight 0).params.ilog / 8) ∧
    (0x008 % 8 = 0 ∧ 0x010 % 8 = 0 ∧ 0x010 < 2 ^ 22) ∧
    (0x040 % 8 = 0 ∧ 0x040 ∈ [0x000, 0x038, 0x040, 0x060]) ∧
    (0x068 % 8 = 0 ∧ 0x068 ≤ 0x068 ∧ 0x07FFF8 % 8 = 0 ∧ 0x07FFF8 < 0x080000) ∧
    (0x080800 % 8 = 0 ∧ 0x080000 + 8 * 2 ^ (inFlight 0).params.cw ≤ 0x080800 ∧ 0x1FFFF8 % 8 = 0 ∧ 0x1FFFF8 < 0x200000) ∧
    (0x202000 % 8 = 0 ∧ 0x200000 + 2 ^ (inFlight 0).params.ilog / 8 ≤ 0x202000 ∧ 0x3FFFF8 < 2 ^ 22) := by decide +kernel

theorem witness_InputsTakenAtAcceptance : (inFlight 0).busy = true ∧ 0x020 ≠ 0x008 ∧ 0x020 ≠ 0x010 ∧
    ∃ u, hostStep (inFlight 0) (.write ((inFlight 0).params.base + 0x020) 8 7) = .next u :=
  ⟨rfl, by decide, by decide, _, rfl⟩

theorem witness_BusErrorChangesNothing : (0x3FFFFF < 2 ^ 22 ∧ (8 ≠ 8 ∨ 0x3FFFFF % 8 ≠ 0)) ∧
    (0x020 < 2 ^ 22 ∧ (4 ≠ 8 ∨ 0x020 % 8 ≠ 0)) := by decide

theorem witness_ReservedOffsets : State.reset.params.wf ∧ 0x068 < 0x080000 ∧
    (0x080000 + 8 * 2 ^ State.reset.params.cw ≤ 0x080800 ∧ 0x080800 < 0x100000) ∧
    (0x100000 + 2 ^ State.reset.params.olog / 8 ≤ 0x102000 ∧ 0x102000 < 0x200000) ∧
    (0x200000 + 2 ^ State.reset.params.ilog / 8 ≤ 0x202000 ∧ 0x202000 < 2 ^ 22) := by decide +kernel

theorem witness_RegisterReads : State.reset.params.wf ∧ State.reset.busy = false ∧
    ((State.reset.tree = .none ∧ 0 = 0) ∧ (State.reset.ecode, 0) ∈ [(ErrCode.ok, 0)]) ∧
    ((∃ b, (holding three State.reset).tree = .valid b) ∧
      ({ holding three State.reset with ecode := .codeLen }.ecode, 12) ∈ [(ErrCode.codeLen, 12)]) :=
  ⟨reference_wf, rfl, by decide, ⟨three, rfl⟩, by decide⟩

theorem witness_ReadsWhileBusy : (inFlight 0).params.wf ∧ (inFlight 0).busy = true ∧
    1023 < 2 ^ (inFlight 0).params.ilog / 64 ∧ 0x038 ∈ [0x038, 0x040, 0x048, 0x050] ∧
    (0x0807F8 % 8 = 0 ∧ 0x0807F8 < 0x080000 + 8 * 2 ^ (inFlight 0).params.cw) ∧
    (0x101FF8 % 8 = 0 ∧ 0x101FF8 < 0x100000 + 2 ^ (inFlight 0).params.olog / 8) := by decide +kernel

theorem witness_WindowsReadBack : State.reset.params.wf ∧ State.reset.busy = false ∧
    255 < 2 ^ State.reset.params.cw ∧ 1023 < 2 ^ State.reset.params.ilog / 64 ∧
    1023 < 2 ^ State.reset.params.olog / 64 := by decide +kernel

theorem witness_StreamBitMapping : State.reset.params.wf ∧ State.reset.busy = false ∧
    65535 < 2 ^ State.reset.params.olog ∧ 65535 < 2 ^ State.reset.params.ilog := by decide +kernel

end Sys2Proof.Tests
end

section
/-! PROOFS. The memory family: offsets of the window that hold nothing (20_memory R72). -/

namespace Sys2Proof.Machine

/-- A read of a place that holds nothing answers 0 (20_memory R72, R81). -/
theorem hostReads_reserved {s : State} {off : Nat} (h : off < 2 ^ 22) (h8 : off % 8 = 0)
    (hl : locate s.params off = .reserved) : HostReads s off 0 :=
  ⟨s.draws + 1, by rw [hostStep_read s h h8, hl]; rfl⟩

/-- A write to a place that holds nothing is ignored, BUSY or not (20_memory R72). -/
theorem hostWrites_reserved {s : State} {off : Nat} (v : Word) (h : off < 2 ^ 22) (h8 : off % 8 = 0)
    (hl : locate s.params off = .reserved) : HostWrites s off v s :=
  ⟨.written, by rw [hostStep_write s v h h8, hl]; rfl⟩

/-- Settles O55: the address map sends each such offset to the reserved place (`locate_reserved`). -/
theorem reservedOffsets : Obligations.ReservedOffsets := by
  intro s off v hp h h8 h68 hr
  have hl : locate s.params off = .reserved := locate_reserved hp h8 h68 hr
  exact ⟨hostReads_reserved h h8 hl, hostWrites_reserved v h h8 hl⟩

end Sys2Proof.Machine
end

section
/-! PROOFS. The universe operand: an empty universe is raised before any stream bit (40_bitio_universe_binary R143). -/

namespace Sys2Proof.Machine

/-- A command that starts with the universe check ends at it when ULO > UHI, whatever it does next. -/
theorem raises_emptyUniverse {i : Instr} {s : State} {f : Unit → Except ErrCode State}
    (hu : s.uhi.toNat < s.ulo.toNat) (h : exec i s = complete s (checkUniverse s >>= f)) :
    Raises i s .emptyUniverse :=
  raises_of_error (by decide) h (by rw [checkUniverse_error hu, Except.error_bind])

/-- A legal K brings a command that checks K first to its universe check. -/
theorem raises_emptyUniverse_of_legalK {i : Instr} {s : State} {legal : Bool} {f : Unit → Except ErrCode State}
    (hk : legal = true) (hu : s.uhi.toNat < s.ulo.toNat)
    (h : exec i s = complete s (checkK legal >>= fun _ => checkUniverse s >>= f)) : Raises i s .emptyUniverse :=
  raises_emptyUniverse hu (by rw [h, hk, checkK_true, Except.ok_bind])

/-- Settles O24: each of these commands is its universe check and then something, the Rice and Vbyte forms behind the
check of their K. -/
theorem emptyUniverseRejected : Obligations.EmptyUniverseRejected := by
  intro i s hwf hu hi
  rcases hi with rfl | rfl | rfl | rfl | rfl | rfl | rfl | rfl | rfl | ⟨p, rfl⟩ | ⟨p, rfl⟩ | ⟨b, rfl⟩ | ⟨b, rfl⟩
  iterate 9 exact raises_emptyUniverse hu rfl
  · exact raises_emptyUniverse_of_legalK hwf hu rfl
  · exact raises_emptyUniverse_of_legalK hwf hu rfl
  · exact raises_emptyUniverse_of_legalK hwf hu rfl
  · exact raises_emptyUniverse_of_legalK hwf hu rfl

end Sys2Proof.Machine
end

section
/-! PROOFS. The Huffman code family: the prefix property and the decode law of a held tree (43_huffman_code R262). -/

namespace Sys2Proof.Machine

/-- A path to a leaf continues no other path to a leaf: on a source that holds the longer one, the walk ends where the
shorter one does, so nothing is left over. -/
theorem Tree.follow_prefixFree {t : Tree} {a b : BitStr} {c d : Nat} (ha : t.follow a = some c)
    (hb : t.follow b = some d) (hab : a <+: b) : a = b ∧ c = d := by
  obtain ⟨x, rfl⟩ := hab
  have stopsAtShort := Tree.walk_append ha x 0
  have stopsAtLong := Tree.walk_append hb [] 0
  rw [List.append_nil, stopsAtShort] at stopsAtLong
  simp only [Except.ok.injEq, Prod.mk.injEq, Src.mk.injEq] at stopsAtLong
  obtain ⟨hcd, hx, -⟩ := stopsAtLong
  exact ⟨by rw [hx, List.append_nil], hcd⟩

theorem heldTree_valid {s : State} {t : Tree} (h : s.tree = .valid t) : heldTree s = .ok t := by
  simp only [heldTree, h]

/-- A character of a held tree fits a register (10_state R50 (iv), 00_scope R8). -/
theorem State.Inv.char_lt {s : State} {t : Tree} (hi : s.Inv) (ht : s.tree = .valid t) {c : Nat} (hc : c ∈ t.alpha) :
    c < 2 ^ 64 := by
  obtain ⟨⟨-, hcw, -⟩, -, -, -, htree, -⟩ := hi
  rw [ht] at htree
  obtain ⟨-, -, -, -, hchars, -⟩ := htree
  calc c < 2 ^ s.params.cw := hchars c hc
    _ ≤ 2 ^ 64 := Nat.pow_le_pow_right (by decide) (by omega)

/-- H.DEC is the walk of the held tree over the source view (43 R265). -/
theorem execHDec_valid {s : State} {t : Tree} (ht : s.tree = .valid t) {c : Nat} {src : Src}
    (hw : t.walk (source s) = .ok (c, src)) :
    exec .hDec s = .next (completeWith .ok (decoderCommit c src s)) := by
  simp only [exec, execHDec, heldTree_valid ht, Except.ok_bind, hw, complete_ok]

/-- H.DEC on a view that begins with the path to c gives c (43 R262). -/
theorem hDec_decoded {s : State} {t : Tree} (hi : s.Inv) (ht : s.tree = .valid t) {a rest : BitStr} {c : Nat}
    (ha : t.follow a = some c) (hv : sourceView s = a ++ rest) :
    ∃ u, exec .hDec s = .next u ∧ Decoded c a.length s u := by
  have hw : t.walk (source s) = .ok (c, { bits := rest, q := 0 + a.length }) := by
    rw [source_eq hv]; exact Tree.walk_append ha rest 0
  exact ⟨_, execHDec_valid ht hw,
    decoded_commit hv rfl (Nat.zero_add _) (hi.char_lt ht (Tree.mem_of_follow ha))⟩

/-- Settles O42: the walk stops at the first leaf it meets (`Tree.follow_prefixFree`), and H.DEC is that walk
(`hDec_decoded`). -/
theorem prefixAndDecodeLaw : Obligations.PrefixAndDecodeLaw := by
  intro s t hi ht
  exact ⟨fun a b c d => Tree.follow_prefixFree, fun a rest c => hDec_decoded hi ht⟩

end Sys2Proof.Machine
end

section
/-! PROOFS. The tree builder family: the canonical invariants of a built tree (44_huffman_build R296). -/

namespace Sys2Proof.Machine

/-! ## Canonical trees -/

/-- Between siblings of equal weight: of a leaf and an inner node the inner node is on the right, and of two leaves the
smaller character (44 R296 (ii), (iii)). -/
def TieBroken : Tree → Tree → Prop
  | .leaf c, .leaf d => d < c
  | .leaf _, .node _ _ => True
  | .node _ _, .leaf _ => False
  | .node _ _, .node _ _ => True

/-- The invariants R296 puts on the children l and r of one inner node. -/
def SiblingsOrdered (f : Nat → Nat) (l r : Tree) : Prop :=
  r.weight f ≤ l.weight f ∧ (r.weight f = l.weight f → TieBroken l r)

/-- A tree with the invariants of R296 at every inner node. -/
def Tree.Canonical (f : Nat → Nat) (t : Tree) : Prop := ∀ l r, .node l r ∈ t.subtrees → SiblingsOrdered f l r

theorem Tree.canonical_leaf (f : Nat → Nat) (c : Nat) : (Tree.leaf c).Canonical f := by
  simp [Tree.Canonical, Tree.subtrees]

theorem Tree.canonical_node {f : Nat → Nat} {l r : Tree} (h : SiblingsOrdered f l r) (hl : l.Canonical f)
    (hr : r.Canonical f) : (Tree.node l r).Canonical f := by
  intro a b hab
  simp only [Tree.subtrees, List.mem_cons, Tree.node.injEq, List.mem_append] at hab
  rcases hab with ⟨rfl, rfl⟩ | hab | hab
  · exact h
  · exact hl a b hab
  · exact hr a b hab

/-! ## The queue's entries -/

/-- What the entries of the build's queue are under the counts f: the key speaks of the tree, and the tree is
canonical (44 R294, R296). -/
structure Entry.Sound (f : Nat → Nat) (e : Entry) : Prop where
  freq_eq : e.freq = e.tree.weight f
  leaf_key : ∀ c, e.tree = .leaf c → e.kind = 1 ∧ e.tb = c
  node_key : ∀ l r, e.tree = .node l r → e.kind = 0
  canonical : e.tree.Canonical f

theorem leafEntry_sound {f : Nat → Nat} {e : Nat × Nat} (h : e.2 = f e.1) : (leafEntry e).Sound f where
  freq_eq := h
  leaf_key c hc := by cases hc; exact ⟨rfl, rfl⟩
  node_key l r h := nomatch h
  canonical := Tree.canonical_leaf f e.1

/-- The queue's order on the keys is what R296 asks of the trees. -/
theorem Entry.Sound.siblingsOrdered {f : Nat → Nat} {l r : Entry} (hl : l.Sound f) (hr : r.Sound f)
    (h : r.Precedes l) : SiblingsOrdered f l.tree r.tree := by
  unfold Entry.Precedes at h
  rw [hl.freq_eq, hr.freq_eq] at h
  refine ⟨by omega, fun heq => ?_⟩
  cases hlt : l.tree with
  | leaf c =>
    cases hrt : r.tree with
    | leaf d =>
      obtain ⟨hlk, hlc⟩ := hl.leaf_key c hlt
      obtain ⟨hrk, hrd⟩ := hr.leaf_key d hrt
      show d < c
      omega
    | node => trivial
  | node a b =>
    cases hrt : r.tree with
    | leaf d =>
      have hlk := hl.node_key a b hlt
      obtain ⟨hrk, -⟩ := hr.leaf_key d hrt
      show False
      omega
    | node => trivial

theorem innerEntry_sound {f : Nat → Nat} {l r : Entry} (n : Nat) (hl : l.Sound f) (hr : r.Sound f)
    (h : r.Precedes l) : (innerEntry n l r).Sound f where
  freq_eq := by simp only [innerEntry, Tree.weight, hl.freq_eq, hr.freq_eq]
  leaf_key c h := nomatch h
  node_key _ _ _ := rfl
  canonical := Tree.canonical_node (hl.siblingsOrdered hr h) hl.canonical hr.canonical

/-- Merging keeps the entries sound, so the tree it ends with is canonical. -/
theorem Merges.canonical {f : Nat → Nat} {n : Nat} {q : List Entry} {t : Tree} (h : Merges n q t)
    (hq : ∀ e ∈ q, e.Sound f) : t.Canonical f := by
  induction h with
  | root n e => exact (hq e List.mem_cons_self).canonical
  | merge n q r l rest t hp hrl _ _ ih =>
    have hq' : ∀ e ∈ r :: l :: rest, e.Sound f := fun e he => hq e (hp.mem_iff.2 he)
    simp only [List.forall_mem_cons] at hq'
    obtain ⟨hr, hl, hrest⟩ := hq'
    exact ih (List.forall_mem_cons.2 ⟨innerEntry_sound n hl hr hrl, hrest⟩)

/-- A build over leaves of distinct characters with the counts f is canonical under f. -/
theorem buildTree_canonical {f : Nat → Nat} {leaves : List (Nat × Nat)} {t : Tree} (h : buildTree leaves = some t)
    (hn : (leaves.map Prod.fst).Nodup) (hf : ∀ e ∈ leaves, e.2 = f e.1) : t.Canonical f :=
  (buildTree_merges h hn).canonical (List.forall_mem_map.2 fun e he => leafEntry_sound (hf e he))

/-! ## The leaves of HIST -/

theorem mem_histLeaves {s : State} {c n : Nat} :
    (c, n) ∈ histLeaves s ↔ c < 2 ^ s.params.cw ∧ (histCount s c).toNat = n ∧ n ≠ 0 := by
  simp only [histLeaves, numChars, List.mem_filter, List.mem_map, List.mem_range, Prod.mk.injEq, bne_iff_ne]
  constructor
  · rintro ⟨⟨_, hc, rfl, hn⟩, h0⟩
    exact ⟨hc, hn, h0⟩
  · rintro ⟨hc, hn, h0⟩
    exact ⟨⟨c, hc, rfl, hn⟩, h0⟩

theorem histLeaves_nodup (s : State) : ((histLeaves s).map Prod.fst).Nodup := by
  refine List.Nodup.sublist (List.filter_sublist.map _) ?_
  simp only [List.map_map, Function.comp_def, List.map_id']
  exact List.nodup_range

/-- The leaves the build starts from: those of HIST, or one leaf with another character of count 0 (44 R292, R293). -/
theorem withSynthetic_histLeaves {s : State} (hw : s.params.wf) :
    withSynthetic s.params.cw (histLeaves s) = histLeaves s ∨
      ∃ c d, withSynthetic s.params.cw (histLeaves s) = [(c, (histCount s c).toNat), (d, 0)] ∧ c ≠ d ∧
        (histCount s d).toNat = 0 := by
  match hl : histLeaves s with
  | [] | _ :: _ :: _ => exact .inl rfl
  | [(c, n)] =>
    obtain ⟨hc, rfl, -⟩ := mem_histLeaves.1 (hl ▸ List.mem_singleton_self (c, n))
    have heven : 2 ^ s.params.cw = 2 * 2 ^ (s.params.cw - 1) := by
      rw [← Nat.pow_succ', Nat.succ_eq_add_one, Nat.sub_add_cancel hw.1]
    have hne : c ≠ 2 ^ s.params.cw - 1 - c := by omega
    refine .inr ⟨c, 2 ^ s.params.cw - 1 - c, rfl, hne, ?_⟩
    by_contra h0
    have hd : (2 ^ s.params.cw - 1 - c, (histCount s (2 ^ s.params.cw - 1 - c)).toNat) ∈ histLeaves s :=
      mem_histLeaves.2 ⟨by omega, rfl, h0⟩
    rw [hl, List.mem_singleton, Prod.mk.injEq] at hd
    exact hne hd.1.symm

/-- The tree of a build over HIST is canonical under the counts of HIST (44 R296). -/
theorem histTree_canonical {s : State} {b : Tree} (hw : s.params.wf)
    (h : buildTree (withSynthetic s.params.cw (histLeaves s)) = some b) :
    b.Canonical fun c => (histCount s c).toNat := by
  rcases withSynthetic_histLeaves hw with he | ⟨c, d, he, hcd, hd⟩ <;> rw [he] at h
  · refine buildTree_canonical h (histLeaves_nodup s) fun e hm => ?_
    obtain ⟨-, hn, -⟩ := mem_histLeaves.1 hm
    exact hn.symm
  · exact buildTree_canonical h (by simp [hcd]) (by simp [hd])

/-! ## H.BUILD -/

/-- The tree that H.BUILD leaves is the build's tree over HIST (44 R297). -/
theorem hBuild_tree {s t : State} {b : Tree} (h : exec .hBuild s = .next t) (hok : t.ecode = .ok)
    (ht : t.tree = .valid b) : buildTree (withSynthetic s.params.cw (histLeaves s)) = some b := by
  simp only [exec, execHBuild] at h
  split at h
  next =>
    cases h
    cases ht
  next b' hb =>
    split at h
    next =>
      cases h
      cases hok
    next =>
      cases h
      cases ht
      exact hb

/-- Settles O39: each merge's first pop precedes its second (`Entry.Sound.siblingsOrdered`), so the build's trees are
canonical (`Merges.canonical`), and H.BUILD leaves such a tree (`hBuild_tree`). -/
theorem builtTreeCanonical : Obligations.BuiltTreeCanonical := by
  intro s b l r hw hb hlr
  have hbuild : buildTree (withSynthetic s.params.cw (histLeaves s)) = some b := by
    rcases hb with hb | ⟨t, hexec, hok, ht⟩
    · exact hb
    · exact hBuild_tree hexec hok ht
  exact histTree_canonical hw hbuild l r hlr

end Sys2Proof.Machine
end

section
/-! PROOFS. The serialized tree family: H.DESER reads back ser(TREE), and H.DEC with the tree reads back what H.ENC
wrote (45_huffman_serialize R337). -/

namespace Sys2Proof.Machine

/-! ## OK completions -/

/-- Only a commit completes OK (60_exceptions R373, R374). -/
theorem commit_of_completed_ok {s t : State} {r : Except ErrCode State} (hr : Proper r)
    (h : complete s r = .next t) (hok : t.ecode = .ok) : ∃ u, r = .ok u ∧ t = completeWith .ok u := by
  rcases complete_cases h with hu | ⟨e, rfl, rfl⟩
  · exact hu
  · rw [completeWith_ecode] at hok
    exact absurd (congrArg Except.error hok) hr

/-! ## H.DESER over a serialized form -/

/-- ser(VALID(t)) has one bit per node, two delta codes and the entropy's bits per leaf (45 R332). -/
theorem Tree.length_ser (t : Tree) :
    t.ser.length = t.nodes + (delta (t.minChar + 1)).length + (delta (t.maxChar - t.minChar + 1)).length +
      t.alpha.length * entropy t.minChar t.maxChar := by
  simp [Tree.ser, Tree.length_topo, Nat.add_assoc]

/-- Characters and node counts fit a register (00_scope R8, R10). -/
theorem numChars_and_nmax_bounds {p : Config.Params} (hw : p.wf) :
    numChars p ≤ 2 ^ 16 ∧ 1 ≤ nmax p ∧ nmax p < 2 ^ 17 := by
  obtain ⟨h1, h16, -⟩ := hw
  have hchars : 2 ^ p.cw ≤ 2 ^ 16 := Nat.pow_le_pow_right (by omega) h16
  have hpos : 2 ^ 1 ≤ 2 ^ p.cw := Nat.pow_le_pow_right (by omega) h1
  simp only [numChars, nmax, Nat.pow_succ]
  omega

/-- The alphabet parser reads back what follows the topology in ser(VALID(t)) (45 R332, R335). -/
theorem pAlpha_ser {p : Config.Params} {t : Tree} (hw : p.wf) (ht : t.Valid p) (rest : BitStr) :
    pAlpha (numChars p) t.shape
        { bits := delta (t.minChar + 1) ++ (delta (t.maxChar - t.minChar + 1) ++
            ((t.alpha.flatMap fun c => bin (c - t.minChar) (entropy t.minChar t.maxChar)) ++ rest)), q := t.nodes } =
      .ok (t, { bits := rest, q := t.ser.length }) := by
  obtain ⟨-, -, -, hnodup, hchars, -⟩ := ht
  obtain ⟨hnum, -, -⟩ := numChars_and_nmax_bounds hw
  have hmax : t.maxChar < numChars p := hchars _ t.maxChar_mem
  rw [pAlpha_append t (fun c hc => ⟨Tree.minChar_le hc, Tree.le_maxChar hc⟩) hchars
    (by simp only [umax]; omega) (by simp only [umax]; omega) (by omega) hnodup, Tree.length_ser]

/-- H.DESER over a view that begins with ser(VALID(t)) of a valid tree holds that tree (45 R336). -/
theorem execHDeser_ser {u : State} {t : Tree} {rest : BitStr} (hw : u.params.wf) (ht : t.Valid u.params)
    (hv : sourceView u = t.ser ++ rest) :
    exec .hDeser u = .next (completeWith .ok (setTree (.valid t)
      (decoderCommit t.alpha.length { bits := rest, q := t.ser.length } u))) := by
  have halpha := pAlpha_ser hw ht rest
  obtain ⟨hleaves, hnodes, hcap, -, -, hdepth⟩ := ht
  have hdeep : t.depth < nmax u.params + 1 := by have := t.depth_lt_nodes; omega
  have hshallow : ¬ lmax < t.depth := Nat.not_lt.2 hdepth
  simp only [Tree.ser, List.append_assoc] at hv
  simp only [exec, execHDeser]
  rw [source_eq hv, pTopo_append t _ _ (by omega) hdeep]
  simp only [Except.ok_bind, Nat.zero_add]
  rw [if_neg (by omega), halpha]
  simp only [Except.ok_bind]
  rw [if_neg hshallow, complete_ok]

/-- H.DESER over a view that begins with the lone leaf's topology holds EMPTY (45 R336). -/
theorem execHDeser_empty {u : State} {rest : BitStr} (hw : u.params.wf) (hv : sourceView u = [true] ++ rest) :
    exec .hDeser u = .next (completeWith .ok (setTree .empty (decoderCommit 0 { bits := rest, q := 1 } u))) := by
  obtain ⟨-, hcap, -⟩ := numChars_and_nmax_bounds hw
  have htopo := pTopo_append (cap := nmax u.params) (.leaf 0) (nmax u.params + 1) 0
    (by simpa [Tree.nodes] using hcap) (Nat.succ_pos _) rest 0
  simp only [exec, execHDeser]
  rw [source_eq hv, show [true] = (Tree.leaf 0).topo from rfl, htopo]
  rfl

/-- H.DESER over a view that begins with ser(TREE) holds that TREE (45 R337). -/
theorem execHDeser_serialize {u : State} {ts : TreeState} {a rest : BitStr} {k : Nat} (hw : u.params.wf)
    (hts : ts.Valid u.params) (hs : serialize ts = .ok (a, k)) (hv : sourceView u = a ++ rest) :
    exec .hDeser u = .next (completeWith .ok (setTree ts
      (decoderCommit k { bits := rest, q := a.length } u))) := by
  cases ts with
  | none => cases hs
  | empty => cases hs; exact execHDeser_empty hw hv
  | valid t => cases hs; exact execHDeser_ser hw hts hv

/-- The leaf count that H.SER answers fits a register (45 R333). -/
theorem serialize_count_lt {p : Config.Params} {ts : TreeState} {a : BitStr} {k : Nat} (hw : p.wf)
    (hts : ts.Valid p) (hs : serialize ts = .ok (a, k)) : k < 2 ^ 64 := by
  cases ts with
  | none => cases hs
  | empty => cases hs; decide
  | valid t =>
    cases hs
    obtain ⟨hleaves, hnodes, hcap, -⟩ := hts
    obtain ⟨-, -, hmax⟩ := numChars_and_nmax_bounds hw
    omega

/-- H.DESER's tree and results over a view that begins with ser(TREE) (45 R337). -/
theorem hDeser_reads_serialize {u : State} {ts : TreeState} {a : BitStr} {k : Nat} (hw : u.params.wf)
    (hts : ts.Valid u.params) (hs : serialize ts = .ok (a, k)) (hv : a <+: sourceView u) :
    ∃ v, exec .hDeser u = .next v ∧ v.ecode = .ok ∧ v.tree = ts ∧ v.res0.toNat = k ∧ v.res1.toNat = a.length := by
  obtain ⟨rest, hrest⟩ := hv
  obtain ⟨-, hres0, hres1, -⟩ := decoded_commit (src := { bits := rest, q := a.length }) hrest.symm rfl rfl
    (serialize_count_lt hw hts hs)
  exact ⟨_, execHDeser_serialize hw hts hs hrest.symm, rfl, rfl, hres0, hres1⟩

/-! ## What an OK H.SER and an OK H.ENC wrote -/

/-- An OK H.SER wrote ser(TREE), and answers the leaf count and the string's length (45 R333). -/
theorem hSer_ok {s t : State} (hw : s.params.wf) (h : exec .hSer s = .next t) (hok : t.ecode = .ok) :
    ∃ a k, serialize s.tree = .ok (a, k) ∧ writtenBits s t = a ∧ t.res0 = reg k ∧ t.res1.toNat = a.length := by
  have hproper : Proper _ := (proper_serialize s.tree).bind fun r =>
    (proper_encoderCommit r.1 s).bind fun u => proper_ok (setRes0 r.2 u)
  obtain ⟨w, hcommit, rfl⟩ := commit_of_completed_ok hproper h hok
  obtain ⟨⟨a, k⟩, hs, hcommit⟩ := Except.bind_eq_ok.1 hcommit
  obtain ⟨u, henc, hset⟩ := Except.bind_eq_ok.1 hcommit
  cases hset
  have hencoded : Encoded a s (completeWith .ok u) := encoded_of_ok hw (by rw [henc, complete_ok]) rfl
  have hbits := writtenBits_of_encoded hencoded
  obtain ⟨-, hres1, -⟩ := hencoded
  exact ⟨a, k, hs, hbits, rfl, hres1⟩

/-- Only a valid tree is held (10_state R49). -/
theorem heldTree_ok {s : State} {b : Tree} (h : heldTree s = .ok b) : s.tree = .valid b := by
  unfold heldTree at h
  split at h
  · cases h
  · cases h
  next t ht => cases h; exact ht

/-- What the lookup finds is the path to X's leaf (43 R260, R263). -/
theorem follow_of_lookupX {s : State} {b : Tree} {a : BitStr} (h : lookupX s b = .ok a) :
    b.follow a = some s.x.toNat := by
  unfold lookupX at h
  split at h
  · cases h
  rcases b.codebits_cases s.x.toNat with ⟨a', hcode, hfollow, -⟩ | ⟨hcode, -⟩ <;> rw [hcode] at h
  · cases h; exact hfollow
  · cases h

/-- An OK H.ENC encoded the path to X's leaf in the held tree (43 R264). -/
theorem hEnc_ok {s t : State} (hw : s.params.wf) (h : exec .hEnc s = .next t) (hok : t.ecode = .ok) :
    ∃ b a, s.tree = .valid b ∧ b.follow a = some s.x.toNat ∧ Encoded a s t := by
  have hproper : Proper _ := (proper_heldTree s).bind fun b =>
    (proper_lookupX s b).bind fun a => proper_encoderCommit a s
  obtain ⟨w, hcommit, rfl⟩ := commit_of_completed_ok hproper h hok
  obtain ⟨b, hheld, hcommit⟩ := Except.bind_eq_ok.1 hcommit
  obtain ⟨a, hlook, henc⟩ := Except.bind_eq_ok.1 hcommit
  exact ⟨b, a, heldTree_ok hheld, follow_of_lookupX hlook, encoded_of_ok hw (by rw [henc, complete_ok]) rfl⟩

/-! ## The round trips -/

/-- H.DESER gives back the tree and the results of the H.SER whose string it reads (45 R337). -/
theorem hDeser_reads_hSer {s t u : State} (hi : s.Inv) (h : exec .hSer s = .next t) (hok : t.ecode = .ok)
    (hp : u.params = s.params) (hv : writtenBits s t <+: sourceView u) :
    ∃ v, exec .hDeser u = .next v ∧ v.ecode = .ok ∧ v.tree = s.tree ∧ v.res0 = t.res0 ∧ v.res1 = t.res1 := by
  obtain ⟨hw, -, -, -, htree, -⟩ := hi
  obtain ⟨a, k, hs, rfl, hres0, hres1⟩ := hSer_ok hw h hok
  rw [← hp] at hw htree
  obtain ⟨v, hexec, hvok, hvtree, rfl, hlen⟩ := hDeser_reads_serialize hw htree hs hv
  exact ⟨v, hexec, hvok, hvtree, by rw [hres0, reg_toNat], BitVec.eq_of_toNat_eq (hlen.trans hres1.symm)⟩

/-- H.DEC with the same tree gives back the X of the H.ENC whose string it reads (43 R262, R264, R265). -/
theorem hDec_reads_hEnc {s t u : State} (hi : s.Inv) (h : exec .hEnc s = .next t) (hok : t.ecode = .ok)
    (ht : u.tree = s.tree) (hv : writtenBits s t <+: sourceView u) :
    ∃ v, exec .hDec u = .next v ∧ v.ecode = .ok ∧ v.res0 = s.x ∧ v.res1 = t.res1 := by
  obtain ⟨b, a, hheld, hfollow, hencoded⟩ := hEnc_ok hi.1 h hok
  rw [writtenBits_of_encoded hencoded] at hv
  obtain ⟨-, hlen, -⟩ := hencoded
  obtain ⟨rest, hrest⟩ := hv
  have hwalk : b.walk (source u) = .ok (s.x.toNat, { bits := rest, q := 0 + a.length }) := by
    rw [source_eq hrest.symm]; exact Tree.walk_append hfollow rest 0
  obtain ⟨-, hres0, hres1, -⟩ := decoded_commit (src := { bits := rest, q := 0 + a.length }) hrest.symm rfl
    (Nat.zero_add _) s.x.isLt
  exact ⟨_, execHDec_valid (ht.trans hheld) hwalk, rfl, BitVec.eq_of_toNat_eq hres0,
    BitVec.eq_of_toNat_eq (hres1.trans hlen.symm)⟩

/-- Settles O47: H.DESER's parsers read back a serialized form (`hDeser_reads_serialize`), H.SER wrote that form
(`hDeser_reads_hSer`), and H.DEC walks the path that H.ENC wrote (`hDec_reads_hEnc`). -/
theorem huffmanRoundTrip : Obligations.HuffmanRoundTrip :=
  ⟨fun _ _ _ _ hw hts hs hv => hDeser_reads_serialize hw hts hs hv,
    fun _ _ _ hi h hok hp hv => hDeser_reads_hSer hi h hok hp hv,
    fun _ _ _ hi h hok ht hv => hDec_reads_hEnc hi h hok ht hv⟩

end Sys2Proof.Machine
end

section
/-! PROOFS. The exceptions family: a failed command changes only the completion fields, and no command writes its
operands (60_exceptions R373). -/

namespace Sys2Proof.Machine

/-- The codes of the words that are no command are errors (30_encoding R107). -/
theorem rejectCode_ne_ok (e : DecodeError) : rejectCode e ≠ .ok := by
  cases e <;> simp [rejectCode]

/-- The ENGINE's step completes an effect too: a command's, or the rejection's error (10_state R31, 30_encoding R107). -/
theorem engineStep_effect (s : State) : ∃ r, engineStep s = complete s r ∧ Effect s r := by
  unfold engineStep
  cases decodeWord s.cmd with
  | ok i => exact exec_effect i s
  | error e => exact ⟨_, rfl, .error (rejectCode_ne_ok e)⟩

section
variable {s t : State} {r : Except ErrCode State}

/-- An effect that completes with an error code raised it, so the old state is completed (60_exceptions R373). -/
theorem Effect.failedWith (hr : Effect s r) (h : complete s r = .next t) (ht : t.ecode ≠ .ok) :
    FailedWith t.ecode s t := by
  rcases complete_cases h with ⟨u, -, rfl⟩ | ⟨e, rfl, rfl⟩
  · exact absurd (completeWith_ecode .ok u) ht
  · exact failedWith_completeWith ht s

/-- A completed effect, failed or not, leaves the operands, IBUF, CTRL and CMD (60_exceptions R373). -/
theorem Effect.operands_kept (hr : Effect s r) (h : complete s r = .next t) :
    t.x = s.x ∧ t.ulo = s.ulo ∧ t.uhi = s.uhi ∧ t.ilen = s.ilen ∧ t.ibuf = s.ibuf ∧ t.ie = s.ie ∧ t.cmd = s.cmd := by
  rcases complete_cases h with ⟨u, hu, rfl⟩ | ⟨e, -, rfl⟩
  · obtain ⟨-, hcommits⟩ := hr
    rw [hcommits u hu]
    simp
  · simp

end

/-- Settles O10: every command (`exec_effect`) and every ENGINE step (`engineStep_effect`) completes an effect; one
that failed left the rest of the state as it was (`Effect.failedWith`), and none writes its operands
(`Effect.operands_kept`). -/
theorem failedCommandChangesNothing : Obligations.FailedCommandChangesNothing := by
  refine ⟨fun i s t h ht => ?_, fun s t h => ?_⟩
  · obtain ⟨r, hexec, hr⟩ := exec_effect i s
    exact hr.failedWith (hexec ▸ h) ht
  · obtain ⟨r, hstep, hr⟩ := engineStep_effect s
    rw [hstep] at h
    exact ⟨hr.failedWith h, hr.operands_kept h⟩

end Sys2Proof.Machine
end

section
/-! PROOFS. The reset and hazards family: the soft reset (70_reset R411) and host writes while BUSY (70_reset R422). -/

namespace Sys2Proof.Machine

/-- A host write at an offset is the write to the place there (20_memory R70, R80). -/
theorem hostWrites_writeLocation {s : State} {off : Nat} {l : Location} (v : Word) (h : off < 2 ^ 22)
    (h8 : off % 8 = 0) (hl : locate s.params off = l) : HostWrites s off v (writeLocation s v l) :=
  ⟨.written, by rw [hostStep_write s v h h8, hl]; rfl⟩

/-- A write to CTRL, BUSY or not (10_state R34). -/
theorem hostWrites_ctrl (s : State) (v : Word) : HostWrites s 0x008 v (writeCtrl v s) :=
  hostWrites_writeLocation v (by decide) (by decide) (locate_register s.params (by decide))

/-- A write to STATUS, BUSY or not (10_state R41). -/
theorem hostWrites_status (s : State) (v : Word) : HostWrites s 0x010 v (writeStatus v s) :=
  hostWrites_writeLocation v (by decide) (by decide) (locate_register s.params (by decide))

/-! ## The soft reset -/

/-- CTRL bit 1 makes the write a soft reset, whatever bit 0 is (10_state R34). -/
theorem writeCtrl_srst {v : Word} (h : v.getLsbD 1 = true) (s : State) : writeCtrl v s = softReset s :=
  if_pos h

/-- Settles O50: the write is the soft reset (`writeCtrl_srst`), which is the hardware reset of the part but for the
three arrays. (`softReset` is the model's function, so the theorem has a name of its own.) -/
theorem softReset_of_ctrlWrite : Obligations.SoftReset := by
  intro s v hv
  obtain ⟨r, hstep⟩ := hostWrites_ctrl s v
  rw [writeCtrl_srst hv] at hstep
  exact ⟨r, hstep⟩

/-! ## Writes while BUSY -/

/-- The places whose writes BUSY drops (70_reset R422). -/
def Location.Guarded : Location → Prop
  | .cmd | .x | .ulo | .uhi | .obit | .ipos | .ilen | .hist _ | .ibuf _ => True
  | .id | .ctrl | .status | .res0 | .res1 | .params | .obuf _ | .reserved => False

/-- The places that ignore every write (10_state R33, R42, R45, 20_memory R72, R75). -/
def Location.ReadOnly : Location → Prop
  | .id | .res0 | .res1 | .params | .obuf _ | .reserved => True
  | .ctrl | .status | .cmd | .x | .ulo | .uhi | .obit | .ipos | .ilen | .hist _ | .ibuf _ => False

/-- While BUSY a write to a guarded place only sets WOVR (10_state R38, 70_reset R422). -/
theorem writeLocation_guarded {s : State} {l : Location} (hb : s.busy = true) (hl : l.Guarded) (v : Word) :
    writeLocation s v l = { s with wovr := true } := by
  have hstores : ∃ stored, writeLocation s v l = unlessBusy s stored := by
    cases l with
    | id | ctrl | status | res0 | res1 | params | obuf | reserved => exact hl.elim
    | cmd | x | ulo | uhi | obit | ipos | ilen | hist | ibuf => exact ⟨_, rfl⟩
  obtain ⟨stored, hw⟩ := hstores
  rw [hw]
  exact if_pos hb

/-- A write to a read-only place is ignored, BUSY or not. -/
theorem writeLocation_readOnly {l : Location} (hl : l.ReadOnly) (s : State) (v : Word) : writeLocation s v l = s := by
  cases l with
  | id | res0 | res1 | params | obuf | reserved => rfl
  | ctrl | status | cmd | x | ulo | uhi | obit | ipos | ilen | hist | ibuf => exact hl.elim

/-- The operand, command and cursor registers and the used words of HIST and IBUF are guarded (10_state R32,
20_memory R73, R74). -/
theorem locate_guarded {p : Config.Params} (hp : p.wf) {off : Nat} (h8 : off % 8 = 0)
    (h : off ∈ [0x018, 0x020, 0x028, 0x030, 0x048, 0x050, 0x058] ∨
      (0x080000 ≤ off ∧ off < 0x080000 + 8 * 2 ^ p.cw) ∨ (0x200000 ≤ off ∧ off < 0x200000 + 2 ^ p.ilog / 8)) :
    (locate p off).Guarded := by
  obtain ⟨hcw, -, hilog, -, hwords⟩ := window_sizes hp
  rcases h with h | ⟨hlo, hhi⟩ | ⟨hlo, hhi⟩
  · simp only [List.mem_cons, List.not_mem_nil, or_false] at h
    rw [locate_register p (by omega)]
    rcases h with rfl | rfl | rfl | rfl | rfl | rfl | rfl <;> trivial
  · obtain ⟨c, rfl⟩ : ∃ c, off = 0x080000 + 8 * c := ⟨(off - 0x080000) / 8, by omega⟩
    rw [locate_hist p (by omega) (by omega)]
    trivial
  · obtain ⟨j, rfl⟩ : ∃ j, off = 0x200000 + 8 * j := ⟨(off - 0x200000) / 8, by omega⟩
    rw [locate_ibuf p (by omega) (by omega)]
    trivial

/-- An offset of the OBUF region holds a read-only place: an OBUF word, or nothing (20_memory R72, R75). -/
theorem locate_obufRegion_readOnly {p : Config.Params} (hp : p.wf) {off : Nat} (h8 : off % 8 = 0)
    (hlo : 0x100000 ≤ off) (hhi : off < 0x200000) : (locate p off).ReadOnly := by
  obtain ⟨-, holog, -, hwords, -⟩ := window_sizes hp
  by_cases hused : off < 0x100000 + 2 ^ p.olog / 8
  · obtain ⟨j, rfl⟩ : ∃ j, off = 0x100000 + 8 * j := ⟨(off - 0x100000) / 8, by omega⟩
    rw [locate_obuf p (by omega) (by omega)]
    trivial
  · rw [locate_reserved hp h8 (by omega) (by omega)]
    trivial

/-- The constant and result registers, the OBUF window and the reserved offsets are read-only (10_state R32,
20_memory R72, R75). -/
theorem locate_readOnly {p : Config.Params} (hp : p.wf) {off : Nat} (h8 : off % 8 = 0)
    (h : off ∈ [0x000, 0x038, 0x040, 0x060] ∨ (0x068 ≤ off ∧ off < 0x080000) ∨
      (0x080000 + 8 * 2 ^ p.cw ≤ off ∧ off < 0x200000) ∨ 0x200000 + 2 ^ p.ilog / 8 ≤ off) :
    (locate p off).ReadOnly := by
  rcases h with h | h
  · simp only [List.mem_cons, List.not_mem_nil, or_false] at h
    rw [locate_register p (by omega)]
    rcases h with rfl | rfl | rfl | rfl <;> trivial
  · by_cases hobuf : 0x100000 ≤ off ∧ off < 0x200000
    · exact locate_obufRegion_readOnly hp h8 hobuf.1 hobuf.2
    · have hpos : 0 < 2 ^ p.ilog := Nat.two_pow_pos p.ilog
      rw [locate_reserved hp h8 (by omega) (by omega)]
      trivial

/-- Settles O52: a dropped write is one to a guarded place (`writeLocation_guarded`), an ignored one to a read-only place
(`writeLocation_readOnly`), and CTRL and STATUS do not look at BUSY. -/
theorem busyWritesDropped : Obligations.BusyWritesDropped := by
  intro s off v hp hb h8 h
  refine ⟨fun hoff => ?_, ?_, ?_, fun hoff => ?_⟩
  · rw [← writeLocation_guarded hb (locate_guarded hp h8 hoff) v]
    exact hostWrites_writeLocation v h h8 rfl
  · rintro rfl
    exact hostWrites_ctrl s v
  · rintro rfl
    exact hostWrites_status s v
  · have hwrite := hostWrites_writeLocation v h h8 (rfl : locate s.params off = _)
    rwa [writeLocation_readOnly (locate_readOnly hp h8 hoff)] at hwrite

end Sys2Proof.Machine
end

section
/-! PROOFS. The command word: decoding and encoding are inverse, and which words are rejected (30_encoding R100 to
R111). -/

namespace Sys2Proof.Machine

/-! ## The K rule of a row -/

section
variable {k : Byte} {legal : Bool} {i j : Instr}

theorem decodeNoK_ok : decodeNoK k i = .ok j ↔ k = 0 ∧ i = j := by
  unfold decodeNoK
  split <;> simp_all

theorem decodeNoK_illegal : decodeNoK k i = .error .illegal ↔ k ≠ 0 := by
  unfold decodeNoK
  split <;> simp_all

theorem decodeNoK_param : ¬ decodeNoK k i = .error .param := by
  unfold decodeNoK
  split <;> simp

theorem decodeK_ok : decodeK legal i = .ok j ↔ legal = true ∧ i = j := by
  unfold decodeK
  split <;> simp_all

theorem decodeK_illegal : ¬ decodeK legal i = .error .illegal := by
  unfold decodeK
  split <;> simp

theorem decodeK_param : decodeK legal i = .error .param ↔ legal = false := by
  unfold decodeK
  split <;> simp_all

end

/-! ## Decode and encode -/

/-- The opcode map sends a well-formed command's opcode and K to the command (30_encoding R106). -/
theorem decodeFields_opc_k {i : Instr} (h : i.wf = true) : decodeFields i.opc i.k = .ok i := by
  cases i with
  | binEnc | binDec | riceEnc | riceDec | riceEncU | riceDecU | vbEnc | vbDec | vbEncU | vbDecU => exact if_pos h
  | nop | uniEnt | binEncU | binDecU | unaEnc | unaDec | unaEncU | unaDecU | gamEnc | gamDec | gamEncU | gamDecU
  | delEnc | delDec | delEncU | delDecU | hClr | hInc | hBuild | hCode | hEnc | hDec | hSer | hDeser => rfl

/-- A command that the opcode map gives has the opcode and the K it was read from, and is well-formed
(30_encoding R105, R106). -/
theorem decodeFields_ok {opc k : Byte} {i : Instr} (h : decodeFields opc k = .ok i) :
    i.opc = opc ∧ i.k = k ∧ i.wf = true := by
  unfold decodeFields at h
  split at h
  case h_35 => cases h
  all_goals
    simp only [decodeNoK_ok, decodeK_ok] at h
    obtain ⟨hk, rfl⟩ := h
    simp [Instr.opc, Instr.k, Instr.wf, hk]

/-- A command is read off the three fields of its word (30_encoding R107). -/
theorem decodeWord_ok {w : Word} {i : Instr} (h : decodeWord w = .ok i) :
    rsvField w = 0#48 ∧ decodeFields (opcField w) (kField w) = .ok i := by
  unfold decodeWord at h
  split at h
  next hr => exact ⟨hr, h⟩
  next => cases h

/-- A word is its three fields (30_encoding R100). -/
theorem word_eq_of_fields {v w : Word} (ho : opcField v = opcField w) (hk : kField v = kField w)
    (hr : rsvField v = rsvField w) : v = w := by
  refine BitVec.eq_of_getLsbD_eq fun j hj => ?_
  by_cases h8 : j < 8
  · simpa [opcField, h8] using congrArg (BitVec.getLsbD · j) ho
  by_cases h16 : j < 16
  · have hbit : j - 8 < 8 ∧ 8 + (j - 8) = j := by omega
    simpa [kField, hbit] using congrArg (BitVec.getLsbD · (j - 8)) hk
  · have hbit : j - 16 < 48 ∧ 16 + (j - 16) = j := by omega
    simpa [rsvField, hbit] using congrArg (BitVec.getLsbD · (j - 16)) hr

/-- Settles O1: the word carries the command's opcode and K (`fields_encode`), which the map sends back to it. -/
theorem decodeEncodeAgree : Obligations.DecodeEncodeAgree := by
  intro i hi
  obtain ⟨hopc, hk, hrsv⟩ := fields_encode i
  rw [decodeWord, if_pos hrsv, hopc, hk, decodeFields_opc_k hi]

/-- Settles O2: the command has the word's opcode and K (`decodeFields_ok`), so its word has the same fields. -/
theorem encodeDecodeAgree : Obligations.EncodeDecodeAgree := by
  intro w i h
  obtain ⟨hrsv, hfields⟩ := decodeWord_ok h
  obtain ⟨hopc, hk, hwf⟩ := decodeFields_ok hfields
  obtain ⟨hopc', hk', hrsv'⟩ := fields_encode i
  exact ⟨word_eq_of_fields (hopc'.trans hopc) (hk'.trans hk) (hrsv'.trans hrsv.symm), hwf⟩

/-- Settles O3, by decoding the ten words. -/
theorem sampleWordsDecode : Obligations.SampleWordsDecode := by
  refine ⟨?_, ?_, ?_, ?_, ?_, ?_, ?_, ?_, ?_, ?_⟩ <;> rfl

/-! ## Rejected words -/

/-- The opcodes of the map (30_encoding R106). -/
def assignedOpcodes : List Nat :=
  [0x00, 0x01, 0x10, 0x11, 0x12, 0x13, 0x20, 0x21, 0x22, 0x23, 0x30, 0x31, 0x32, 0x33, 0x40, 0x41,
    0x42, 0x43, 0x50, 0x51, 0x52, 0x53, 0x60, 0x61, 0x62, 0x63, 0x80, 0x81, 0x82, 0x83, 0x84, 0x85, 0x86, 0x87]

/-- The opcodes that take K (30_encoding R105). -/
def kOpcodes : List Nat := [0x10, 0x11, 0x50, 0x51, 0x52, 0x53, 0x60, 0x61, 0x62, 0x63]

/-- K is outside the range of its opcode (30_encoding R105). -/
def KOutOfRange (opc k : Nat) : Prop :=
  (opc ∈ [0x10, 0x11] ∧ 64 < k) ∨ (opc ∈ [0x50, 0x51, 0x52, 0x53] ∧ 63 < k) ∨
    (opc ∈ [0x60, 0x61, 0x62, 0x63] ∧ (k = 0 ∨ 63 < k))

theorem decodeFields_unassigned {opc : Byte} (k : Byte) (h : opc.toNat ∉ assignedOpcodes) :
    decodeFields opc k = .error .illegal := by
  unfold decodeFields
  split
  case h_35 => rfl
  all_goals exact absurd (by decide) h

/-- An opcode is one of the map's rows or unassigned. -/
theorem opcode_cases {P : Byte → Prop} (hrow : ∀ n ∈ assignedOpcodes, P (BitVec.ofNat 8 n))
    (hun : ∀ opc : Byte, opc.toNat ∉ assignedOpcodes → P opc) (opc : Byte) : P opc := by
  by_cases h : opc.toNat ∈ assignedOpcodes
  · simpa using hrow _ h
  · exact hun opc h

theorem decodeFields_illegal (k : Byte) (opc : Byte) : decodeFields opc k = .error .illegal ↔
    opc.toNat ∉ assignedOpcodes ∨ (opc.toNat ∉ kOpcodes ∧ k ≠ 0) := by
  induction opc using opcode_cases with
  | hrow n hn => fin_cases hn <;> simp [decodeFields, decodeNoK_illegal, decodeK_illegal, assignedOpcodes, kOpcodes]
  | hun opc h => simp [decodeFields_unassigned k h, h]

theorem decodeFields_param (k : Byte) (opc : Byte) :
    decodeFields opc k = .error .param ↔ KOutOfRange opc.toNat k.toNat := by
  induction opc using opcode_cases with
  | hrow n hn =>
    fin_cases hn <;>
      simp [decodeFields, decodeNoK_param, decodeK_param, KOutOfRange, binWidthOk, riceExpOk, vbBlockOk] <;> omega
  | hun opc h =>
    have hk : ¬ KOutOfRange opc.toNat k.toNat := fun hk => h (by
      rcases hk with ⟨hm, -⟩ | ⟨hm, -⟩ | ⟨hm, -⟩ <;> exact (by decide : _ ⊆ assignedOpcodes) hm)
    simp [decodeFields_unassigned k h, hk]

/-! The three fields as numbers (30_encoding R100). -/

theorem toNat_opcField (w : Word) : (opcField w).toNat = w.toNat % 256 := by
  simp [opcField]

theorem toNat_kField (w : Word) : (kField w).toNat = w.toNat / 256 % 256 := by
  simp [kField, Nat.shiftRight_eq_div_pow]

theorem rsvField_eq_zero (w : Word) : rsvField w = 0#48 ↔ w >>> 16 = 0 := by
  have hrsv : (rsvField w).toNat = w.toNat / 2 ^ 16 := by
    have hlt := w.isLt
    simp only [rsvField, BitVec.extractLsb'_toNat, Nat.shiftRight_eq_div_pow]
    omega
  simp [← BitVec.toNat_inj, hrsv, Nat.shiftRight_eq_div_pow]

/-- K is all that is left above OPC when RSV is 0. -/
theorem kField_of_rsv {w : Word} (h : w >>> 16 = 0) : (kField w).toNat = w.toNat / 256 := by
  rw [toNat_kField]
  have hsmall : w.toNat / 2 ^ 16 = 0 := by simpa [Nat.shiftRight_eq_div_pow] using congrArg BitVec.toNat h
  omega

/-- Settles O4: beside RSV, the row of the map decides (`decodeFields_illegal`, `decodeFields_param`). -/
theorem rejectedWordsExactly : Obligations.RejectedWordsExactly := by
  intro w
  have hk : kField w ≠ 0 ↔ w.toNat / 256 % 256 ≠ 0 := by rw [← toNat_kField, Ne, ← BitVec.toNat_inj]; rfl
  by_cases hr : w >>> 16 = 0
  · rw [decodeWord, if_pos ((rsvField_eq_zero w).2 hr), decodeFields_illegal, decodeFields_param, hk,
      kField_of_rsv hr, toNat_opcField]
    exact ⟨by simp only [hr, ne_eq, not_true, false_or]; rfl, by simp only [hr, true_and]; rfl⟩
  · rw [decodeWord, if_neg fun h => hr ((rsvField_eq_zero w).1 h)]
    exact ⟨by simp only [ne_eq, hr, not_false_eq_true, true_or], by simp only [hr, false_and]; simp⟩

end Sys2Proof.Machine
end

section
/-! PROOFS. What the commits ensure, and that every step keeps the invariant (10_state R50). -/

namespace Sys2Proof.Machine

/-! ## Computations that ensure a property when they succeed -/

/-- Whatever the computation gives has the property; an error has nothing to show. -/
def Ensures {α : Type} (P : α → Prop) (r : Except ErrCode α) : Prop := ∀ u, r = .ok u → P u

section
variable {α β : Type} {P : β → Prop}

theorem Ensures.ok {b : β} (h : P b) : Ensures P (.ok b) := fun u hu => by cases hu; exact h

theorem Ensures.error (e : ErrCode) : Ensures P (.error e) := fun u hu => by cases hu

theorem Ensures.bind {x : Except ErrCode α} {f : α → Except ErrCode β} (hf : ∀ a, x = .ok a → Ensures P (f a)) :
    Ensures P (x >>= f) := fun u hu => by
  obtain ⟨a, ha, hfa⟩ := Except.bind_eq_ok.1 hu
  exact hf a ha u hfa

/-- A step whose outcome does not matter to the property. -/
theorem Ensures.after {x : Except ErrCode α} {f : α → Except ErrCode β} (hf : ∀ a, Ensures P (f a)) :
    Ensures P (x >>= f) := .bind fun a _ => hf a

theorem Ensures.ite {c : Prop} [Decidable c] {x y : Except ErrCode β} (hx : c → Ensures P x)
    (hy : ¬ c → Ensures P y) : Ensures P (if c then x else y) := by
  split
  · exact hx ‹c›
  · exact hy ‹¬ c›

end

/-! ## The invariant of the stored data -/

/-- The invariant without BUSY and DONE: the parameters, the three arrays and the tree (10_state R47 to R50). -/
def State.DataInv (s : State) : Prop :=
  s.params.wf ∧ Memory.wf (2 ^ s.params.cw) s.hist ∧ Memory.wf (2 ^ s.params.olog) s.obuf ∧
    Memory.wf (2 ^ s.params.ilog / 64) s.ibuf ∧ s.tree.Valid s.params

theorem State.inv_iff {s : State} : s.Inv ↔ s.DataInv ∧ (s.busy = true → s.done = false) := by
  simp only [State.Inv, State.DataInv, and_assoc]

section
variable {s : State}

theorem State.DataInv.setHist (h : s.DataInv) {m : Memory (BitVec 32)} (hm : Memory.wf (2 ^ s.params.cw) m) :
    (setHist m s).DataInv :=
  let ⟨hw, _, ho, hi, ht⟩ := h
  ⟨hw, hm, ho, hi, ht⟩

theorem State.DataInv.setTree (h : s.DataInv) {t : TreeState} (ht : t.Valid s.params) : (setTree t s).DataInv :=
  let ⟨hw, hh, ho, hi, _⟩ := h
  ⟨hw, hh, ho, hi, ht⟩

/-- A decoder's commit touches none of the stored data (40 R147). -/
theorem State.DataInv.decoderCommit (h : s.DataInv) (v : Nat) (src : Src) : (decoderCommit v src s).DataInv := h

/-- An encoder's commit stores within the sink's capacity (20_memory R76). -/
theorem State.DataInv.encoderCommit (h : s.DataInv) (a : BitStr) : Ensures State.DataInv (encoderCommit a s) := by
  rcases encoderCommit_cases a s with ⟨hfit, he⟩ | ⟨-, he⟩ <;> rw [he]
  · obtain ⟨hw, hh, ho, hi, ht⟩ := h
    exact .ok ⟨hw, hh, Memory.store_wf ho hfit, hi, ht⟩
  · exact .error _

theorem State.DataInv.unaryCommit (h : s.DataInv) (x : Nat) : Ensures State.DataInv (unaryCommit x s) := by
  rw [unaryCommit_eq]
  exact h.encoderCommit _

theorem State.DataInv.riceEncode (h : s.DataInv) (p : Byte) (x : Nat) : Ensures State.DataInv (riceEncode p x s) :=
  .ite (fun _ => .error _) fun _ => h.encoderCommit _

end

/-! ## Trees that commands leave -/

/-- What is left of validity to show for a tree of distinct characters of the part (10_state R50). -/
theorem Tree.valid_of_alpha {p : Config.Params} {t : Tree} (h2 : 2 ≤ t.alpha.length) (hn : t.alpha.Nodup)
    (hc : ∀ c ∈ t.alpha, c < numChars p) (hd : t.depth ≤ lmax) : t.Valid p := by
  refine ⟨h2, t.nodes_eq, ?_, hn, hc, hd⟩
  have hsub : t.alpha ⊆ List.range (numChars p) := fun c h => List.mem_range.2 (hc c h)
  have hlen := (hn.subperm hsub).length_le
  rw [List.length_range] at hlen
  rw [t.nodes_eq, nmax, Nat.pow_succ]
  simp only [numChars] at hlen
  omega

/-- The leaves the build starts from carry distinct characters of the part (44 R292, R293). -/
theorem withSynthetic_histLeaves_chars {s : State} (hw : s.params.wf) :
    ((withSynthetic s.params.cw (histLeaves s)).map Prod.fst).Nodup ∧
      (∀ c ∈ (withSynthetic s.params.cw (histLeaves s)).map Prod.fst, c < numChars s.params) := by
  have hlt : ∀ c ∈ (histLeaves s).map Prod.fst, c < numChars s.params := by
    rintro c hc
    obtain ⟨⟨c, n⟩, hm, rfl⟩ := List.mem_map.1 hc
    exact (mem_histLeaves.1 hm).1
  match hl : histLeaves s with
  | [] => simp [withSynthetic]
  | [(c, n)] =>
    have hc := hlt c (by simp [hl])
    have hcw : 2 ^ s.params.cw = 2 * 2 ^ (s.params.cw - 1) := by
      rw [← Nat.pow_succ', Nat.succ_eq_add_one, Nat.sub_add_cancel hw.1]
    simp only [numChars] at hc ⊢
    have hne : c ≠ 2 ^ s.params.cw - 1 - c := by omega
    have hlt' : 2 ^ s.params.cw - 1 - c < 2 ^ s.params.cw := by omega
    simp [withSynthetic, hc, hne, hlt']
  | a :: b :: l =>
    have hn := histLeaves_nodup s
    rw [hl] at hn hlt
    exact ⟨hn, hlt⟩

theorem length_withSynthetic {cw : Nat} {leaves : List (Nat × Nat)} (h : leaves ≠ []) :
    2 ≤ (withSynthetic cw leaves).length := by
  match leaves, h with
  | [_], _ => simp [withSynthetic]
  | _ :: _ :: _, _ => simp [withSynthetic]

/-- A build over HIST no deeper than LMAX is a valid tree (44 R297, 10_state R50). -/
theorem histTree_valid {s : State} (hw : s.params.wf) {t : Tree}
    (h : buildTree (withSynthetic s.params.cw (histLeaves s)) = some t) (hd : t.depth ≤ lmax) : t.Valid s.params := by
  have hne : histLeaves s ≠ [] := fun h0 => by simp [h0, withSynthetic, buildTree_nil] at h
  have h2 := length_withSynthetic (cw := s.params.cw) hne
  obtain ⟨t', ht', hp⟩ := buildTree_some (List.ne_nil_of_length_pos (Nat.zero_lt_of_lt h2))
  obtain rfl : t = t' := Option.some.inj (h.symm.trans ht')
  obtain ⟨hn, hc⟩ := withSynthetic_histLeaves_chars hw
  exact Tree.valid_of_alpha (by rw [hp.length_eq, List.length_map]; exact h2) (hp.nodup_iff.2 hn)
    (fun c hm => hc c (hp.mem_iff.1 hm)) hd

/-- The tree that H.DESER's parsers give is valid when it is no deeper than LMAX (45 R334 to R336). -/
theorem deserTree_valid {p : Config.Params} {shape : Shape} {src src' src'' : Src} {n : Nat} {t : Tree}
    (ht : pTopo (nmax p) (nmax p + 1) src 0 = .ok (shape, src', n)) (hn : ¬ n ≤ 1)
    (ha : pAlpha (numChars p) shape src' = .ok (t, src'')) (hd : ¬ lmax < t.depth) : t.Valid p := by
  obtain ⟨-, hnodes, -⟩ := pTopo_ok ht
  obtain ⟨-, rfl, hc, hnd⟩ := pAlpha_ok ha
  have := t.nodes_shape
  have := t.nodes_eq
  exact Tree.valid_of_alpha (by omega) hnd hc (Nat.le_of_not_lt hd)

/-- Every counter a written 0 is a canonical array (44 R290). -/
theorem clearedHist_wf (n : Nat) : Memory.wf n ((List.range n).map fun c => (c, (0 : BitVec 32))) := by
  refine ⟨?_, ?_⟩
  · rw [List.pairwise_map]
    exact List.pairwise_lt_range
  · simp

/-! ## Commands -/

/-- Every command's commit keeps the invariant of the stored data. -/
theorem exec_keeps_dataInv (i : Instr) {s : State} (h : s.DataInv) :
    ∃ r, exec i s = complete s r ∧ Ensures State.DataInv r := by
  cases i with
  | nop => exact ⟨.ok s, rfl, .ok h⟩
  | uniEnt => exact ⟨_, rfl, .after fun _ => .ok h⟩
  | binEnc | vbEnc => exact ⟨_, rfl, .after fun _ => h.encoderCommit _⟩
  | binEncU => exact ⟨_, rfl, .after fun _ => .after fun _ => h.encoderCommit _⟩
  | vbEncU => exact ⟨_, rfl, .after fun _ => .after fun _ => .after fun _ => h.encoderCommit _⟩
  | unaEnc => exact ⟨_, rfl, h.unaryCommit _⟩
  | unaEncU => exact ⟨_, rfl, .after fun _ => .after fun _ => h.unaryCommit _⟩
  | gamEnc | delEnc => exact ⟨_, rfl, .ite (fun _ => .error _) fun _ => h.encoderCommit _⟩
  | gamEncU | delEncU =>
    exact ⟨_, rfl, .after fun _ => .after fun _ => .ite (fun _ => .error _) fun _ => h.encoderCommit _⟩
  | riceEnc => exact ⟨_, rfl, .after fun _ => h.riceEncode _ _⟩
  | riceEncU => exact ⟨_, rfl, .after fun _ => .after fun _ => .after fun _ => h.riceEncode _ _⟩
  | hEnc => exact ⟨_, rfl, .after fun _ => .after fun _ => h.encoderCommit _⟩
  | unaDec => exact ⟨_, rfl, .after fun _ => .ok (h.decoderCommit _ _)⟩
  | binDec | gamDec | delDec | hDec => exact ⟨_, rfl, .after fun _ => .after fun _ => .ok (h.decoderCommit _ _)⟩
  | binDecU | unaDecU | riceDec | vbDec =>
    exact ⟨_, rfl, .after fun _ => .after fun _ => .after fun _ => .ok (h.decoderCommit _ _)⟩
  | gamDecU | delDecU =>
    exact ⟨_, rfl, .after fun _ => .after fun _ => .after fun _ => .after fun _ => .ok (h.decoderCommit _ _)⟩
  | riceDecU | vbDecU =>
    exact ⟨_, rfl, .after fun _ => .after fun _ => .after fun _ => .after fun _ => .after fun _ =>
      .ok (h.decoderCommit _ _)⟩
  | hClr => exact ⟨.ok _, rfl, .ok (h.setHist (clearedHist_wf _))⟩
  | hInc =>
    have ⟨_, hh, _⟩ := h
    refine ⟨_, rfl, .ite (fun _ => .error _) fun hx => .ite (fun _ => .error _) fun _ => .ok (h.setHist ?_)⟩
    exact Memory.store_wf hh (by simpa [numChars] using hx)
  | hBuild =>
    refine ⟨_, rfl, ?_⟩
    dsimp only
    split
    next => exact .ok (h.setTree trivial)
    next t ht =>
      exact .ite (fun _ => .error _) fun hd => .ok (h.setTree (histTree_valid h.1 ht (Nat.le_of_not_lt hd)))
  | hCode => exact ⟨_, rfl, .after fun _ => .after fun _ => .ok h⟩
  | hSer => exact ⟨_, rfl, .after fun _ => .bind fun u hu => .ok (h.encoderCommit _ u hu)⟩
  | hDeser =>
    exact ⟨_, rfl, .bind fun ⟨shape, src, n⟩ ht => .ite (fun _ => .ok (h.setTree trivial)) fun hn =>
      .bind fun ⟨t, src'⟩ ha => .ite (fun _ => .error _) fun hd =>
        .ok ((h.decoderCommit _ src').setTree (deserTree_valid ht hn ha hd))⟩

theorem complete_keeps_inv {s t : State} {r : Except ErrCode State} (h : s.DataInv) (hr : Ensures State.DataInv r)
    (ht : complete s r = .next t) : t.Inv := by
  refine State.inv_iff.2 ?_
  rcases complete_cases ht with ⟨u, hu, rfl⟩ | ⟨e, -, rfl⟩
  · exact ⟨hr u hu, by simp⟩
  · exact ⟨h, by simp⟩

theorem engineStep_keeps_inv {s t : State} (h : s.DataInv) (ht : engineStep s = .next t) : t.Inv := by
  unfold engineStep at ht
  split at ht
  next i _ =>
    obtain ⟨r, hexec, hr⟩ := exec_keeps_dataInv i h
    exact complete_keeps_inv h hr (hexec ▸ ht)
  next => exact complete_keeps_inv h (.error _) ht

/-! ## The HOST and the resets -/

/-- The cell that a place names lies within its array (20_memory R73, R74). -/
def Location.InRange (p : Config.Params) : Location → Prop
  | .hist c => c < 2 ^ p.cw
  | .ibuf j => j < 2 ^ p.ilog / 64
  | _ => True

theorem locate_inRange (p : Config.Params) (off : Nat) : (locate p off).InRange p := by
  unfold locate
  split
  · unfold registerAt
    split <;> trivial
  split
  · exact iteInduction (fun h => h) fun _ => trivial
  split
  · exact iteInduction (fun _ => trivial) fun _ => trivial
  split
  · exact iteInduction (fun h => h) fun _ => trivial
  · trivial

theorem hardReset_inv {s : State} (h : s.Inv) : (hardReset s).Inv := by
  obtain ⟨hw, -⟩ := h
  exact ⟨hw, Memory.wf_nil _, Memory.wf_nil _, Memory.wf_nil _, trivial, nofun⟩

theorem softReset_inv {s : State} (h : s.Inv) : (softReset s).Inv := by
  obtain ⟨hw, hh, ho, hi, -⟩ := h
  refine ⟨hw, ?_, ?_, hi, trivial, nofun⟩
  · exact iteInduction (fun _ => Memory.wf_nil _) fun _ => hh
  · exact iteInduction (fun _ => Memory.wf_nil _) fun _ => ho

theorem unlessBusy_inv {s stored : State} (h : s.Inv) (hs : s.busy = false → stored.Inv) :
    (unlessBusy s stored).Inv := by
  unfold unlessBusy
  split
  · exact h
  · exact hs (by simpa using ‹¬ s.busy = true›)

/-- A host write to a place within its array keeps the invariant (10_state R31 to R46). -/
theorem writeLocation_inv {s : State} {l : Location} (h : s.Inv) (hl : l.InRange s.params) (v : Word) :
    (writeLocation s v l).Inv := by
  have ⟨hw, hh, ho, hi, ht, hbd⟩ := h
  cases l with
  | ctrl => exact iteInduction (motive := State.Inv) (fun _ => softReset_inv h) fun _ => h
  | status => exact ⟨hw, hh, ho, hi, ht, fun hb => by simp [writeLocation, hbd hb]⟩
  | cmd => exact unlessBusy_inv h fun _ => ⟨hw, hh, ho, hi, ht, fun _ => rfl⟩
  | x | ulo | uhi | obit | ipos | ilen => exact unlessBusy_inv h fun _ => h
  | hist c => exact unlessBusy_inv h fun _ => ⟨hw, Memory.store_wf hh hl, ho, hi, ht, hbd⟩
  | ibuf j => exact unlessBusy_inv h fun _ => ⟨hw, hh, ho, Memory.store_wf hi hl, ht, hbd⟩
  | id | res0 | res1 | params | obuf | reserved => exact h

theorem hostStep_keeps_inv {s t : State} {a : HostAccess} (h : s.Inv) (ht : hostStep s a = .next t) : t.Inv := by
  cases a with
  | read addr width =>
    simp only [hostStep] at ht
    split at ht
    · split at ht <;> (cases ht; exact h)
    · cases ht
  | write addr width v =>
    simp only [hostStep] at ht
    split at ht
    · split at ht
      · cases ht
        exact writeLocation_inv h (locate_inRange _ _) v
      · cases ht
        exact h
    · cases ht

/-- Settles O48: each kind of turn keeps it: a host access (`hostStep_keeps_inv`), the reset input (`hardReset_inv`) and
the ENGINE's completion (`engineStep_keeps_inv`). -/
theorem stepKeepsInvariant : Obligations.StepKeepsInvariant := by
  intro s t hs hstep
  have h : (takeTurn s).Inv := hs
  unfold step at hstep
  split at hstep
  next a _ => exact hostStep_keeps_inv h hstep
  next =>
    cases hstep
    exact hardReset_inv h
  next =>
    split at hstep
    · exact engineStep_keeps_inv (State.inv_iff.1 h).1 hstep
    · cases hstep
      exact h

end Sys2Proof.Machine
end

section
/-! PROOFS. The command cycle: what the ENGINE's turn does, and what every completion does (10_state R30, R31,
60_exceptions R373, R374). -/

namespace Sys2Proof.Machine

/-! ## The ENGINE's turn -/

section
variable {s : State}

theorem step_engine_busy (ht : nextTurn s = .engine) (hb : s.busy = true) : step s = engineStep (takeTurn s) := by
  simp [step, ht, hb]

theorem step_engine_idle (ht : nextTurn s = .engine) (hb : s.busy = false) : step s = .next (takeTurn s) := by
  simp [step, ht, hb]

theorem engineStep_command {i : Instr} (h : decodeWord s.cmd = .ok i) : engineStep s = exec i s := by
  simp [engineStep, h]

theorem engineStep_reject {e : DecodeError} (h : decodeWord s.cmd = .error e) : engineStep s = reject e s := by
  simp [engineStep, h]

end

/-- A completion ends the command in flight, whatever its outcome (60_exceptions R374). -/
theorem complete_next (s : State) (r : Except ErrCode State) :
    ∃ t, complete s r = .next t ∧ t.busy = false ∧ t.done = true :=
  ⟨_, rfl, by cases r <;> simp⟩

/-- Settles O5: with BUSY the ENGINE's turn is its step on CMD (`step_engine_busy`). -/
theorem stepRunsDecodedCommand : Obligations.StepRunsDecodedCommand := by
  intro s i ht hb hd
  rw [step_engine_busy ht hb, engineStep_command (s := takeTurn s) hd]

/-- Settles O6: the step completes with the error (`complete_failed`). -/
theorem stepRejectsOtherWords : Obligations.StepRejectsOtherWords := by
  intro s e ht hb hd
  rw [step_engine_busy ht hb, engineStep_reject (s := takeTurn s) hd]
  cases e with
  | illegal => exact complete_failed (by decide) _
  | param => exact complete_failed (by decide) _

/-- Settles O7: the placed word is the command's, which decodes back to it (`decodeEncodeAgree`). -/
theorem acceptedCommandRunsNext : Obligations.AcceptedCommandRunsNext := by
  intro s i hi
  have hword : BitVec.ofNat 64 ((encode i).toNat % 2 ^ 64) = encode i := by
    rw [Nat.mod_eq_of_lt (encode i).isLt, BitVec.ofNat_toNat, BitVec.setWidth_eq]
  unfold State.withFetchWord
  rw [hword, step_engine_busy rfl rfl]
  exact engineStep_command (decodeEncodeAgree i hi)

/-- Settles O8: the ENGINE's step is a completion (`engineStep_effect`), which ends the command. -/
theorem engineTurnCompletes : Obligations.EngineTurnCompletes := by
  refine fun s ht => ⟨fun hb => ?_, step_engine_idle ht⟩
  obtain ⟨r, hstep, -⟩ := engineStep_effect (takeTurn s)
  rw [step_engine_busy ht hb, hstep]
  exact complete_next _ r

/-! ## Completion fields -/

/-- What every completed effect does to the fields that no command writes but through its completion
(60_exceptions R373, R374). -/
theorem Effect.completion_fields {s t : State} {r : Except ErrCode State} (hr : Effect s r)
    (h : complete s r = .next t) :
    t.done = true ∧ t.busy = false ∧ t.err = (s.err || t.ecode != .ok) ∧ t.wovr = s.wovr := by
  rcases complete_cases h with ⟨u, hu, rfl⟩ | ⟨e, -, rfl⟩
  · obtain ⟨-, hcommits⟩ := hr
    rw [hcommits u hu]
    simp
  · simp

/-- Settles O9: every command completes an effect (`exec_effect`). -/
theorem completionFieldsAlways : Obligations.CompletionFieldsAlways := by
  intro i s
  obtain ⟨r, hexec, hr⟩ := exec_effect i s
  obtain ⟨t, hnext, -⟩ := complete_next s r
  obtain ⟨hdone, hbusy, herr, hwovr⟩ := hr.completion_fields hnext
  obtain ⟨hx, hulo, huhi, hilen, hibuf, hie, hcmd⟩ := hr.operands_kept hnext
  exact ⟨t, hexec.trans hnext, hdone, hbusy, herr, hie, hcmd, hx, hulo, huhi, hilen, hibuf, hwovr⟩

/-! ## Miscellaneous commands -/

/-- A command that commits the two results answers them. -/
theorem answered_completeWith {v w : Nat} {s : State} (hv : v < 2 ^ 64) (hw : w < 2 ^ 64) :
    Answered v w s (completeWith .ok (setRes1 w (setRes0 v s))) :=
  ⟨toNat_reg_of_lt hv, toNat_reg_of_lt hw, completedOk_completeWith rfl, rfl⟩

/-- UNI.ENT over a non-empty universe commits the entropy and 0 (40 R151). -/
theorem exec_uniEnt {s : State} (hu : s.ulo.toNat ≤ s.uhi.toNat) :
    exec .uniEnt s = .next (completeWith .ok (setRes1 0 (setRes0 (entropy s.ulo.toNat s.uhi.toNat) s))) := by
  simp only [exec, execUniEnt, checkUniverse_ok hu, Except.ok_bind, complete_ok]

/-- Settles O11: NOP completes the state it finds; UNI.ENT answers the entropy (`exec_uniEnt`), or its universe check
raises UNIVERSE. -/
theorem miscellaneousResults : Obligations.MiscellaneousResults := by
  refine fun s => ⟨⟨_, rfl, completedOk_completeWith rfl, rfl⟩, fun e hu he => ⟨_, exec_uniEnt hu, ?_⟩,
    fun hu => raises_emptyUniverse hu rfl⟩
  obtain rfl := entropy_of_isEntropy he
  have hle : entropy s.ulo.toNat s.uhi.toNat ≤ 64 := entropy_le s.uhi.isLt
  exact answered_completeWith (by omega) (by decide)

end Sys2Proof.Machine
end

section
/-! PROOFS. The HOST's accesses: resets, register writes and reads, the windows and the bus error (10_state, 20_memory,
70_reset R410). -/

namespace Sys2Proof.Machine

/-! ## Reset -/

theorem resetWith_inv {p : Config.Params} (hp : p.wf) : (State.resetWith p).Inv :=
  ⟨hp, Memory.wf_nil _, Memory.wf_nil _, Memory.wf_nil _, trivial, nofun⟩

theorem reference_wf : Config.reference.wf := by
  simp [Config.Params.wf, Config.reference]

/-- Settles O49: with no cell written and every register 0 the invariant asks for legal parameters only
(`resetWith_inv`). -/
theorem resetState : Obligations.ResetState := by
  refine ⟨resetWith_inv reference_wf, rfl, fun s hs => by simp only [step, hs]; rfl, fun p hp => ?_⟩
  have hstatus : statusWord (State.resetWith p) = 0 := by
    simp [statusWord, treeField, State.resetWith, treeCode, ErrCode.code, reg]
  exact ⟨resetWith_inv hp, rfl, hstatus, rfl, rfl, rfl, rfl, rfl, rfl, rfl, rfl, rfl, rfl, rfl, fun k => ⟨rfl, rfl, rfl⟩⟩

/-! ## Writes -/

theorem unlessBusy_idle {s : State} (hb : s.busy = false) (stored : State) : unlessBusy s stored = stored := by
  simp [unlessBusy, hb]

/-- A write that BUSY would drop stores when BUSY = 0 (70_reset R422). -/
theorem hostWrites_idle {s stored : State} {off : Nat} {v : Word} {l : Location} (hb : s.busy = false)
    (h : off < 2 ^ 22) (h8 : off % 8 = 0) (hl : locate s.params off = l)
    (hw : writeLocation s v l = unlessBusy s stored) : HostWrites s off v stored := by
  rw [← unlessBusy_idle hb stored, ← hw]
  exact hostWrites_writeLocation v h h8 hl

/-- Such a write to a register. -/
theorem hostWrites_register {s stored : State} {off : Nat} {v : Word} (hb : s.busy = false) (h : off < 0x080000)
    (h8 : off % 8 = 0) (hw : writeLocation s v (registerAt off) = unlessBusy s stored) : HostWrites s off v stored :=
  hostWrites_idle hb (by omega) h8 (locate_register s.params h) hw

/-- CTRL bit 1 clear makes the write one of IE (10_state R34). -/
theorem writeCtrl_ie {v : Word} (h : v.getLsbD 1 = false) (s : State) :
    writeCtrl v s = { s with ie := v.getLsbD 0 } :=
  if_neg (Bool.eq_false_iff.1 h)

/-- Settles O51: with BUSY = 0 each register's write stores (`hostWrites_register`). -/
theorem idleWritesStore : Obligations.IdleWritesStore := by
  intro s v hb
  refine ⟨?_, ?_, ?_, ?_, ?_, ?_, ?_, fun hv => writeCtrl_ie hv s ▸ hostWrites_ctrl s v⟩
  all_goals exact hostWrites_register hb (by decide) (by decide) rfl

/-- Settles O60: the write is `writeStatus`, and IRQ is read off DONE and IE. -/
theorem statusWriteClears : Obligations.StatusWriteClears := by
  intro s v
  refine ⟨?_, by simp [irq], rfl, rfl⟩
  have clears : ∀ b c : Bool, (if b then false else c) = (c && !b) := by decide
  simp only [clears]
  exact hostWrites_status s v

/-- Settles O54: the access is addressed to the HCE but is not one it accepts. -/
theorem busErrorChangesNothing : Obligations.BusErrorChangesNothing := by
  intro s off width v h hbad
  have hwin : inWindow s.params (s.params.base + off) = true := by
    simp only [inWindow, Bool.and_eq_true, decide_eq_true_eq]
    omega
  have hacc : accessOk off width = false := by
    rcases hbad with hw | h8
    · simp [accessOk, hw]
    · simp [accessOk, h8]
  constructor <;> simp only [hostStep, hwin, Nat.add_sub_cancel_left, hacc] <;> rfl

/-! ## Register reads -/

/-- A host read at an offset is the read of the place there (20_memory R70, R81). -/
theorem hostReads_readLocation {s : State} {off : Nat} {l : Location} (h : off < 2 ^ 22) (h8 : off % 8 = 0)
    (hl : locate s.params off = l) : HostReads s off (readLocation s l) :=
  ⟨s.draws + 1, by rw [hostStep_read s h h8, hl]; rfl⟩

theorem hostReads_register {s : State} {off : Nat} {v : Word} (h : off < 0x080000) (h8 : off % 8 = 0)
    (hv : readLocation s (registerAt off) = v) : HostReads s off v :=
  hv ▸ hostReads_readLocation (by omega) h8 (locate_register s.params h)

theorem settled_idle {s : State} (hb : s.busy = false) (v : Word) : settled s v = v := by
  simp [settled, hb]

/-- PARAMS as the claims write it (10_state R42). -/
theorem paramsWord_eq (p : Config.Params) :
    paramsWord p = BitVec.ofNat 64 (p.cw + 256 * 64 + 65536 * p.olog + 16777216 * p.ilog) := by
  rw [paramsWord, reg]
  congr 1
  omega

/-- STATUS as the claims write it (10_state R35 to R41). -/
theorem statusWord_eq (s : State) : statusWord s = BitVec.ofNat 64
    (s.busy.toNat + 2 * s.done.toNat + 4 * s.err.toNat + 8 * s.wovr.toNat + 16 * treeField s + 256 * s.ecode.code) := by
  rw [statusWord, reg]
  congr 1
  omega

/-- Settles O56: each read is its place's value (`hostReads_register`), settled as BUSY = 0 (`settled_idle`). -/
theorem registerReads : Obligations.RegisterReads := by
  intro s hp hb
  constructor
  · simp only [List.forall_mem_cons, List.not_mem_nil, false_imp_iff, implies_true, and_true]
    refine ⟨?_, ?_, ?_, ?_, ?_, ?_, ?_, ?_, ?_, ?_, ?_, ?_⟩
    case refine_7 | refine_8 | refine_9 | refine_10 =>
      exact hostReads_register (by decide) (by decide) (settled_idle hb _)
    case refine_12 => exact hostReads_register (by decide) (by decide) (paramsWord_eq _)
    all_goals exact hostReads_register (by decide) (by decide) rfl
  · intro tree ecode htree hecode
    have ht : treeField s = tree := by
      rw [treeField, hb]
      rcases htree with ⟨h, rfl⟩ | ⟨h, rfl⟩ | ⟨⟨b, h⟩, rfl⟩ <;> rw [h] <;> rfl
    have he : s.ecode.code = ecode := (by decide : ∀ r ∈ _, ErrCode.code r.1 = r.2) _ hecode
    refine hostReads_register (by decide) (by decide) ((statusWord_eq s).trans ?_)
    rw [hb, ht, he, Bool.toNat_false, Nat.zero_add]

/-! ## The windows -/

section
variable {s : State}

theorem hostReads_hist (hp : s.params.wf) {c : Nat} (hc : c < 2 ^ s.params.cw) :
    HostReads s (0x080000 + 8 * c) (settled s ((histCount s c).setWidth 64)) := by
  obtain ⟨hcw, -⟩ := window_sizes hp
  exact hostReads_readLocation (by omega) (by omega) (locate_hist s.params hc (by omega))

theorem hostReads_obuf (hp : s.params.wf) {j : Nat} (hj : j < 2 ^ s.params.olog / 64) :
    HostReads s (0x100000 + 8 * j) (settled s (obufWord s j)) := by
  obtain ⟨-, holog, -⟩ := window_sizes hp
  exact hostReads_readLocation (by omega) (by omega) (locate_obuf s.params hj (by omega))

theorem hostReads_ibuf (hp : s.params.wf) {j : Nat} (hj : j < 2 ^ s.params.ilog / 64) :
    HostReads s (0x200000 + 8 * j) (ibufWord s j) := by
  obtain ⟨-, -, hilog, -⟩ := window_sizes hp
  exact hostReads_readLocation (by omega) (by omega) (locate_ibuf s.params hj (by omega))

/-- A counter that was written reads as it was written, when BUSY = 0 (20_memory R73). -/
theorem hostReads_hist_written (hp : s.params.wf) (hb : s.busy = false) {c : Nat} (hc : c < 2 ^ s.params.cw)
    {w : BitVec 32} (hw : Memory.get? s.hist c = some w) : HostReads s (0x080000 + 8 * c) (w.setWidth 64) := by
  have hread := hostReads_hist hp hc
  rwa [settled_idle hb, histCount, hw, Option.getD_some] at hread

/-- An IBUF word that was written reads as it was written (20_memory R75). -/
theorem hostReads_ibuf_written (hp : s.params.wf) {j : Nat} (hj : j < 2 ^ s.params.ilog / 64) {w : Word}
    (hw : Memory.get? s.ibuf j = some w) : HostReads s (0x200000 + 8 * j) w := by
  have hread := hostReads_ibuf hp hj
  rwa [ibufWord, hw, Option.getD_some] at hread

end

/-- Settles O57: a place that no command writes, and STATUS but for TREE, does not look at BUSY; work state reads as
`settled` says. -/
theorem readsWhileBusy : Obligations.ReadsWhileBusy := by
  intro s hp hb
  refine ⟨?_, fun j hj => hostReads_ibuf hp hj, ?_, fun off h8 hoff => ?_⟩
  · simp only [List.forall_mem_cons, List.not_mem_nil, false_imp_iff, implies_true, and_true]
    refine ⟨?_, ?_, ?_, ?_, ?_, ?_, ?_, ?_⟩
    case refine_8 => exact hostReads_register (by decide) (by decide) (paramsWord_eq _)
    all_goals exact hostReads_register (by decide) (by decide) rfl
  · have hf : treeField s = (Config.freeBusyWord s.draws).toNat % 4 := by rw [treeField, if_pos hb]
    refine ⟨_, Nat.mod_lt (Config.freeBusyWord s.draws).toNat (by decide), ?_⟩
    refine hostReads_register (by decide) (by decide) ((statusWord_eq s).trans ?_)
    rw [hb, hf, Bool.toNat_true]
  · obtain ⟨hcw, holog, -⟩ := window_sizes hp
    have hlt : off < 2 ^ 22 := by
      simp only [List.mem_cons, List.not_mem_nil, or_false] at hoff
      omega
    exact ⟨_, hostReads_readLocation hlt h8 rfl⟩

/-- Settles O58: a store at one cell reads back there and leaves the others (`Memory.get?_store_one`). -/
theorem windowsReadBack : Obligations.WindowsReadBack := by
  intro s v hp hb
  obtain ⟨hcw, holog, hilog, -⟩ := window_sizes hp
  refine ⟨fun c hc => ?_, fun j hj => ?_, fun j hj => ?_⟩
  · refine ⟨_, hostWrites_idle hb (by omega) (by omega) (locate_hist s.params hc (by omega)) rfl, ?_,
      fun d hd => by simp [Memory.get?_store_one, hd], rfl⟩
    refine hostReads_hist_written ?_ ?_ ?_ ?_
    exacts [hp, hb, hc, by simp [Memory.get?_store_one]]
  · refine ⟨_, hostWrites_idle hb (by omega) (by omega) (locate_ibuf s.params hj (by omega)) rfl, ?_,
      fun d hd => by simp [Memory.get?_store_one, hd], rfl⟩
    refine hostReads_ibuf_written ?_ ?_ ?_
    exacts [hp, hj, by simp [Memory.get?_store_one]]
  · exact hostWrites_writeLocation v (by omega) (by omega) (locate_obuf s.params hj (by omega))

/-! ## Stream bits -/

/-- Bit i of a bit string's number is its i-th bit (00_scope R16). -/
theorem testBit_val (a : BitStr) (i : Nat) : (val a).testBit i = a[i]?.getD false := by
  induction a generalizing i with
  | nil => simp [val]
  | cons b a ih =>
    have hb : (b.toNat + 2 * val a) / 2 = val a := by have := b.toNat_le; omega
    cases i with
    | zero => cases b <;> simp [val]
    | succ i => rw [val, Nat.testBit_succ, hb, ih, List.getElem?_cons_succ]

/-- Bit i of OBUF word j is stream bit 64j + i (20_memory R74). -/
theorem getLsbD_obufWord (s : State) (j : Nat) {i : Nat} (hi : i < 64) :
    (obufWord s j).getLsbD i = obufBit s (64 * j + i) := by
  rw [obufWord, reg, BitVec.getLsbD_ofNat, testBit_val]
  simp [hi]

/-- Settles O59: word i div 64 holds the bit (`getLsbD_obufWord`); for IBUF that is what its bit is. -/
theorem streamBitMapping : Obligations.StreamBitMapping := by
  intro s i hp hb
  obtain ⟨-, -, -, hocap, hicap⟩ := window_sizes hp
  refine ⟨fun hi => ⟨_, hostReads_obuf hp (by omega), ?_⟩, fun hi => ⟨_, hostReads_ibuf hp (by omega), rfl⟩⟩
  rw [settled_idle hb, getLsbD_obufWord s _ (Nat.mod_lt i (by decide)), Nat.div_add_mod]

end Sys2Proof.Machine
end

section
/-! PROOFS. A command in flight never sees a host write: no command reads WOVR or the bus's answer, which is all that a
dropped write changes (20_memory R84, 70_reset R421). -/

namespace Sys2Proof.Machine

/-- The state with another WOVR and another bus answer. -/
def relabel (o : Bool) (r : BusResponse) (s : State) : State := { s with wovr := o, response := r }

/-- A computation that neither reads WOVR and the bus's answer nor changes them. -/
def Blind (f : State → Except ErrCode State) : Prop := ∀ o r s, f (relabel o r s) = (f s).map (relabel o r)

/-- A step whose outcome does not depend on WOVR and the bus's answer. -/
def Unlabelled {α : Type} (f : State → α) : Prop := ∀ o r s, f (relabel o r s) = f s

theorem Blind.error (e : ErrCode) : Blind fun _ => .error e := fun _ _ _ => rfl

theorem Blind.bind {α : Type} {x : State → Except ErrCode α} {f : State → α → Except ErrCode State} (hx : Unlabelled x)
    (hf : ∀ a, Blind fun s => f s a) : Blind fun s => x s >>= f s := fun o r s => by
  dsimp only
  rw [hx o r s]
  cases x s with
  | error e => rfl
  | ok a => exact hf a o r s

theorem Blind.ite {c : State → Prop} [∀ s, Decidable (c s)] {x y : State → Except ErrCode State} (hc : Unlabelled c)
    (hx : Blind x) (hy : Blind y) : Blind fun s => if c s then x s else y s := fun o r s => by
  simp only [hc o r s]
  split
  · exact hx o r s
  · exact hy o r s

theorem blind_encoderCommit {a : State → BitStr} (ha : Unlabelled a) : Blind fun s => encoderCommit (a s) s :=
  fun o r s => by
  dsimp only
  rw [ha o r s]
  rcases encoderCommit_cases (a s) s with ⟨hfit, he⟩ | ⟨hfull, he⟩ <;> rw [he]
  · exact encoderCommit_ok (s := relabel o r s) hfit
  · exact encoderCommit_error (s := relabel o r s) hfull

theorem blind_unaryCommit {x : State → Nat} (hx : Unlabelled x) : Blind fun s => unaryCommit (x s) s := by
  simp only [unaryCommit_eq]
  exact blind_encoderCommit fun o r s => by rw [hx o r s]

theorem blind_riceEncode (p : Byte) {x : State → Nat} (hx : Unlabelled x) : Blind fun s => riceEncode p (x s) s :=
  .ite (fun o r s => by rw [hx o r s]) (.error _) (blind_encoderCommit fun o r s => by rw [hx o r s])

theorem blind_decoderCommit (v : Nat) (src : Src) : Blind fun s => .ok (decoderCommit v src s) := fun _ _ _ => rfl

/-- The state that a blind computation gives, changed further. -/
theorem Blind.then {f : State → Except ErrCode State} {g : State → State} (hf : Blind f)
    (hg : ∀ o r s, g (relabel o r s) = relabel o r (g s)) : Blind fun s => f s >>= fun u => .ok (g u) := fun o r s => by
  dsimp only
  rw [hf o r s]
  cases f s with
  | error e => rfl
  | ok u => exact congrArg Except.ok (hg o r u)

/-! H.BUILD: the build's tree, and what is committed of it. -/

/-- What H.BUILD commits of the build over k leaves (44 R297, R298). -/
def buildCommit (k : Nat) : Option Tree → State → Except ErrCode State
  | none, s => .ok (setRes1 0 (setRes0 0 (setTree .empty s)))
  | some t, s => if lmax < t.depth then .error .codeLen else .ok (setRes1 (2 * k - 1) (setRes0 k (setTree (.valid t) s)))

/-- The leaves that H.BUILD starts from (44 R292, R293). -/
def buildLeaves (s : State) : List (Nat × Nat) := withSynthetic s.params.cw (histLeaves s)

theorem exec_hBuild (s : State) :
    exec .hBuild s = complete s (buildCommit (buildLeaves s).length (buildTree (buildLeaves s)) s) := by
  change complete s (match buildTree (buildLeaves s) with | none => _ | some t => _) = _
  cases buildTree (buildLeaves s) <;> rfl

theorem blind_buildCommit (s₀ : State) (t : Option Tree) : Blind fun s => buildCommit (buildLeaves s₀).length t s := by
  cases t with
  | none => exact fun _ _ _ => rfl
  | some t => exact .ite (fun _ _ _ => rfl) (.error _) fun _ _ _ => rfl

/-- No command reads WOVR or the bus's answer, and none changes them. -/
theorem exec_blind (i : Instr) : ∃ f, (∀ s, exec i s = complete s (f s)) ∧ Blind f := by
  cases i with
  | nop => exact ⟨fun s => .ok s, fun _ => rfl, fun _ _ _ => rfl⟩
  | uniEnt => exact ⟨_, fun _ => rfl, .bind (fun _ _ _ => rfl) fun _ _ _ _ => rfl⟩
  | binEnc | vbEnc =>
    exact ⟨_, fun _ => rfl, .bind (fun _ _ _ => rfl) fun _ => blind_encoderCommit fun _ _ _ => rfl⟩
  | binEncU | hEnc =>
    exact ⟨_, fun _ => rfl, .bind (fun _ _ _ => rfl) fun _ => .bind (fun _ _ _ => rfl) fun _ =>
      blind_encoderCommit fun _ _ _ => rfl⟩
  | vbEncU =>
    exact ⟨_, fun _ => rfl, .bind (fun _ _ _ => rfl) fun _ => .bind (fun _ _ _ => rfl) fun _ =>
      .bind (fun _ _ _ => rfl) fun _ => blind_encoderCommit fun _ _ _ => rfl⟩
  | unaEnc => exact ⟨_, fun _ => rfl, blind_unaryCommit fun _ _ _ => rfl⟩
  | unaEncU =>
    exact ⟨_, fun _ => rfl, .bind (fun _ _ _ => rfl) fun _ => .bind (fun _ _ _ => rfl) fun _ =>
      blind_unaryCommit fun _ _ _ => rfl⟩
  | gamEnc | delEnc =>
    exact ⟨_, fun _ => rfl, .ite (fun _ _ _ => rfl) (.error _) (blind_encoderCommit fun _ _ _ => rfl)⟩
  | gamEncU | delEncU =>
    exact ⟨_, fun _ => rfl, .bind (fun _ _ _ => rfl) fun _ => .bind (fun _ _ _ => rfl) fun _ =>
      .ite (fun _ _ _ => rfl) (.error _) (blind_encoderCommit fun _ _ _ => rfl)⟩
  | riceEnc p =>
    exact ⟨_, fun _ => rfl, .bind (fun _ _ _ => rfl) fun _ => blind_riceEncode p fun _ _ _ => rfl⟩
  | riceEncU p =>
    exact ⟨_, fun _ => rfl, .bind (fun _ _ _ => rfl) fun _ => .bind (fun _ _ _ => rfl) fun _ =>
      .bind (fun _ _ _ => rfl) fun _ => blind_riceEncode p fun _ _ _ => rfl⟩
  | unaDec => exact ⟨_, fun _ => rfl, .bind (fun _ _ _ => rfl) fun _ => blind_decoderCommit _ _⟩
  | binDec | gamDec | delDec | hDec =>
    exact ⟨_, fun _ => rfl, .bind (fun _ _ _ => rfl) fun _ => .bind (fun _ _ _ => rfl) fun _ =>
      blind_decoderCommit _ _⟩
  | binDecU | unaDecU | riceDec | vbDec =>
    exact ⟨_, fun _ => rfl, .bind (fun _ _ _ => rfl) fun _ => .bind (fun _ _ _ => rfl) fun _ =>
      .bind (fun _ _ _ => rfl) fun _ => blind_decoderCommit _ _⟩
  | gamDecU | delDecU =>
    exact ⟨_, fun _ => rfl, .bind (fun _ _ _ => rfl) fun _ => .bind (fun _ _ _ => rfl) fun _ =>
      .bind (fun _ _ _ => rfl) fun _ => .bind (fun _ _ _ => rfl) fun _ => blind_decoderCommit _ _⟩
  | riceDecU | vbDecU =>
    exact ⟨_, fun _ => rfl, .bind (fun _ _ _ => rfl) fun _ => .bind (fun _ _ _ => rfl) fun _ =>
      .bind (fun _ _ _ => rfl) fun _ => .bind (fun _ _ _ => rfl) fun _ => .bind (fun _ _ _ => rfl) fun _ =>
      blind_decoderCommit _ _⟩
  | hClr => exact ⟨fun s => .ok _, fun _ => rfl, fun _ _ _ => rfl⟩
  | hInc =>
    exact ⟨_, fun _ => rfl, .ite (fun _ _ _ => rfl) (.error _)
      (.ite (fun _ _ _ => rfl) (.error _) fun _ _ _ => rfl)⟩
  | hBuild => exact ⟨_, exec_hBuild, fun o r s => blind_buildCommit s (buildTree (buildLeaves s)) o r s⟩
  | hCode =>
    exact ⟨_, fun _ => rfl, .bind (fun _ _ _ => rfl) fun _ => .bind (fun _ _ _ => rfl) fun _ _ _ _ => rfl⟩
  | hSer =>
    exact ⟨_, fun _ => rfl, .bind (fun _ _ _ => rfl) fun _ =>
      (blind_encoderCommit fun _ _ _ => rfl).then fun _ _ _ => rfl⟩
  | hDeser =>
    refine ⟨_, fun _ => rfl, .bind (fun _ _ _ => rfl) fun _ => .ite (fun _ _ _ => rfl) (fun _ _ _ => rfl)
      (.bind (fun _ _ _ => rfl) fun _ => .ite (fun _ _ _ => rfl) (.error _) fun _ _ _ => rfl)⟩

/-- The ENGINE's step neither reads nor changes WOVR and the bus's answer. -/
theorem engineStep_blind (s : State) :
    ∃ t, engineStep s = .next t ∧ ∀ o r, engineStep (relabel o r s) = .next (relabel o r t) := by
  unfold engineStep
  cases hd : decodeWord s.cmd with
  | error e => exact ⟨_, rfl, fun o r => by rw [show (relabel o r s).cmd = s.cmd from rfl, hd]; rfl⟩
  | ok i =>
    obtain ⟨f, hexec, hf⟩ := exec_blind i
    refine ⟨_, hexec s, fun o r => ?_⟩
    rw [show (relabel o r s).cmd = s.cmd from rfl, hd]
    dsimp only
    rw [hexec, hf o r s]
    cases f s <;> rfl

/-- While BUSY a host write to any place but CTRL and STATUS changes at most WOVR. -/
theorem writeLocation_busy {s : State} {l : Location} (hb : s.busy = true) (hc : l ≠ .ctrl) (hs : l ≠ .status)
    (v : Word) : ∃ o, writeLocation s v l = { s with wovr := o } := by
  cases l with
  | ctrl => exact absurd rfl hc
  | status => exact absurd rfl hs
  | cmd | x | ulo | uhi | obit | ipos | ilen | hist | ibuf => exact ⟨true, if_pos hb⟩
  | id | res0 | res1 | params | obuf | reserved => exact ⟨s.wovr, rfl⟩

/-- CTRL and STATUS have one offset each (10_state R32). -/
theorem locate_ne_ctrl_status {off : Nat} (p : Config.Params) (hc : off ≠ 0x008) (hs : off ≠ 0x010) :
    locate p off ≠ .ctrl ∧ locate p off ≠ .status := by
  unfold locate
  split
  · unfold registerAt
    split <;> simp at *
  · dsimp only
    split_ifs <;> simp

/-- What a host write changes while BUSY, at any width and alignment. -/
theorem hostStep_write_busy {s u : State} {off width : Nat} {v : Word} (hb : s.busy = true) (hc : off ≠ 0x008)
    (hs : off ≠ 0x010) (h : hostStep s (.write (s.params.base + off) width v) = .next u) :
    u = relabel u.wovr u.response s := by
  obtain ⟨hctrl, hstatus⟩ := locate_ne_ctrl_status s.params hc hs
  obtain ⟨o, hw⟩ := writeLocation_busy hb hctrl hstatus v
  simp only [hostStep, Nat.add_sub_cancel_left, hw] at h
  split at h
  · split at h <;> (cases h; rfl)
  · cases h

/-- Settles O53: the write is a relabelling (`hostStep_write_busy`), to which the ENGINE's step is blind. -/
theorem inputsTakenAtAcceptance : Obligations.InputsTakenAtAcceptance := by
  intro s u off v hb hc hs h
  obtain ⟨t, ht, hblind⟩ := engineStep_blind s
  refine ⟨t, ht, ?_⟩
  rw [hostStep_write_busy hb hc hs h]
  exact hblind _ _

end Sys2Proof.Machine
end

section
/-! PROOFS. The encoders: the string each one commits, what it writes, and where it raises RANGE, ARG and SINK_FULL
(20_memory R76, 40 R144, R146, 41 and 42). -/

namespace Sys2Proof.Machine

/-! ## Commands that commit one string -/

/-- The command is the encoder's commit of the string a (40 R146). -/
def Writes (i : Instr) (s : State) (a : BitStr) : Prop := exec i s = complete s (encoderCommit a s)

section
variable {i : Instr} {s t : State} {a : BitStr} {e : ErrCode}

theorem Writes.encoded (h : Writes i s a) (hw : s.params.wf) (hfit : Fits s a.length) :
    ∃ t, exec i s = .next t ∧ Encoded a s t := by
  rw [h]
  exact encoded_complete hw hfit

theorem Writes.sinkFull (h : Writes i s a) (hfit : ¬ Fits s a.length) : Raises i s .sinkFull :=
  raises_of_error (by decide) h (encoderCommit_error (Nat.lt_of_not_le hfit))

theorem Writes.encoded_of_ok (h : Writes i s a) (hw : s.params.wf) (ht : exec i s = .next t) (hok : t.ecode = .ok) :
    Encoded a s t :=
  Machine.encoded_of_ok hw (h ▸ ht) hok

/-- A command that raises an error does not complete OK. -/
theorem Raises.ecode_ne_ok (h : Raises i s e) (he : e ≠ .ok) (ht : exec i s = .next t) : t.ecode ≠ .ok := by
  obtain ⟨u, hu, hfailed⟩ := h
  obtain rfl : t = u := Host.Outcome.next.inj (ht.symm.trans hu)
  rw [hfailed]
  exact he

end

/-! ## Raw forms -/

section
variable {s : State}

theorem writes_binEnc {n : Byte} (hn : n.toNat ≤ 64) : Writes (.binEnc n) s (bin s.x.toNat n.toNat) := by
  simp only [Writes, exec, execBinEnc, (binWidthOk_iff n).2 hn, checkK_true, Except.ok_bind]

theorem writes_unaEnc : Writes .unaEnc s (unary s.x.toNat) := by
  simp only [Writes, exec, execUnaEnc, unaryCommit_eq]

theorem writes_gamEnc (hx : s.x.toNat ≠ 0) : Writes .gamEnc s (gamma s.x.toNat) := by
  simp only [Writes, exec, execGamEnc, if_neg hx]

theorem writes_delEnc (hx : s.x.toNat ≠ 0) : Writes .delEnc s (delta s.x.toNat) := by
  simp only [Writes, exec, execDelEnc, if_neg hx]

theorem writes_riceEnc {p : Byte} (hp : p.toNat ≤ 63) (hx : s.x.toNat / 2 ^ p.toNat ≠ umax) :
    Writes (.riceEnc p) s (rice s.x.toNat p.toNat) := by
  simp only [Writes, exec, execRiceEnc, (riceExpOk_iff p).2 hp, checkK_true, Except.ok_bind, riceEncode, if_neg hx]

theorem writes_vbEnc {b : Byte} (hb : 1 ≤ b.toNat ∧ b.toNat ≤ 63) :
    Writes (.vbEnc b) s (vbyte s.x.toNat b.toNat) := by
  simp only [Writes, exec, execVbEnc, (vbBlockOk_iff b).2 hb, checkK_true, Except.ok_bind]

end

/-! ## Universe forms -/

section
variable {s : State} {r : Nat}

/-- A universe-form encoder goes on with rel(X) when X is in the universe (40 R142, R144). -/
theorem universe_bind (h : InUniverse s r) (f : Nat → Except ErrCode State) :
    (checkUniverse s >>= fun _ => upro s >>= f) = f r := by
  rw [checkUniverse_of_in h, Except.ok_bind, upro_ok h, Except.ok_bind]

theorem writes_binEncU (h : InUniverse s r) : Writes .binEncU s (bin r (entropy s.ulo.toNat s.uhi.toNat)) :=
  congrArg (complete s) (universe_bind h _)

theorem writes_unaEncU (h : InUniverse s r) : Writes .unaEncU s (unary r) :=
  congrArg (complete s) ((universe_bind h _).trans (unaryCommit_eq r s))

theorem writes_gamEncU (h : InUniverse s r) (hr : r ≠ umax) : Writes .gamEncU s (gamma (r + 1)) :=
  congrArg (complete s) ((universe_bind h _).trans (if_neg hr))

theorem writes_delEncU (h : InUniverse s r) (hr : r ≠ umax) : Writes .delEncU s (delta (r + 1)) :=
  congrArg (complete s) ((universe_bind h _).trans (if_neg hr))

theorem writes_riceEncU {p : Byte} (hp : p.toNat ≤ 63) (h : InUniverse s r) (hr : r / 2 ^ p.toNat ≠ umax) :
    Writes (.riceEncU p) s (rice r p.toNat) := by
  have hk := (riceExpOk_iff p).2 hp
  simp only [Writes, exec, execRiceEncU, hk, checkK_true, Except.ok_bind, universe_bind h, riceEncode, if_neg hr]

theorem writes_vbEncU {b : Byte} (hb : 1 ≤ b.toNat ∧ b.toNat ≤ 63) (h : InUniverse s r) :
    Writes (.vbEncU b) s (vbyte r b.toNat) := by
  have hk := (vbBlockOk_iff b).2 hb
  simp only [Writes, exec, execVbEncU, hk, checkK_true, Except.ok_bind, universe_bind h]

end

/-! ## The strings as the claims write them -/

theorem gammaStr_eq {x m : Nat} (h : IsLog x m) : gamma x = gammaStr m x := by
  rw [gamma_eq h, bin_eq_bitsOf, gammaStr]

theorem deltaStr_eq {x m j : Nat} (h : IsLog x m) (hj : IsLog (m + 1) j) :
    delta x = gammaStr j (m + 1) ++ bitsOf x m := by
  rw [delta_eq h hj, bin_eq_bitsOf, bin_eq_bitsOf, gammaStr, List.append_assoc, List.cons_append]

theorem riceStr_eq {x p m : Nat} (h : IsLog (x >>> p + 1) m) :
    rice x p = gammaStr m (x >>> p + 1) ++ bitsOf x p := by
  rw [Nat.shiftRight_eq_div_pow] at *
  rw [rice, gammaStr_eq h, bin_mod, bin_eq_bitsOf]

theorem vbyteStr_eq {x b k : Nat} (hb : 1 ≤ b) (hx : x < 2 ^ ((k + 1) * b)) (hl : k = 0 ∨ 2 ^ (k * b) ≤ x) :
    vbyte x b =
      ((List.range k).flatMap fun i => false :: bitsOf (x >>> (i * b)) b) ++ true :: bitsOf (x >>> (k * b)) b := by
  have hk : k ≤ bw x := by
    rcases hl with rfl | hl
    · exact Nat.zero_le _
    · have hlt : k * b < bw x := Nat.lt_of_not_le fun hle => by
        have := (bw_le_iff x (k * b)).1 hle
        omega
      exact (Nat.le_mul_of_pos_right k hb).trans hlt.le
  simp only [vbyte, vbyteBlocks_eq k _ x hk hx hl, bin_eq_bitsOf, Nat.shiftRight_eq_div_pow]

theorem ne_zero_of_isLog {x m : Nat} (h : IsLog x m) : x ≠ 0 := by
  have := h.1
  have := Nat.two_pow_pos m
  omega

/-! ## Encoders that succeed -/

/-- Settles O12: the two strings are `bin` of X and of rel(X). -/
theorem binaryEncodeResults : Obligations.BinaryEncodeResults := by
  refine fun s hw => ⟨fun n hn hfit => ?_, fun r e hin he hfit => ?_⟩
  · rw [← bin_eq_bitsOf]
    exact (writes_binEnc hn).encoded hw (by rwa [length_bin])
  · obtain rfl := entropy_of_isEntropy he
    rw [← bin_eq_bitsOf]
    exact (writes_binEncU hin).encoded hw (by rwa [length_bin])

/-- Settles O14: unary is that string by definition. -/
theorem unaryEncodeResults : Obligations.UnaryEncodeResults :=
  fun _ hw => ⟨fun hfit => writes_unaEnc.encoded hw (by rwa [length_unary]),
    fun _ hin hfit => (writes_unaEncU hin).encoded hw (by rwa [length_unary])⟩

/-- Settles O16: gamma of the value is the string of floor(log2) ones (`gammaStr_eq`). -/
theorem gammaEncodeResults : Obligations.GammaEncodeResults := by
  refine fun s m hw hfit => ⟨fun hm => ?_, fun r hin hr hm => ?_⟩
  · rw [← gammaStr_eq hm]
    exact (writes_gamEnc (ne_zero_of_isLog hm)).encoded hw (by rwa [length_gamma hm])
  · rw [← gammaStr_eq hm]
    exact (writes_gamEncU hin hr).encoded hw (by rwa [length_gamma hm])

/-- Settles O18: delta of the value is the gamma code of m + 1 and the low m bits (`deltaStr_eq`). -/
theorem deltaEncodeResults : Obligations.DeltaEncodeResults := by
  refine fun s m j hw hj hfit => ⟨fun hm => ?_, fun r hin hr hm => ?_⟩
  · rw [← deltaStr_eq hm hj]
    exact (writes_delEnc (ne_zero_of_isLog hm)).encoded hw (by rwa [length_delta hm hj])
  · rw [← deltaStr_eq hm hj]
    exact (writes_delEncU hin hr).encoded hw (by rwa [length_delta hm hj])

/-- Settles O20: rice of the value is the gamma code of the quotient plus 1 and the remainder bits (`riceStr_eq`). -/
theorem riceEncodeResults : Obligations.RiceEncodeResults := by
  refine fun s p m hw hp hfit => ⟨fun hx hm => ?_, fun r hin hr hm => ?_⟩
  · rw [← riceStr_eq hm]
    rw [Nat.shiftRight_eq_div_pow] at hx
    exact (writes_riceEnc hp hx).encoded hw (by rwa [length_rice hm])
  · rw [← riceStr_eq hm]
    rw [Nat.shiftRight_eq_div_pow] at hr
    exact (writes_riceEncU hp hin hr).encoded hw (by rwa [length_rice hm])

/-- Settles O22: vbyte of the value is its blocks when k + 1 is the least number of them (`vbyteStr_eq`). -/
theorem vbyteEncodeResults : Obligations.VbyteEncodeResults := by
  refine fun s b k hw hb hb' hfit => ⟨fun hx hl => ?_, fun r hin hx hl => ?_⟩
  · rw [← vbyteStr_eq hb hx hl]
    exact (writes_vbEnc ⟨hb, hb'⟩).encoded hw (by rwa [length_vbyte hb hx hl])
  · rw [← vbyteStr_eq hb hx hl]
    exact (writes_vbEncU ⟨hb, hb'⟩ hin).encoded hw (by rwa [length_vbyte hb hx hl])

/-! ## Encoders that fail -/

/-- A universe-form encoder raises RANGE when X is outside (40 R144). -/
theorem raises_range {i : Instr} {s : State} {f : Nat → Except ErrCode State} (hu : s.ulo.toNat ≤ s.uhi.toNat)
    (hx : s.x.toNat < s.ulo.toNat ∨ s.uhi.toNat < s.x.toNat)
    (h : exec i s = complete s (checkUniverse s >>= fun _ => upro s >>= f)) : Raises i s .range := by
  refine raises_of_error (by decide) h ?_
  have hout : upro s = .error .range := if_neg (by omega)
  rw [checkUniverse_ok hu, Except.ok_bind, hout, Except.error_bind]

/-- A legal K brings a command that checks K first to its universe check. -/
theorem raises_range_of_legalK {i : Instr} {s : State} {legal : Bool} {f : Nat → Except ErrCode State}
    (hk : legal = true) (hu : s.ulo.toNat ≤ s.uhi.toNat)
    (hx : s.x.toNat < s.ulo.toNat ∨ s.uhi.toNat < s.x.toNat)
    (h : exec i s = complete s (checkK legal >>= fun _ => checkUniverse s >>= fun _ => upro s >>= f)) :
    Raises i s .range :=
  raises_range hu hx (by rw [h, hk, checkK_true, Except.ok_bind])

/-- Settles O25: each of these commands is its universe check, then X's, the Rice and Vbyte forms behind the check of
their K. -/
theorem encoderOutsideUniverse : Obligations.EncoderOutsideUniverse := by
  intro i s hwf hu hx hi
  rcases hi with rfl | rfl | rfl | rfl | ⟨p, rfl⟩ | ⟨b, rfl⟩
  iterate 4 exact raises_range hu hx rfl
  · exact raises_range_of_legalK hwf hu hx rfl
  · exact raises_range_of_legalK hwf hu hx rfl

/-- With UMAX as value the Rice code at p = 0 is not defined (42 R222). -/
theorem riceEncode_arg {x : Nat} {s : State} (h : x = umax) : riceEncode 0 x s = .error .arg :=
  if_pos (by simp [h])

/-- Settles O26: the argument checks come right after rel(X). -/
theorem invalidCodeArgument : Obligations.InvalidCodeArgument := by
  refine fun s => ⟨fun hx i hi => ?_, fun hlo hhi hx i hi => ?_, fun hx => ?_⟩
  · rcases hi with rfl | rfl
    · exact raises_of_error (by decide) rfl (if_pos hx)
    · exact raises_of_error (by decide) rfl (if_pos hx)
  · have hin : InUniverse s umax := ⟨by omega, by omega, by omega⟩
    rcases hi with rfl | rfl | rfl
    · exact raises_of_error (by decide) rfl ((universe_bind hin _).trans (if_pos rfl))
    · exact raises_of_error (by decide) rfl ((universe_bind hin _).trans (if_pos rfl))
    · exact raises_of_error (by decide) rfl ((universe_bind hin _).trans (riceEncode_arg rfl))
  · exact raises_of_error (by decide) rfl (riceEncode_arg hx)

end Sys2Proof.Machine
end

section
/-! PROOFS. The decoders: each is an item parser over the source view and a commit; what it gives over a view that begins
with an item, and the universe's epilogue (20_memory R78, 40 R145, R147, R148, 41 and 42). -/

namespace Sys2Proof.Machine

/-! ## Item parsers -/

/-- A parser of one item of a source: the value and what is left (20_memory R78). -/
abbrev Parser := Src → Except ErrCode (Nat × Src)

/-- The parser with the word check after it (40 R148). -/
def wordParser (p : Parser) : Parser := fun src => do
  let (v, src) ← p src
  checkWord v
  .ok (v, src)

/-- The parser of a value that the code holds plus 1 (41 R195, R205). -/
def predParser (p : Parser) : Parser := fun src => do
  let (v, src) ← p src
  .ok (v - 1, src)

/-- A raw decoder: the item, then the commit (40 R147). -/
def readRaw (p : Parser) (s : State) : Except ErrCode State := do
  let (v, src) ← p (source s)
  .ok (decoderCommit v src s)

/-- A universe-form decoder: the item, the epilogue, then the commit (40 R145, R147). -/
def readUniverse (p : Parser) (s : State) : Except ErrCode State := do
  let (r, src) ← p (source s)
  let v ← uepi s r
  .ok (decoderCommit v src s)

/-- The raw-form decoders with legal K, each with its parser. -/
inductive RawDecoder : Instr → Parser → Prop where
  | bin (n : Byte) (h : n.toNat ≤ 64) : RawDecoder (.binDec n) (getN n.toNat)
  | una : RawDecoder .unaDec pUnary
  | gam : RawDecoder .gamDec (wordParser pGamma)
  | del : RawDecoder .delDec (wordParser pDelta)
  | rice (p : Byte) (h : p.toNat ≤ 63) : RawDecoder (.riceDec p) (wordParser (pRice p.toNat))
  | vb (b : Byte) (h : 1 ≤ b.toNat ∧ b.toNat ≤ 63) : RawDecoder (.vbDec b) (wordParser (pVbyte b.toNat))

/-- The universe-form decoders with legal K, each with the parser of its relative value. -/
inductive UniverseDecoder (s : State) : Instr → Parser → Prop where
  | bin : UniverseDecoder s .binDecU (getN (entropy s.ulo.toNat s.uhi.toNat))
  | una : UniverseDecoder s .unaDecU pUnary
  | gam : UniverseDecoder s .gamDecU (predParser (wordParser pGamma))
  | del : UniverseDecoder s .delDecU (predParser (wordParser pDelta))
  | rice (p : Byte) (h : p.toNat ≤ 63) : UniverseDecoder s (.riceDecU p) (wordParser (pRice p.toNat))
  | vb (b : Byte) (h : 1 ≤ b.toNat ∧ b.toNat ≤ 63) : UniverseDecoder s (.vbDecU b) (wordParser (pVbyte b.toNat))

section
variable {i : Instr} {p : Parser} {s : State}

theorem RawDecoder.exec_eq (h : RawDecoder i p) (s : State) : exec i s = complete s (readRaw p s) := by
  cases h with
  | bin n h => simp only [exec, execBinDec, (binWidthOk_iff n).2 h, checkK_true, Except.ok_bind]; rfl
  | una => rfl
  | gam => simp only [exec, execGamDec, readRaw, wordParser, bind_assoc, Except.ok_bind]
  | del => simp only [exec, execDelDec, readRaw, wordParser, bind_assoc, Except.ok_bind]
  | rice p h =>
    simp only [exec, execRiceDec, readRaw, wordParser, bind_assoc, (riceExpOk_iff p).2 h, checkK_true, Except.ok_bind]
  | vb b h =>
    simp only [exec, execVbDec, readRaw, wordParser, bind_assoc, (vbBlockOk_iff b).2 h, checkK_true, Except.ok_bind]

theorem UniverseDecoder.exec_eq (h : UniverseDecoder s i p) (hu : s.ulo.toNat ≤ s.uhi.toNat) :
    exec i s = complete s (readUniverse p s) := by
  have hu := checkUniverse_ok hu
  cases h with
  | bin => simp only [exec, execBinDecU, hu, Except.ok_bind]; rfl
  | una => simp only [exec, execUnaDecU, hu, Except.ok_bind]; rfl
  | gam => simp only [exec, execGamDecU, readUniverse, predParser, wordParser, bind_assoc, hu, Except.ok_bind]
  | del => simp only [exec, execDelDecU, readUniverse, predParser, wordParser, bind_assoc, hu, Except.ok_bind]
  | rice p h =>
    simp only [exec, execRiceDecU, readUniverse, wordParser, bind_assoc, (riceExpOk_iff p).2 h, checkK_true, hu,
      Except.ok_bind]
  | vb b h =>
    simp only [exec, execVbDecU, readUniverse, wordParser, bind_assoc, (vbBlockOk_iff b).2 h, checkK_true, hu,
      Except.ok_bind]

end

/-! ## Parsers that read an item -/

/-- The parser reads the string a, whatever follows, as v. -/
def Reads (p : Parser) (a : BitStr) (v : Nat) : Prop :=
  ∀ rest, p { bits := a ++ rest, q := 0 } = .ok (v, { bits := rest, q := a.length })

section
variable {p : Parser} {a : BitStr} {v : Nat} {s : State}

theorem Reads.parse (h : Reads p a v) {rest : BitStr} (hv : sourceView s = a ++ rest) :
    p (source s) = .ok (v, { bits := rest, q := a.length }) := by
  rw [source_eq hv, h rest]

theorem Reads.word (h : Reads p a v) (hv : v < 2 ^ 64) : Reads (wordParser p) a v := fun rest => by
  simp only [wordParser, h rest, Except.ok_bind, checkWord_ok hv]

theorem Reads.pred (h : Reads p a v) : Reads (predParser p) a (v - 1) := fun rest => by
  simp only [predParser, h rest, Except.ok_bind]

theorem reads_getN {n : Nat} (h : a.length = n) : Reads (getN n) a (val a) := fun rest => by
  rw [getN_append h, Nat.zero_add, h]

theorem reads_pUnary (v : Nat) : Reads pUnary (unary v) v := fun rest => by
  rw [length_unary, unary, List.append_assoc, List.singleton_append, pUnary_append, Nat.zero_add]

theorem length_gammaBits (a : BitStr) : (gammaBits a).length = 2 * a.length + 1 := by
  simp [gammaBits]
  omega

theorem reads_pGamma (a : BitStr) : Reads pGamma (gammaBits a) (gammaValue a) := fun rest => by
  rw [gammaBits_append, pGamma_append, length_gammaBits, Nat.zero_add, gammaValue]

theorem reads_pDelta {c a : BitStr} (h : a.length + 1 = gammaValue c) :
    Reads pDelta (gammaBits c ++ a) (gammaValue a) := fun rest => by
  rw [List.append_assoc, gammaBits_append, pDelta_append h, List.length_append, length_gammaBits, Nat.zero_add,
    gammaValue]

theorem reads_pRice {n : Nat} {a r : BitStr} (hr : r.length = n) (ha : gammaValue a < 2 ^ 64) :
    Reads (pRice n) (gammaBits a ++ r) ((gammaValue a - 1) * 2 ^ n + val r) := fun rest => by
  rw [List.append_assoc, gammaBits_append, pRice_append hr ha, List.length_append, length_gammaBits, Nat.zero_add,
    gammaValue, hr]

theorem length_blockBits {b : Nat} {blocks : List BitStr} (hb : ∀ a ∈ blocks, a.length = b) :
    (blockBits blocks).length = blocks.length * (b + 1) := by
  have hmap : blocks.map (fun a => a.length + 1) = List.replicate blocks.length (b + 1) :=
    List.map_eq_replicate_iff.2 fun a ha => by rw [hb a ha]
  simp [blockBits, List.length_flatMap, hmap]

theorem length_vbyteItem {b : Nat} {blocks : List BitStr} {last : BitStr} (hb : ∀ a ∈ blocks, a.length = b)
    (hl : last.length = b) : (blockBits blocks ++ true :: last).length = (blocks.length + 1) * (b + 1) := by
  rw [List.length_append, length_blockBits hb, List.length_cons, hl]
  ring

theorem reads_pVbyte {b : Nat} {blocks : List BitStr} {last : BitStr} (hb : ∀ a ∈ blocks, a.length = b)
    (hl : last.length = b) :
    Reads (pVbyte b) (blockBits blocks ++ true :: last) (val (blocks.flatten ++ last)) := fun rest => by
  rw [length_vbyteItem hb hl, List.append_assoc, List.cons_append, blockBits, pVbyte_append blocks hb hl, Nat.zero_add]

end

/-! ## Decoders over a view that begins with an item -/

section
variable {i : Instr} {p : Parser} {s : State} {a rest : BitStr} {v : Nat}

theorem RawDecoder.decoded (hd : RawDecoder i p) (hr : Reads p a v) (hv : v < 2 ^ 64)
    (hs : sourceView s = a ++ rest) : ∃ t, exec i s = .next t ∧ Decoded v a.length s t := by
  rw [hd.exec_eq, readRaw, hr.parse hs]
  exact ⟨_, rfl, decoded_commit hs rfl rfl hv⟩

theorem UniverseDecoder.decoded (hd : UniverseDecoder s i p) (hr : Reads p a v)
    (hv : s.ulo.toNat + v ≤ s.uhi.toNat) (hs : sourceView s = a ++ rest) :
    ∃ t, exec i s = .next t ∧ Decoded (s.ulo.toNat + v) a.length s t := by
  rw [hd.exec_eq ((Nat.le_add_right _ _).trans hv), readUniverse, hr.parse hs]
  simp only [Except.ok_bind, uepi_ok hv, complete_ok]
  exact ⟨_, rfl, decoded_commit hs rfl rfl (hv.trans_lt s.uhi.isLt)⟩

end

theorem val_lt_word {a : BitStr} (h : a.length ≤ 64) : val a < 2 ^ 64 :=
  (val_lt a).trans_le (Nat.pow_le_pow_right (by decide) h)

/-- Settles O13: n bits, or as many as the entropy, are read as their value (`reads_getN`). -/
theorem binaryDecodeResults : Obligations.BinaryDecodeResults := by
  refine fun s a rest hs => ⟨fun n hn ha => ?_, fun hu he hv => ?_⟩
  · exact (RawDecoder.bin n hn).decoded (reads_getN ha) (val_lt_word (by omega)) hs
  · exact UniverseDecoder.bin.decoded (reads_getN (entropy_of_isEntropy he).symm) hv hs

/-- Settles O15: the count is read (`reads_pUnary`), and a view is too short to hold 2^64 ones. -/
theorem unaryDecodeResults : Obligations.UnaryDecodeResults := by
  intro s v rest hs
  have hs' : sourceView s = unary v ++ rest := by rw [hs, unary, List.append_assoc, List.singleton_append]
  have hlen := length_unary v
  refine ⟨?_, fun hv => ?_⟩
  · have hv : v < 2 ^ 64 := by
      have hview := congrArg List.length hs'
      have hend : sourceEnd s ≤ s.ilen.toNat := Nat.min_le_left _ _
      have := s.ilen.isLt
      rw [length_sourceView, List.length_append, hlen] at hview
      omega
    simpa only [hlen] using RawDecoder.una.decoded (reads_pUnary v) hv hs'
  · simpa only [hlen] using UniverseDecoder.una.decoded (reads_pUnary v) hv hs'

/-- Settles O17: the gamma code is read as its value (`reads_pGamma`). -/
theorem gammaDecodeResults : Obligations.GammaDecodeResults := by
  intro s a rest hs hv
  rw [← gammaBits_append] at hs
  have hr := (reads_pGamma a).word hv
  rw [← length_gammaBits a]
  exact ⟨RawDecoder.gam.decoded hr hv hs, fun hu => UniverseDecoder.gam.decoded hr.pred hu hs⟩

/-- Settles O19: the delta code is read as its value (`reads_pDelta`). -/
theorem deltaDecodeResults : Obligations.DeltaDecodeResults := by
  intro s c a rest hs hc hv
  rw [← gammaBits_append, ← List.append_assoc] at hs
  have hr := (reads_pDelta hc).word hv
  rw [← length_gammaBits c, ← List.length_append]
  exact ⟨RawDecoder.del.decoded hr hv hs, fun hu => UniverseDecoder.del.decoded hr.pred hu hs⟩

/-- Settles O21: the Rice code is read as its value (`reads_pRice`). -/
theorem riceDecodeResults : Obligations.RiceDecodeResults := by
  intro s p a r rest hp hlen hs hv ha
  rw [← gammaBits_append, ← List.append_assoc] at hs
  have hr := (reads_pRice hlen ha).word hv
  rw [← length_gammaBits a, ← hlen, ← List.length_append, hlen]
  exact ⟨(RawDecoder.rice p hp).decoded hr hv hs, fun hu => (UniverseDecoder.rice p hp).decoded hr hu hs⟩

/-- Settles O23: the blocks up to the one flagged 1 are read as their joined bits (`reads_pVbyte`). -/
theorem vbyteDecodeResults : Obligations.VbyteDecodeResults := by
  intro s b blocks last rest hb hb' hblocks hlast hs hv
  have hs' : sourceView s = (blockBits blocks ++ true :: last) ++ rest := by
    rw [hs, List.append_assoc, List.cons_append, blockBits]
  have hr := (reads_pVbyte hblocks hlast).word hv
  rw [← length_vbyteItem hblocks hlast]
  exact ⟨(RawDecoder.vb b ⟨hb, hb'⟩).decoded hr hv hs', fun hu => (UniverseDecoder.vb b ⟨hb, hb'⟩).decoded hr hu hs'⟩

end Sys2Proof.Machine
end

section
/-! PROOFS. The Huffman commands over a held tree, or without one: the codeword of X, the serialized form, and NO_TREE
and NOT_IN_TREE (43_huffman_code R260 to R265, 45_huffman_serialize R330 to R338). -/

namespace Sys2Proof.Machine

/-! ## The codeword of X -/

section
variable {s : State} {t : Tree} {a : BitStr}

/-- The lookup finds the path to X's leaf (43 R260, R263). -/
theorem lookupX_of_follow (hi : s.Inv) (ht : s.tree = .valid t) (ha : t.follow a = some s.x.toNat) :
    lookupX s t = .ok a := by
  obtain ⟨-, -, -, -, htree, -⟩ := hi
  rw [ht] at htree
  obtain ⟨-, -, -, hnodup, hchars, -⟩ := htree
  rw [lookupX, if_neg (Nat.not_le.2 (hchars _ (Tree.mem_of_follow ha))), Tree.codebits_of_follow hnodup ha]

/-- A character that no leaf carries has no codeword (43 R263). -/
theorem lookupX_of_notMem (hx : s.x.toNat ∉ t.alpha) : lookupX s t = .error .notInTree := by
  unfold lookupX
  split
  · rfl
  · rcases t.codebits_cases s.x.toNat with ⟨_, -, -, hmem⟩ | ⟨hnone, -⟩
    · exact absurd hmem hx
    · rw [hnone]

theorem writes_hEnc (hi : s.Inv) (ht : s.tree = .valid t) (ha : t.follow a = some s.x.toNat) : Writes .hEnc s a := by
  simp only [Writes, exec, execHEnc, heldTree_valid ht, lookupX_of_follow hi ht ha, Except.ok_bind]

theorem exec_hCode (hi : s.Inv) (ht : s.tree = .valid t) (ha : t.follow a = some s.x.toNat) :
    exec .hCode s = .next (completeWith .ok (setRes1 a.length (setRes0 (val a) s))) := by
  simp only [exec, execHCode, heldTree_valid ht, lookupX_of_follow hi ht ha, Except.ok_bind, complete_ok]

/-- A codeword is at most LMAX bits long (10_state R50 (v), 43 R261). -/
theorem State.Inv.length_follow (hi : s.Inv) (ht : s.tree = .valid t) {c : Nat} (ha : t.follow a = some c) :
    a.length ≤ 64 := by
  obtain ⟨-, -, -, -, htree, -⟩ := hi
  rw [ht] at htree
  obtain ⟨-, -, -, -, -, hdepth⟩ := htree
  exact (Tree.length_follow ha).trans hdepth

end

/-- Settles O41: H.CODE answers the path (`exec_hCode`), and H.ENC commits it (`writes_hEnc`). -/
theorem codewordOfX : Obligations.CodewordOfX := by
  refine fun s t a hi ht ha => ⟨⟨_, exec_hCode hi ht ha, ?_⟩, fun hfit => (writes_hEnc hi ht ha).encoded hi.1 hfit⟩
  have hlen := hi.length_follow ht ha
  exact answered_completeWith (val_lt_word hlen) (by omega)

/-- Settles O43: without a tree `heldTree` and `serialize` raise NO_TREE; without X the lookup raises NOT_IN_TREE. -/
theorem treeCommandErrors : Obligations.TreeCommandErrors := by
  refine fun s => ⟨fun ht i hi => ?_, fun ht i hi => ?_, fun b ht hx i hi => ?_⟩
  · have hheld : heldTree s = .error .noTree := by simp only [heldTree, ht]
    rcases hi with rfl | rfl | rfl | rfl
    iterate 3 exact raises_of_error (by decide) rfl (by rw [hheld, Except.error_bind])
    exact raises_of_error (by decide) rfl (by rw [ht, serialize, Except.error_bind])
  · have hheld : heldTree s = .error .noTree := by simp only [heldTree, ht]
    rcases hi with rfl | rfl | rfl
    all_goals exact raises_of_error (by decide) rfl (by rw [hheld, Except.error_bind])
  · have hlook := lookupX_of_notMem hx
    rcases hi with rfl | rfl
    all_goals
      exact raises_of_error (by decide) rfl (by
        rw [heldTree_valid ht, Except.ok_bind, hlook, Except.error_bind])

/-! ## The serialized form -/

/-- The ends of a tree's characters are its least and its greatest one (45 R331). -/
theorem Tree.minChar_eq {t : Tree} {lo : Nat} (hmem : lo ∈ t.alpha) (hle : ∀ c ∈ t.alpha, lo ≤ c) : t.minChar = lo :=
  Nat.le_antisymm (Tree.minChar_le hmem) (hle _ t.minChar_mem)

theorem Tree.maxChar_eq {t : Tree} {hi : Nat} (hmem : hi ∈ t.alpha) (hle : ∀ c ∈ t.alpha, c ≤ hi) : t.maxChar = hi :=
  Nat.le_antisymm (hle _ t.maxChar_mem) (Tree.le_maxChar hmem)

/-- ser(VALID(t)) as the claims write it (45 R332). -/
theorem Tree.ser_eq {t : Tree} {lo hi e : Nat} (hlo : lo ∈ t.alpha) (hlo' : ∀ c ∈ t.alpha, lo ≤ c) (hhi : hi ∈ t.alpha)
    (hhi' : ∀ c ∈ t.alpha, c ≤ hi) (he : IsEntropy lo hi e) :
    t.ser = t.topo ++ delta (lo + 1) ++ delta (hi - lo + 1) ++ t.alpha.flatMap fun c => bitsOf (c - lo) e := by
  simp only [Tree.ser, Tree.minChar_eq hlo hlo', Tree.maxChar_eq hhi hhi', entropy_of_isEntropy he, bin_eq_bitsOf]

section
variable {s : State} {a : BitStr} {k : Nat}

/-- H.SER is the commit of ser(TREE), then of its leaf count (45 R333). -/
theorem exec_hSer (h : serialize s.tree = .ok (a, k)) :
    exec .hSer s = complete s ((encoderCommit a s).map (setRes0 k)) := by
  simp only [exec, execHSer, h, Except.ok_bind]
  rfl

theorem encoderCommit_setRes0 (a : BitStr) (k : Nat) (s : State) :
    encoderCommit a (setRes0 k s) = (encoderCommit a s).map (setRes0 k) := by
  rcases encoderCommit_cases a s with ⟨hfit, he⟩ | ⟨hfull, he⟩ <;> rw [he]
  · exact encoderCommit_ok (s := setRes0 k s) hfit
  · exact encoderCommit_error (s := setRes0 k s) hfull

/-- An H.SER that fits writes ser(TREE) and answers the leaf count (45 R333). -/
theorem hSer_encoded (hw : s.params.wf) (h : serialize s.tree = .ok (a, k)) (hfit : Fits s a.length) :
    ∃ t, exec .hSer s = .next t ∧ t.res0 = reg k ∧ Encoded a { s with res0 := reg k } t := by
  obtain ⟨t, ht, hencoded⟩ := encoded_commit (s := setRes0 k s) hw hfit
  have ⟨_, _, _, _, _, hframe⟩ := hencoded
  exact ⟨_, by rw [exec_hSer h, ← encoderCommit_setRes0, ht, complete_ok], by rw [hframe]; rfl, hencoded⟩

/-- An H.SER that does not fit raises SINK_FULL (20_memory R76). -/
theorem hSer_sinkFull (h : serialize s.tree = .ok (a, k)) (hfit : ¬ Fits s a.length) : Raises .hSer s .sinkFull :=
  raises_of_error (by decide) (exec_hSer h) (by rw [encoderCommit_error (Nat.lt_of_not_le hfit)]; rfl)

end

/-- Settles O44: the string is ser(TREE) (`Tree.ser_eq`), and H.SER writes it (`hSer_encoded`). -/
theorem hSerResult : Obligations.HSerResult := by
  intro s hinv
  obtain ⟨hw, -, -, -, htree, -⟩ := hinv
  constructor
  · intro ht hfit
    exact hSer_encoded hw (by rw [ht]; rfl) hfit
  · intro b lo hi e ht hlo hlo' hhi hhi' he hfit
    rw [← Tree.ser_eq hlo hlo' hhi hhi' he] at hfit ⊢
    have hser : serialize s.tree = .ok (b.ser, b.alpha.length) := by rw [ht]; rfl
    obtain ⟨t, hexec, hres0, hencoded⟩ := hSer_encoded hw hser hfit
    have hlen : t.res0.toNat = b.alpha.length := by
      rw [hres0, toNat_reg_of_lt (serialize_count_lt hw htree hser)]
    exact ⟨b.length_topo.trans b.nodes_eq, t, hexec, hlen, hres0 ▸ hencoded⟩

/-- Settles O45: the topology of a lone leaf stands for EMPTY. -/
theorem hDeserEmpty : Obligations.HDeserEmpty := by
  intro s rest hs
  have hcap : 1 ≤ nmax s.params := by
    have := Nat.two_pow_pos s.params.cw
    rw [nmax, Nat.pow_succ]
    omega
  have htopo : pTopo (nmax s.params) (nmax s.params + 1) (source s) 0 = .ok (.leaf, { bits := rest, q := 1 }, 1) := by
    rw [source_eq hs, pTopo, get_cons, Except.ok_bind]
    exact if_neg (Nat.not_lt.2 hcap)
  refine ⟨completeWith .ok (setTree .empty (decoderCommit 0 { bits := rest, q := 1 } s)), ?_, rfl, ?_⟩
  · simp only [exec, execHDeser, htopo, Except.ok_bind, if_pos, le_refl, complete_ok]
  · exact decoded_commit (s := { s with tree := .empty }) (a := [true]) (rest := rest) hs rfl rfl (by decide)

end Sys2Proof.Machine
end

section
/-! PROOFS. The errors of the stream commands: SINK_FULL in the encoders, SRC_EMPTY, OVERFLOW and RANGE in the decoders
(20_memory R76 to R78, 40 R145, R148, 41 R182, 42 R221, 43 R265). -/

namespace Sys2Proof.Machine

/-! ## The sink is full -/

/-- The computation raises an error. -/
def Fails {α : Type} (r : Except ErrCode α) : Prop := ∃ e, e ≠ .ok ∧ r = .error e

section
variable {α β : Type} {x : Except ErrCode α} {f : α → Except ErrCode β}

theorem Fails.after (hx : Proper x) (hf : ∀ a, Fails (f a)) : Fails (x >>= f) := by
  cases x with
  | ok a => exact hf a
  | error e => exact ⟨e, fun he => hx (congrArg Except.error he), rfl⟩

theorem Fails.first (hx : Fails x) : Fails (x >>= f) := by
  obtain ⟨e, he, rfl⟩ := hx
  exact ⟨e, he, rfl⟩

theorem Fails.ite {c : Prop} [Decidable c] {x y : Except ErrCode β} (hx : Fails x) (hy : Fails y) :
    Fails (if c then x else y) := by
  split <;> assumption

end

/-- No commit of a string succeeds with OBIT above OCAP, even of the empty one (20_memory R76). -/
theorem encoderCommit_fails {s : State} (h : ocap s.params < s.obit.toNat) (a : BitStr) : Fails (encoderCommit a s) :=
  ⟨.sinkFull, by decide, encoderCommit_error (Nat.lt_add_right _ h)⟩

/-- The encoders, raw and universe form, H.ENC and H.SER. -/
inductive Encoder : Instr → Prop where
  | bin (n : Byte) : Encoder (.binEnc n)
  | binU : Encoder .binEncU
  | una : Encoder .unaEnc
  | unaU : Encoder .unaEncU
  | gam : Encoder .gamEnc
  | gamU : Encoder .gamEncU
  | del : Encoder .delEnc
  | delU : Encoder .delEncU
  | rice (p : Byte) : Encoder (.riceEnc p)
  | riceU (p : Byte) : Encoder (.riceEncU p)
  | vb (b : Byte) : Encoder (.vbEnc b)
  | vbU (b : Byte) : Encoder (.vbEncU b)
  | hEnc : Encoder .hEnc
  | hSer : Encoder .hSer

/-- With OBIT above OCAP every encoder's computation raises an error: one of its checks', or its commit's. -/
theorem Encoder.fails {i : Instr} (hi : Encoder i) {s : State} (h : ocap s.params < s.obit.toNat) :
    ∃ r, exec i s = complete s r ∧ Fails r := by
  have hfull := encoderCommit_fails h
  have huna : ∀ x, Fails (unaryCommit x s) := fun x => unaryCommit_eq x s ▸ hfull _
  have harg : ∀ {c : Prop} [Decidable c] (a : BitStr), Fails (if c then .error .arg else encoderCommit a s) :=
    fun a => .ite ⟨.arg, by decide, rfl⟩ (hfull a)
  have hK := proper_checkK
  have hU := proper_checkUniverse s
  have hX := proper_upro s
  cases hi with
  | bin | vb => exact ⟨_, rfl, .after (hK _) fun _ => hfull _⟩
  | binU => exact ⟨_, rfl, .after hU fun _ => .after hX fun _ => hfull _⟩
  | vbU => exact ⟨_, rfl, .after (hK _) fun _ => .after hU fun _ => .after hX fun _ => hfull _⟩
  | una => exact ⟨_, rfl, huna _⟩
  | unaU => exact ⟨_, rfl, .after hU fun _ => .after hX fun _ => huna _⟩
  | gam | del => exact ⟨_, rfl, harg _⟩
  | gamU | delU => exact ⟨_, rfl, .after hU fun _ => .after hX fun _ => harg _⟩
  | rice => exact ⟨_, rfl, .after (hK _) fun _ => harg _⟩
  | riceU => exact ⟨_, rfl, .after (hK _) fun _ => .after hU fun _ => .after hX fun _ => harg _⟩
  | hEnc => exact ⟨_, rfl, .after (proper_heldTree s) fun _ => .after (proper_lookupX s _) fun _ => hfull _⟩
  | hSer => exact ⟨_, rfl, .after (proper_serialize _) fun _ => .first (hfull _)⟩

theorem Encoder.ecode_ne_ok {i : Instr} (hi : Encoder i) {s : State} (h : ocap s.params < s.obit.toNat) :
    ∃ t, exec i s = .next t ∧ t.ecode ≠ .ok := by
  obtain ⟨r, hexec, e, he, rfl⟩ := hi.fails h
  exact ⟨_, hexec, he⟩

/-- Settles O27: each encoder is the commit of its string (`Writes`), which does not fit. -/
theorem sinkFullWritesNothing : Obligations.SinkFullWritesNothing := by
  intro s
  refine ⟨fun hfit => writes_unaEnc.sinkFull (by rwa [length_unary]),
    fun n hn hfit => (writes_binEnc hn).sinkFull (by rwa [length_bin]),
    fun m hm => ⟨fun hfit => ?_, fun j hj hfit => ?_⟩,
    fun p m hp hx hm hfit => ?_,
    fun b k hb hb' hx hl hfit => ?_,
    fun r hin => ⟨fun e he hfit => ?_,
      fun hfit => ?_,
      fun m hr hm => ⟨fun hfit => ?_, fun j hj hfit => ?_⟩,
      fun p m hp hx hm hfit => ?_,
      fun b k hb hb' hx hl hfit => ?_⟩,
    fun t a hi ht ha hfit => (writes_hEnc hi ht ha).sinkFull hfit,
    fun ht hfit => ?_,
    fun b lo hi e ht hlo hlo' hhi hhi' he hfit => ?_,
    fun h i hi => ?_⟩
  · exact (writes_gamEnc (ne_zero_of_isLog hm)).sinkFull (by rwa [length_gamma hm])
  · exact (writes_delEnc (ne_zero_of_isLog hm)).sinkFull (by rwa [length_delta hm hj])
  · rw [Nat.shiftRight_eq_div_pow] at hx
    exact (writes_riceEnc hp hx).sinkFull (by rwa [length_rice hm])
  · exact (writes_vbEnc ⟨hb, hb'⟩).sinkFull (by rwa [length_vbyte hb hx hl])
  · obtain rfl := entropy_of_isEntropy he
    exact (writes_binEncU hin).sinkFull (by rwa [length_bin])
  · exact (writes_unaEncU hin).sinkFull (by rwa [length_unary])
  · exact (writes_gamEncU hin hr).sinkFull (by rwa [length_gamma hm])
  · exact (writes_delEncU hin hr).sinkFull (by rwa [length_delta hm hj])
  · rw [Nat.shiftRight_eq_div_pow] at hx
    exact (writes_riceEncU hp hin hx).sinkFull (by rwa [length_rice hm])
  · exact (writes_vbEncU ⟨hb, hb'⟩ hin).sinkFull (by rwa [length_vbyte hb hx hl])
  · exact hSer_sinkFull (a := [true]) (k := 0) (by rw [ht]; rfl) hfit
  · rw [← Tree.ser_eq hlo hlo' hhi hhi' he] at hfit
    exact hSer_sinkFull (by rw [ht]; rfl) hfit
  · refine Encoder.ecode_ne_ok ?_ h
    rcases hi with rfl | rfl | rfl | ⟨n, rfl⟩ | ⟨p, rfl⟩ | ⟨b, rfl⟩ | rfl | rfl | rfl | rfl | ⟨p, rfl⟩ | ⟨b, rfl⟩ | rfl |
      rfl <;> constructor

/-! ## Decoders that fail -/

section
variable {i : Instr} {p : Parser} {s : State} {e : ErrCode} {a rest : BitStr} {v : Nat}

theorem RawDecoder.raises (hd : RawDecoder i p) (he : e ≠ .ok) (hp : p (source s) = .error e) : Raises i s e :=
  raises_of_error he (hd.exec_eq s) (by rw [readRaw, hp, Except.error_bind])

theorem UniverseDecoder.raises (hd : UniverseDecoder s i p) (hu : s.ulo.toNat ≤ s.uhi.toNat) (he : e ≠ .ok)
    (hp : p (source s) = .error e) : Raises i s e :=
  raises_of_error he (hd.exec_eq hu) (by rw [readUniverse, hp, Except.error_bind])

theorem wordParser_error {src : Src} (h : p src = .error e) : wordParser p src = .error e := by
  rw [wordParser, h, Except.error_bind]

theorem predParser_error {src : Src} (h : p src = .error e) : predParser p src = .error e := by
  rw [predParser, h, Except.error_bind]

/-- A value of 2^64 or more is OVERFLOW (40 R148). -/
theorem Reads.overflow (h : Reads p a v) (hv : 2 ^ 64 ≤ v) (hs : sourceView s = a ++ rest) :
    wordParser p (source s) = .error .overflow := by
  simp only [wordParser, h.parse hs, Except.ok_bind, checkWord_error hv, Except.error_bind]

/-- A value above UHI is RANGE (40 R145). -/
theorem UniverseDecoder.range (hd : UniverseDecoder s i p) (hr : Reads p a v) (hu : s.ulo.toNat ≤ s.uhi.toNat)
    (hv : s.uhi.toNat < s.ulo.toNat + v) (hs : sourceView s = a ++ rest) : Raises i s .range := by
  refine raises_of_error (by decide) (hd.exec_eq hu) ?_
  rw [readUniverse, hr.parse hs]
  simp only [Except.ok_bind, uepi_error hv, Except.error_bind]

end

/-- The decoders of codes that begin with a gamma code, raw form. -/
def GammaLed (i : Instr) : Prop := i = .gamDec ∨ i = .delDec ∨ ∃ p, i = .riceDec p ∧ p.toNat ≤ 63

/-- The decoders of codes that begin with a gamma code, universe form. -/
def GammaLedU (i : Instr) : Prop := i = .gamDecU ∨ i = .delDecU ∨ ∃ p, i = .riceDecU p ∧ p.toNat ≤ 63

section
variable {s : State} {e : ErrCode}

theorem pDelta_of_pGamma_error {src : Src} (h : pGamma src = .error e) : pDelta src = .error e := by
  rw [pDelta, h, Except.error_bind]

theorem pRice_of_pGamma_error {src : Src} (p : Nat) (h : pGamma src = .error e) : pRice p src = .error e := by
  rw [pRice, h, Except.error_bind]

/-- Where the gamma parser stops, every parser that begins with it stops. -/
theorem GammaLed.raises {i : Instr} (hi : GammaLed i) (he : e ≠ .ok) (h : pGamma (source s) = .error e) :
    Raises i s e := by
  rcases hi with rfl | rfl | ⟨p, rfl, hp⟩
  · exact RawDecoder.gam.raises he (wordParser_error h)
  · exact RawDecoder.del.raises he (wordParser_error (pDelta_of_pGamma_error h))
  · exact (RawDecoder.rice p hp).raises he (wordParser_error (pRice_of_pGamma_error _ h))

theorem GammaLedU.raises {i : Instr} (hi : GammaLedU i) (hu : s.ulo.toNat ≤ s.uhi.toNat) (he : e ≠ .ok)
    (h : pGamma (source s) = .error e) : Raises i s e := by
  rcases hi with rfl | rfl | ⟨p, rfl, hp⟩
  · exact UniverseDecoder.gam.raises hu he (predParser_error (wordParser_error h))
  · exact UniverseDecoder.del.raises hu he (predParser_error (wordParser_error (pDelta_of_pGamma_error h)))
  · exact (UniverseDecoder.rice p hp).raises hu he (wordParser_error (pRice_of_pGamma_error _ h))

/-! ## The view ends inside an item -/

section
variable (hones : ∀ b ∈ sourceView s, b = true)
include hones

theorem raises_ones {i : Instr} (hi : i = .unaDec ∨ GammaLed i) : Raises i s .srcEmpty := by
  rcases hi with rfl | hi
  · exact RawDecoder.una.raises (by decide) (pUnary_ones hones 0)
  · exact hi.raises (by decide) (pGamma_ones hones 0)

theorem raises_onesU {i : Instr} (hu : s.ulo.toNat ≤ s.uhi.toNat) (hi : i = .unaDecU ∨ GammaLedU i) :
    Raises i s .srcEmpty := by
  rcases hi with rfl | hi
  · exact UniverseDecoder.una.raises hu (by decide) (pUnary_ones hones 0)
  · exact hi.raises hu (by decide) (pGamma_ones hones 0)

end

theorem raises_binDec_short {n : Byte} (hn : n.toNat ≤ 64) (h : (sourceView s).length < n.toNat) :
    Raises (.binDec n) s .srcEmpty :=
  (RawDecoder.bin n hn).raises (by decide) (getN_short h)

theorem raises_binDecU_short (hu : s.ulo.toNat ≤ s.uhi.toNat)
    (h : (sourceView s).length < entropy s.ulo.toNat s.uhi.toNat) : Raises .binDecU s .srcEmpty :=
  UniverseDecoder.bin.raises hu (by decide) (getN_short h)

theorem raises_vb_short {b : Byte} (hb : 1 ≤ b.toNat ∧ b.toNat ≤ 63) {blocks : List BitStr} {a : BitStr}
    (hblocks : ∀ d ∈ blocks, d.length = b.toNat) (hs : sourceView s = blockBits blocks ++ a) (ha : a.length ≤ b.toNat) :
    Raises (.vbDec b) s .srcEmpty ∧ (s.ulo.toNat ≤ s.uhi.toNat → Raises (.vbDecU b) s .srcEmpty) := by
  have hshort : pVbyte b.toNat (source s) = .error .srcEmpty := by
    rw [source_eq hs]
    exact pVbyteLoop_short blocks hblocks ha _ _ _ _
  exact ⟨(RawDecoder.vb b hb).raises (by decide) (wordParser_error hshort),
    fun hu => (UniverseDecoder.vb b hb).raises hu (by decide) (wordParser_error hshort)⟩

theorem raises_hDec {t : Tree} (ht : s.tree = .valid t) (he : e ≠ .ok) (h : t.walk (source s) = .error e) :
    Raises .hDec s e :=
  raises_of_error he rfl (by rw [heldTree_valid ht, Except.ok_bind, h, Except.error_bind])

/-- Every decoder that reads a bit fails on an empty view (20_memory R77, R78). -/
theorem raises_emptyView (hv : sourceView s = []) :
    (∀ i, i = .unaDec ∨ i = .gamDec ∨ i = .delDec ∨ (∃ p, i = .riceDec p ∧ p.toNat ≤ 63) ∨
        (∃ b, i = .vbDec b ∧ 1 ≤ b.toNat ∧ b.toNat ≤ 63) ∨ (∃ n, i = .binDec n ∧ 1 ≤ n.toNat ∧ n.toNat ≤ 64) ∨
        i = .hDeser → Raises i s .srcEmpty) ∧
    (∀ i, i = .binDecU ∨ i = .unaDecU ∨ i = .gamDecU ∨ i = .delDecU ∨ (∃ p, i = .riceDecU p ∧ p.toNat ≤ 63) ∨
        (∃ b, i = .vbDecU b ∧ 1 ≤ b.toNat ∧ b.toNat ≤ 63) → s.ulo.toNat ≤ s.uhi.toNat → Raises i s .srcEmpty) := by
  have hones : ∀ b ∈ sourceView s, b = true := by simp [hv]
  have hlen : (sourceView s).length = 0 := by rw [hv]; rfl
  have hvb : ∀ b : Byte, 1 ≤ b.toNat ∧ b.toNat ≤ 63 → _ := fun b hb =>
    raises_vb_short (s := s) hb (blocks := []) (a := []) (by simp) hv (Nat.zero_le _)
  constructor
  · rintro i (rfl | rfl | rfl | ⟨p, rfl, hp⟩ | ⟨b, rfl, hb⟩ | ⟨n, rfl, h1, h64⟩ | rfl)
    · exact raises_ones hones (.inl rfl)
    · exact raises_ones hones (.inr (.inl rfl))
    · exact raises_ones hones (.inr (.inr (.inl rfl)))
    · exact raises_ones hones (.inr (.inr (.inr ⟨p, rfl, hp⟩)))
    · exact (hvb b hb).1
    · exact raises_binDec_short h64 (by omega)
    · exact raises_of_error (by decide) rfl (by rw [source_eq hv, pTopo, get_nil, Except.error_bind, Except.error_bind])
  · rintro i (rfl | rfl | rfl | rfl | ⟨p, rfl, hp⟩ | ⟨b, rfl, hb⟩) hu
    · exact raises_binDecU_short hu (by have := entropy_pos s.ulo.toNat s.uhi.toNat; omega)
    · exact raises_onesU hones hu (.inl rfl)
    · exact raises_onesU hones hu (.inr (.inl rfl))
    · exact raises_onesU hones hu (.inr (.inr (.inl rfl)))
    · exact raises_onesU hones hu (.inr (.inr (.inr ⟨p, rfl, hp⟩)))
    · exact (hvb b hb).2 hu

/-- The view is empty exactly when IPOS is at or past END (20_memory R77). -/
theorem sourceView_nil (h : min s.ilen.toNat (2 ^ s.params.ilog) ≤ s.ipos.toNat) : sourceView s = [] := by
  refine List.length_eq_zero_iff.1 ?_
  rw [length_sourceView]
  exact Nat.sub_eq_zero_of_le h

end

/-- Settles O28: each decoder's parser stops in the item. -/
theorem emptySourceView : Obligations.EmptySourceView := by
  refine fun s => ⟨fun hend => ?_,
    fun n hn h => raises_binDec_short hn h,
    fun e hu he h => ?_,
    fun hones => ⟨fun i => raises_ones hones, fun i hi hu => raises_onesU hones hu hi⟩,
    fun m a hs ha => ?_,
    fun c a hs ha => ?_,
    fun p a r hp hs ha hr => ?_,
    fun b blocks a hb hb' hblocks hs ha => raises_vb_short ⟨hb, hb'⟩ hblocks hs ha,
    fun t a c ht hfollow ha => ?_⟩
  · have hv := sourceView_nil hend
    obtain ⟨hraw, huniverse⟩ := raises_emptyView hv
    refine ⟨hraw, huniverse, fun l r ht => raises_hDec ht (by decide) ?_, ?_⟩
    · rw [source_eq hv, Tree.walk, get_nil, Except.error_bind]
    · exact (RawDecoder.bin 0 (by decide)).decoded (reads_getN rfl) (by decide) (a := []) (rest := []) hv
  · exact raises_binDecU_short hu (by rwa [entropy_of_isEntropy he])
  · have hshort : pGamma (source s) = .error .srcEmpty := by rw [source_eq hs, pGamma_short ha]
    exact ⟨fun i hi => GammaLed.raises hi (by decide) hshort,
      fun i hi hu => GammaLedU.raises hi hu (by decide) hshort⟩
  · have hshort : pDelta (source s) = .error .srcEmpty := by rw [source_eq hs, pDelta_short ha]
    exact ⟨RawDecoder.del.raises (by decide) (wordParser_error hshort),
      fun hu => UniverseDecoder.del.raises hu (by decide) (predParser_error (wordParser_error hshort))⟩
  · have hshort : pRice p.toNat (source s) = .error .srcEmpty := by rw [source_eq hs, pRice_short ha hr]
    exact ⟨(RawDecoder.rice p hp).raises (by decide) (wordParser_error hshort),
      fun hu => (UniverseDecoder.rice p hp).raises hu (by decide) (wordParser_error hshort)⟩
  · exact raises_hDec ht (by decide) (Tree.walk_short hfollow ha 0)

/-! ## Values that are too large -/

/-- Rice gives OVERFLOW on its gamma part alone (42 R221). -/
theorem pRice_overflow {s : State} {a rest : BitStr} (p : Nat) (ha : 2 ^ 64 ≤ gammaValue a)
    (hs : sourceView s = gammaBits a ++ rest) : pRice p (source s) = .error .overflow := by
  simp only [pRice, (reads_pGamma a).parse hs, Except.ok_bind, checkWord_error ha, Except.error_bind]

/-- Settles O29: the item is read whole (`Reads`), and then its value is checked. -/
theorem decodedValueTooLarge : Obligations.DecodedValueTooLarge := by
  refine fun s => ⟨fun a rest hs => ⟨fun ha => ⟨?_, fun hu => ?_, fun p hp => ?_⟩, fun ha hu hv => ?_⟩,
    fun c a rest hs hc => ⟨fun ha => ?_, fun ha hu hv => ?_⟩,
    fun p a r rest hp hr hs ha => ⟨fun hv => ?_, fun hv hu h => ?_⟩,
    fun b blocks last rest hb hb' hblocks hlast hs => ⟨fun hv => ?_, fun hv hu h => ?_⟩,
    fun v rest hs hu hv => ?_,
    fun a rest hs hu he hv => ?_⟩
  · exact RawDecoder.gam.raises (by decide) ((reads_pGamma a).overflow ha hs)
  · exact UniverseDecoder.gam.raises hu (by decide) (predParser_error ((reads_pGamma a).overflow ha hs))
  · have hover := wordParser_error (pRice_overflow p.toNat ha hs)
    exact ⟨(RawDecoder.rice p hp).raises (by decide) hover,
      fun hu => (UniverseDecoder.rice p hp).raises hu (by decide) hover⟩
  · exact UniverseDecoder.gam.range ((reads_pGamma a).word ha).pred hu hv hs
  · have hover := (reads_pDelta hc).overflow ha (hs.trans (List.append_assoc _ _ _).symm)
    exact ⟨RawDecoder.del.raises (by decide) hover,
      fun hu => UniverseDecoder.del.raises hu (by decide) (predParser_error hover)⟩
  · exact UniverseDecoder.del.range ((reads_pDelta hc).word ha).pred hu hv (hs.trans (List.append_assoc _ _ _).symm)
  · have hover := (reads_pRice hr ha).overflow hv (hs.trans (List.append_assoc _ _ _).symm)
    exact ⟨(RawDecoder.rice p hp).raises (by decide) hover,
      fun hu => (UniverseDecoder.rice p hp).raises hu (by decide) hover⟩
  · exact (UniverseDecoder.rice p hp).range ((reads_pRice hr ha).word hv) hu h
      (hs.trans (List.append_assoc _ _ _).symm)
  · have hover := (reads_pVbyte hblocks hlast).overflow hv (hs.trans (List.append_assoc _ (true :: last) rest).symm)
    exact ⟨(RawDecoder.vb b ⟨hb, hb'⟩).raises (by decide) hover,
      fun hu => (UniverseDecoder.vb b ⟨hb, hb'⟩).raises hu (by decide) hover⟩
  · exact (UniverseDecoder.vb b ⟨hb, hb'⟩).range ((reads_pVbyte hblocks hlast).word hv) hu h
      (hs.trans (List.append_assoc _ (true :: last) rest).symm)
  · exact UniverseDecoder.una.range (reads_pUnary v) hu hv (hs.trans (List.append_assoc _ [false] rest).symm)
  · exact UniverseDecoder.bin.range (reads_getN (entropy_of_isEntropy he).symm) hu hv hs

end Sys2Proof.Machine
end

section
/-! PROOFS. Round trips of the codes, and chained decoders (40_bitio_universe_binary R149, 70_reset R425). -/

namespace Sys2Proof.Machine

/-! ## Parsers read back the codes -/

theorem reads_bin {v n : Nat} (h : v < 2 ^ n) : Reads (getN n) (bin v n) v := by
  have hr := reads_getN (length_bin v n)
  rwa [val_bin, Nat.mod_eq_of_lt h] at hr

theorem reads_gamma {x : Nat} (hx : x ≠ 0) : Reads pGamma (gamma x) x := fun rest => by
  rw [pGamma_gamma hx, Nat.zero_add]

theorem reads_delta {x : Nat} (hx : x ≠ 0) : Reads pDelta (delta x) x := fun rest => by
  rw [pDelta_delta hx, Nat.zero_add]

theorem reads_rice {x p : Nat} (hx : x < 2 ^ 64) (hq : x / 2 ^ p ≠ umax) : Reads (pRice p) (rice x p) x := fun rest => by
  rw [pRice_rice hx hq, Nat.zero_add]

theorem reads_vbyte {b : Nat} (hb : 1 ≤ b) (x : Nat) : Reads (pVbyte b) (vbyte x b) x := fun rest => by
  rw [pVbyte_vbyte hb, Nat.zero_add]

/-! ## One round trip -/

section
variable {enc dec : Instr} {p : Parser} {s t u : State} {a : BitStr} {r : Nat}

/-- What the raw decoder reads is what the encoder wrote (40 R149). -/
theorem RawDecoder.roundTrip (hd : RawDecoder dec p) (hr : Reads p a s.x.toNat) (henc : Encoded a s t)
    (hv : writtenBits s t <+: sourceView u) :
    ∃ v, exec dec u = .next v ∧ v.ecode = .ok ∧ v.res0 = s.x ∧ v.res1 = t.res1 := by
  rw [writtenBits_of_encoded henc] at hv
  obtain ⟨-, hlen, -⟩ := henc
  obtain ⟨rest, hrest⟩ := hv
  obtain ⟨v, hexec, -, hres0, hres1, ⟨hok, -⟩, -⟩ := hd.decoded hr s.x.isLt hrest.symm
  exact ⟨v, hexec, hok, BitVec.eq_of_toNat_eq hres0, BitVec.eq_of_toNat_eq (hres1.trans hlen.symm)⟩

/-- The universe form reads X back from its relative value (40 R142, R149). -/
theorem UniverseDecoder.roundTrip (hd : UniverseDecoder u dec p) (hr : Reads p a r) (hin : InUniverse s r)
    (hlo : u.ulo = s.ulo) (hhi : u.uhi = s.uhi) (henc : Encoded a s t) (hv : writtenBits s t <+: sourceView u) :
    ∃ v, exec dec u = .next v ∧ v.ecode = .ok ∧ v.res0 = s.x ∧ v.res1 = t.res1 := by
  rw [writtenBits_of_encoded henc] at hv
  obtain ⟨-, hlen, -⟩ := henc
  obtain ⟨rest, hrest⟩ := hv
  obtain ⟨h1, h2, rfl⟩ := hin
  have hx : u.ulo.toNat + (s.x.toNat - s.ulo.toNat) = s.x.toNat := by rw [hlo, Nat.add_sub_cancel' h1]
  obtain ⟨v, hexec, -, hres0, hres1, ⟨hok, -⟩, -⟩ := hd.decoded hr (by rw [hx, hhi]; exact h2) hrest.symm
  exact ⟨v, hexec, hok, BitVec.eq_of_toNat_eq (hres0.trans hx), BitVec.eq_of_toNat_eq (hres1.trans hlen.symm)⟩

end

/-! ## Encoders that ended OK -/

section
variable {i : Instr} {s t : State} (hok : t.ecode = .ok)
include hok

/-- A universe-form encoder that ended OK had X in the universe (40 R143, R144). -/
theorem inUniverse_of_ok {f : Nat → Except ErrCode State}
    (he : exec i s = complete s (checkUniverse s >>= fun _ => upro s >>= f)) (ht : exec i s = .next t) :
    InUniverse s (s.x.toNat - s.ulo.toNat) := by
  have hu : s.ulo.toNat ≤ s.uhi.toNat := Nat.le_of_not_lt fun hu =>
    (raises_emptyUniverse hu he).ecode_ne_ok (by decide) ht hok
  have hx : ¬ (s.x.toNat < s.ulo.toNat ∨ s.uhi.toNat < s.x.toNat) := fun hx =>
    (raises_range hu hx he).ecode_ne_ok (by decide) ht hok
  exact ⟨by omega, by omega, rfl⟩

/-- A command that raises ARG did not end OK. -/
theorem not_arg_of_ok {r : Except ErrCode State} (he : exec i s = complete s r) (ht : exec i s = .next t) :
    r ≠ .error .arg := fun hr =>
  (raises_of_error (by decide) he hr).ecode_ne_ok (by decide) ht hok

end

/-- X relative to the universe is a word. -/
theorem InUniverse.lt {s : State} {r : Nat} (h : InUniverse s r) : r < 2 ^ 64 := by
  have := s.x.isLt
  have := h.2.2
  omega

theorem InUniverse.succ_lt {s : State} {r : Nat} (h : InUniverse s r) (hr : r ≠ umax) : r + 1 < 2 ^ 64 := by
  have := h.lt
  simp only [umax] at hr
  omega

/-! ## The codes -/

/-- Settles O30: `getN` reads back `bin` of a value that fits (`reads_bin`). -/
theorem binaryRoundTrip : Obligations.BinaryRoundTrip := by
  refine ⟨fun n s t u hn hx hw ht hok hv => ?_, fun s t u hw ht hok hlo hhi hv => ?_⟩
  · exact (RawDecoder.bin n hn).roundTrip (reads_bin hx) ((writes_binEnc hn).encoded_of_ok hw ht hok) hv
  · have hin := inUniverse_of_ok hok rfl ht
    have hr : Reads (getN (entropy u.ulo.toNat u.uhi.toNat))
        (bin (s.x.toNat - s.ulo.toNat) (entropy s.ulo.toNat s.uhi.toNat)) (s.x.toNat - s.ulo.toNat) := by
      obtain ⟨-, hlt, -⟩ := isEntropy_entropy s.ulo.toNat s.uhi.toNat
      obtain ⟨-, hx, -⟩ := hin
      rw [hlo, hhi]
      exact reads_bin (by omega)
    exact UniverseDecoder.bin.roundTrip hr hin hlo hhi ((writes_binEncU hin).encoded_of_ok hw ht hok) hv

/-- Settles O31: `pUnary` reads back `unary` (`reads_pUnary`). -/
theorem unaryRoundTrip : Obligations.UnaryRoundTrip := by
  refine ⟨fun s t u hw ht hok hv => ?_, fun s t u hw ht hok hlo hhi hv => ?_⟩
  · exact RawDecoder.una.roundTrip (reads_pUnary _) (writes_unaEnc.encoded_of_ok hw ht hok) hv
  · have hin := inUniverse_of_ok hok rfl ht
    exact UniverseDecoder.una.roundTrip (reads_pUnary _) hin hlo hhi
      ((writes_unaEncU hin).encoded_of_ok hw ht hok) hv

/-- Settles O32: the parsers read back gamma and delta (`reads_gamma`, `reads_delta`); an OK encoder's value is one they
code. -/
theorem eliasRoundTrip : Obligations.EliasRoundTrip := by
  refine ⟨⟨fun s t u hw ht hok hv => ?_, fun s t u hw ht hok hlo hhi hv => ?_⟩,
    ⟨fun s t u hw ht hok hv => ?_, fun s t u hw ht hok hlo hhi hv => ?_⟩⟩
  · have hx : s.x.toNat ≠ 0 := fun hx => not_arg_of_ok hok rfl ht (if_pos hx)
    exact RawDecoder.gam.roundTrip ((reads_gamma hx).word s.x.isLt) ((writes_gamEnc hx).encoded_of_ok hw ht hok) hv
  · have hin := inUniverse_of_ok hok rfl ht
    have hr : s.x.toNat - s.ulo.toNat ≠ umax := fun hr =>
      not_arg_of_ok hok rfl ht ((universe_bind hin _).trans (if_pos hr))
    exact UniverseDecoder.gam.roundTrip ((reads_gamma (Nat.succ_ne_zero _)).word (hin.succ_lt hr)).pred hin hlo hhi
      ((writes_gamEncU hin hr).encoded_of_ok hw ht hok) hv
  · have hx : s.x.toNat ≠ 0 := fun hx => not_arg_of_ok hok rfl ht (if_pos hx)
    exact RawDecoder.del.roundTrip ((reads_delta hx).word s.x.isLt) ((writes_delEnc hx).encoded_of_ok hw ht hok) hv
  · have hin := inUniverse_of_ok hok rfl ht
    have hr : s.x.toNat - s.ulo.toNat ≠ umax := fun hr =>
      not_arg_of_ok hok rfl ht ((universe_bind hin _).trans (if_pos hr))
    exact UniverseDecoder.del.roundTrip ((reads_delta (Nat.succ_ne_zero _)).word (hin.succ_lt hr)).pred hin hlo hhi
      ((writes_delEncU hin hr).encoded_of_ok hw ht hok) hv

/-- Settles O33: `pRice` reads back rice (`reads_rice`); an OK encoder's quotient is not UMAX. -/
theorem riceRoundTrip : Obligations.RiceRoundTrip := by
  refine fun p hp => ⟨fun s t u hw ht hok hv => ?_, fun s t u hw ht hok hlo hhi hv => ?_⟩
  · have hk : exec (.riceEnc p) s = complete s (riceEncode p s.x.toNat s) := by
      simp only [exec, execRiceEnc, (riceExpOk_iff p).2 hp, checkK_true, Except.ok_bind]
    have hx : s.x.toNat / 2 ^ p.toNat ≠ umax := fun hx => not_arg_of_ok hok hk ht (if_pos hx)
    exact (RawDecoder.rice p hp).roundTrip ((reads_rice s.x.isLt hx).word s.x.isLt)
      ((writes_riceEnc hp hx).encoded_of_ok hw ht hok) hv
  · have hk : exec (.riceEncU p) s =
        complete s (checkUniverse s >>= fun _ => upro s >>= fun r => riceEncode p r s) := by
      simp only [exec, execRiceEncU, (riceExpOk_iff p).2 hp, checkK_true, Except.ok_bind]
    have hin := inUniverse_of_ok hok hk ht
    have hr : (s.x.toNat - s.ulo.toNat) / 2 ^ p.toNat ≠ umax := fun hr =>
      not_arg_of_ok hok hk ht ((universe_bind hin _).trans (if_pos hr))
    exact (UniverseDecoder.rice p hp).roundTrip ((reads_rice hin.lt hr).word hin.lt) hin hlo hhi
      ((writes_riceEncU hp hin hr).encoded_of_ok hw ht hok) hv

/-- Settles O34: `pVbyte` reads back vbyte (`reads_vbyte`). -/
theorem vbyteRoundTrip : Obligations.VbyteRoundTrip := by
  refine fun b hb hb' => ⟨fun s t u hw ht hok hv => ?_, fun s t u hw ht hok hlo hhi hv => ?_⟩
  · exact (RawDecoder.vb b ⟨hb, hb'⟩).roundTrip ((reads_vbyte hb _).word s.x.isLt)
      ((writes_vbEnc ⟨hb, hb'⟩).encoded_of_ok hw ht hok) hv
  · have hk : exec (.vbEncU b) s =
        complete s (checkUniverse s >>= fun _ => upro s >>= fun r => encoderCommit (vbyte r b.toNat) s) := by
      simp only [exec, execVbEncU, (vbBlockOk_iff b).2 ⟨hb, hb'⟩, checkK_true, Except.ok_bind]
    have hin := inUniverse_of_ok hok hk ht
    exact (UniverseDecoder.vb b ⟨hb, hb'⟩).roundTrip ((reads_vbyte hb _).word hin.lt) hin hlo hhi
      ((writes_vbEncU ⟨hb, hb'⟩ hin).encoded_of_ok hw ht hok) hv

/-! ## Chained decoders -/

/-- The commit moved the source cursor over what a parse took off the view. -/
def Advances (s u : State) : Prop :=
  u.params = s.params ∧ u.ilen = s.ilen ∧ u.ibuf = s.ibuf ∧
    ∃ src, Consumes (source s) src ∧ u.ipos = reg (s.ipos.toNat + src.q) ∧ u.res1 = reg src.q

theorem advances_decoderCommit {s : State} {src : Src} (h : Consumes (source s) src) (v : Nat) :
    Advances s (decoderCommit v src s) :=
  ⟨rfl, rfl, rfl, src, h, rfl, rfl⟩

/-- A decoder's computation: it raises an error other than OK, or advances the source cursor. -/
def Chains (s : State) (r : Except ErrCode State) : Prop := Proper r ∧ Ensures (Advances s) r

section
variable {s : State}

theorem Chains.ok {u : State} (h : Advances s u) : Chains s (.ok u) := ⟨proper_ok u, .ok h⟩

theorem Chains.commit {src : Src} (h : Consumes (source s) src) (v : Nat) : Chains s (.ok (decoderCommit v src s)) :=
  .ok (advances_decoderCommit h v)

theorem Chains.error {e : ErrCode} (h : e ≠ .ok) : Chains s (.error e) := ⟨proper_error h, .error e⟩

theorem Chains.bind {α : Type} {x : Except ErrCode α} {f : α → Except ErrCode State} (hx : Proper x)
    (hf : ∀ a, x = .ok a → Chains s (f a)) : Chains s (x >>= f) := by
  cases x with
  | ok a => exact hf a rfl
  | error e => exact .error fun he => hx (congrArg Except.error he)

theorem Chains.ite {c : Prop} [Decidable c] {x y : Except ErrCode State} (hx : Chains s x) (hy : Chains s y) :
    Chains s (if c then x else y) := by
  split <;> assumption

end

/-- The decoders: of the codes, raw and universe form, H.DEC and H.DESER. -/
def Decoder (i : Instr) : Prop :=
  i = .unaDec ∨ i = .unaDecU ∨ i = .gamDec ∨ i = .gamDecU ∨ i = .delDec ∨ i = .delDecU ∨ i = .binDecU ∨
    (∃ n, i = .binDec n) ∨ (∃ p, i = .riceDec p ∨ i = .riceDecU p) ∨ (∃ b, i = .vbDec b ∨ i = .vbDecU b) ∨
    i = .hDec ∨ i = .hDeser

/-- Every decoder commits what its parser consumed (20_memory R78). -/
theorem Decoder.chains {i : Instr} (hi : Decoder i) (s : State) : ∃ r, exec i s = complete s r ∧ Chains s r := by
  have hK := proper_checkK
  have hU := proper_checkUniverse s
  rcases hi with rfl | rfl | rfl | rfl | rfl | rfl | rfl | ⟨n, rfl⟩ | ⟨p, rfl | rfl⟩ | ⟨b, rfl | rfl⟩ | rfl | rfl
  · exact ⟨_, rfl, .bind (proper_pUnary _) fun ⟨v, src⟩ h => .commit (pUnary_consumes h) v⟩
  · exact ⟨_, rfl, .bind hU fun _ _ => .bind (proper_pUnary _) fun ⟨_, src⟩ h =>
      .bind (proper_uepi s _) fun v _ => .commit (pUnary_consumes h) v⟩
  · exact ⟨_, rfl, .bind (proper_pGamma _) fun ⟨v, src⟩ h => .bind (proper_checkWord v) fun _ _ =>
      .commit (pGamma_consumes h) v⟩
  · exact ⟨_, rfl, .bind hU fun _ _ => .bind (proper_pGamma _) fun ⟨g, src⟩ h => .bind (proper_checkWord g) fun _ _ =>
      .bind (proper_uepi s _) fun v _ => .commit (pGamma_consumes h) v⟩
  · exact ⟨_, rfl, .bind (proper_pDelta _) fun ⟨v, src⟩ h => .bind (proper_checkWord v) fun _ _ =>
      .commit (pDelta_consumes h) v⟩
  · exact ⟨_, rfl, .bind hU fun _ _ => .bind (proper_pDelta _) fun ⟨g, src⟩ h => .bind (proper_checkWord g) fun _ _ =>
      .bind (proper_uepi s _) fun v _ => .commit (pDelta_consumes h) v⟩
  · exact ⟨_, rfl, .bind hU fun _ _ => .bind (proper_getN _ _) fun ⟨_, src⟩ h =>
      .bind (proper_uepi s _) fun v _ => .commit (getN_consumes h) v⟩
  · exact ⟨_, rfl, .bind (hK _) fun _ _ => .bind (proper_getN _ _) fun ⟨v, src⟩ h => .commit (getN_consumes h) v⟩
  · exact ⟨_, rfl, .bind (hK _) fun _ _ => .bind (proper_pRice _ _) fun ⟨v, src⟩ h =>
      .bind (proper_checkWord v) fun _ _ => .commit (pRice_consumes h) v⟩
  · exact ⟨_, rfl, .bind (hK _) fun _ _ => .bind hU fun _ _ => .bind (proper_pRice _ _) fun ⟨r, src⟩ h =>
      .bind (proper_checkWord r) fun _ _ => .bind (proper_uepi s _) fun v _ => .commit (pRice_consumes h) v⟩
  · exact ⟨_, rfl, .bind (hK _) fun _ _ => .bind (proper_pVbyte _ _) fun ⟨v, src⟩ h =>
      .bind (proper_checkWord v) fun _ _ => .commit (pVbyte_consumes h) v⟩
  · exact ⟨_, rfl, .bind (hK _) fun _ _ => .bind hU fun _ _ => .bind (proper_pVbyte _ _) fun ⟨r, src⟩ h =>
      .bind (proper_checkWord r) fun _ _ => .bind (proper_uepi s _) fun v _ => .commit (pVbyte_consumes h) v⟩
  · exact ⟨_, rfl, .bind (proper_heldTree s) fun t _ => .bind (proper_walk t _) fun ⟨c, src⟩ h =>
      .commit (Tree.walk_consumes h).1 c⟩
  · exact ⟨_, rfl, .bind (proper_pTopo _ _ _ _) fun ⟨shape, src, n⟩ ht =>
      .ite (.ok (advances_decoderCommit (pTopo_ok ht).1 0)) (.bind (proper_pAlpha _ _ _) fun ⟨t, src'⟩ ha =>
        .ite (.error (by decide)) (.ok (advances_decoderCommit ((pTopo_ok ht).1.trans (pAlpha_ok ha).1) t.alpha.length)))⟩

/-- Over written words a source bit does not depend on the draw (20_memory R75; log 4). -/
theorem ibufBit_eq_of_written {s t : State} (hi : t.ibuf = s.ibuf) {k : Nat}
    (hk : (Memory.get? s.ibuf (k / 64)).isSome) : ibufBit t k = ibufBit s k := by
  obtain ⟨w, hw⟩ := Option.isSome_iff_exists.1 hk
  simp only [ibufBit, ibufWord, hi, hw, Option.getD_some]

/-- A commit that advances the cursor leaves the view without the bits consumed (20_memory R77). -/
theorem Advances.sourceView_drop {s u t : State} (h : Advances s u) (hw : s.params.wf)
    (hwritten : ∀ j, j < 2 ^ s.params.ilog / 64 → (Memory.get? s.ibuf j).isSome) (hp : t.params = u.params)
    (hl : t.ilen = u.ilen) (hb : t.ibuf = u.ibuf) (hi : t.ipos = u.ipos) (hr : t.res1 = u.res1) :
    sourceView t = (sourceView s).drop t.res1.toNat := by
  obtain ⟨hp', hl', hb', src, hc, hi', hr'⟩ := h
  obtain ⟨a, ha, hq⟩ := consumed_of_source hc
  obtain ⟨-, -, -, -, hwords⟩ := window_sizes hw
  have hend : sourceEnd t = sourceEnd s := by rw [sourceEnd, sourceEnd, hl, hl', hp, hp']
  have hlen := congrArg List.length ha
  rw [length_sourceView, List.length_append] at hlen
  have hlt := s.ilen.isLt
  have hipos := s.ipos.isLt
  have hmin : sourceEnd s ≤ s.ilen.toNat ∧ sourceEnd s ≤ 2 ^ s.params.ilog := ⟨Nat.min_le_left _ _, Nat.min_le_right _ _⟩
  have hres1 : t.res1.toNat = src.q := by rw [hr, hr', toNat_reg_of_lt (by omega)]
  have hpos : t.ipos.toNat = s.ipos.toNat + src.q := by rw [hi, hi', toNat_reg_of_lt (by omega)]
  apply List.ext_getElem
  · simp only [length_sourceView, List.length_drop, hend, hpos, hres1]
    omega
  · intro j hj _
    rw [length_sourceView, hend, hpos] at hj
    simp only [sourceView, List.getElem_drop, List.getElem_map, List.getElem_range, hpos, hres1, ← Nat.add_assoc]
    exact ibufBit_eq_of_written (hb.trans hb') (hwritten _ (by omega))

/-- Settles O35: an OK decoder's commit advances the cursor over what it consumed (`Decoder.chains`). -/
theorem cursorChaining : Obligations.CursorChaining := by
  intro i s t hi hwritten hw ht hok
  obtain ⟨r, hexec, hproper, hadvances⟩ := Decoder.chains hi s
  obtain ⟨u, hu, rfl⟩ := commit_of_completed_ok hproper (hexec ▸ ht) hok
  exact (hadvances u hu).sourceView_drop hw hwritten rfl rfl rfl rfl rfl

end Sys2Proof.Machine
end

section
/-! PROOFS. The histogram and the tree builder (44_huffman_build R290 to R299). -/

namespace Sys2Proof.Machine

/-! ## The histogram -/

/-- A listed cell of an array that holds one value everywhere has that value. -/
theorem Memory.get?_const {α : Type} (v : α) {l : List Nat} {c : Nat} (h : c ∈ l) :
    Memory.get? (l.map fun k => (k, v)) c = some v := by
  induction l with
  | nil => cases h
  | cons k l ih =>
    by_cases hk : k = c
    · simp [Memory.get?, hk]
    · simp [Memory.get?, hk, ih ((List.mem_cons.1 h).resolve_left (Ne.symm hk))]

section
variable {s : State}

theorem hInc_raises_range (h : 2 ^ s.params.cw ≤ s.x.toNat) : Raises .hInc s .range :=
  raises_of_error (by decide) rfl (if_pos h)

theorem hInc_raises_overflow (h : s.x.toNat < 2 ^ s.params.cw) (hc : (histCount s s.x.toNat).toNat = 2 ^ 32 - 1) :
    Raises .hInc s .overflow :=
  raises_of_error (by decide) rfl ((if_neg (Nat.not_le.2 h)).trans (if_pos hc))

/-- H.INC of a character whose counter is not saturated stores the count plus 1 (44 R291). -/
theorem exec_hInc (h : s.x.toNat < 2 ^ s.params.cw) (hc : (histCount s s.x.toNat).toNat < 2 ^ 32 - 1) :
    exec .hInc s = .next (completeWith .ok (setRes0 ((histCount s s.x.toNat).toNat + 1)
      (setHist (Memory.store s.hist s.x.toNat [histCount s s.x.toNat + 1]) s))) := by
  have hsucc : BitVec.ofNat 32 ((histCount s s.x.toNat).toNat + 1) = histCount s s.x.toNat + 1 := by
    rw [BitVec.ofNat_add, BitVec.ofNat_toNat, BitVec.setWidth_eq]
    rfl
  rw [← hsucc]
  exact congrArg (complete s) ((if_neg (Nat.not_le.2 h)).trans (if_neg hc.ne))

end

/-- Settles O36: H.CLR writes every cell (`Memory.get?_const`), H.INC one (`exec_hInc`), behind its two checks. -/
theorem histogramCommands : Obligations.HistogramCommands := by
  refine fun s => ⟨⟨_, rfl, completedOk_completeWith rfl, fun c hc => Memory.get?_const 0 (List.mem_range.2 hc), rfl⟩,
    fun hx hc => ⟨_, exec_hInc hx hc, completedOk_completeWith rfl, ?_, fun c hne => ?_, ?_, rfl⟩,
    hInc_raises_range, hInc_raises_overflow⟩
  · simp [Memory.get?_store_one]
  · simp [Memory.get?_store_one, hne]
  · exact toNat_reg_of_lt (by omega)

/-! ## The leaves of HIST -/

/-- The leaves of HIST are the counted characters with their counts (44 R292). -/
theorem histLeaves_eq (s : State) :
    histLeaves s = (countedChars s).map fun c => (c, (histCount s c).toNat) := by
  rw [histLeaves, List.filter_map]
  rfl

theorem countedChars_nodup (s : State) : (countedChars s).Nodup := List.nodup_range.filter _

theorem mem_countedChars {s : State} {c : Nat} :
    c ∈ countedChars s ↔ c < 2 ^ s.params.cw ∧ (histCount s c).toNat ≠ 0 := by
  simp [countedChars]

theorem length_countedChars_le (s : State) : (countedChars s).length ≤ 2 ^ s.params.cw := by
  have h := List.length_filter_le (fun c => (histCount s c).toNat != 0) (List.range (2 ^ s.params.cw))
  rwa [List.length_range] at h

section
variable {s : State}

theorem buildLeaves_nil (h : countedChars s = []) : buildLeaves s = [] := by
  rw [buildLeaves, histLeaves_eq, h]
  rfl

/-- A single leaf gets the synthetic second one (44 R293). -/
theorem buildLeaves_one {c : Nat} (h : countedChars s = [c]) :
    buildLeaves s = [(c, (histCount s c).toNat), (2 ^ s.params.cw - 1 - c, 0)] := by
  rw [buildLeaves, histLeaves_eq, h]
  rfl

theorem buildLeaves_many (h : 2 ≤ (countedChars s).length) :
    buildLeaves s = (countedChars s).map fun c => (c, (histCount s c).toNat) := by
  rw [buildLeaves, histLeaves_eq]
  match hc : countedChars s with
  | [] | [_] => simp [hc] at h
  | _ :: _ :: _ => rfl

end

/-- The build of one counted character and the synthetic leaf puts the latter on the right (44 R293, R294). -/
theorem buildTree_synthetic {c d f : Nat} (hf : f ≠ 0) :
    buildTree [(c, f), (d, 0)] = some (.node (.leaf c) (.leaf d)) := by
  simp [buildTree, push, leafEntry, Entry.before, mergeLoop, innerEntry, hf]

/-! ## H.BUILD -/

/-- A command wrote TREE and the two results and nothing else. -/
def Built (ts : TreeState) (v w : Nat) (s t : State) : Prop :=
  CompletedOk s t ∧ t.tree = ts ∧ t.res0.toNat = v ∧ t.res1.toNat = w ∧
    t = { s with
      tree := t.tree, res0 := t.res0, res1 := t.res1
      ecode := t.ecode, done := t.done, err := t.err, busy := t.busy, draws := t.draws }

section
variable {s : State}

theorem built_completeWith {ts : TreeState} {v w : Nat} (hv : v < 2 ^ 64) (hw : w < 2 ^ 64) :
    Built ts v w s (completeWith .ok (setRes1 w (setRes0 v (setTree ts s)))) :=
  ⟨completedOk_completeWith rfl, rfl, toNat_reg_of_lt hv, toNat_reg_of_lt hw, rfl⟩

theorem hBuild_empty (h : buildTree (buildLeaves s) = none) : ∃ t, exec .hBuild s = .next t ∧ Built .empty 0 0 s t := by
  rw [exec_hBuild, h]
  exact ⟨_, rfl, built_completeWith (by decide) (by decide)⟩

theorem hBuild_tree_held {b : Tree} (h : buildTree (buildLeaves s) = some b) (hd : b.depth ≤ lmax)
    (hl : (buildLeaves s).length < 2 ^ 63) : ∃ t, exec .hBuild s = .next t ∧
      Built (.valid b) (buildLeaves s).length (2 * (buildLeaves s).length - 1) s t := by
  rw [exec_hBuild, h, buildCommit, if_neg (Nat.not_lt.2 hd)]
  exact ⟨_, rfl, built_completeWith (by omega) (by omega)⟩

theorem hBuild_tooDeep {b : Tree} (h : buildTree (buildLeaves s) = some b) (hd : lmax < b.depth) :
    Raises .hBuild s .codeLen :=
  raises_of_error (by decide) (exec_hBuild s) (by rw [h, buildCommit, if_pos hd])

end

/-- Settles O37: no leaf makes no tree, and one makes the tree of it and its complement (`buildTree_synthetic`). -/
theorem hBuildSmall : Obligations.HBuildSmall := by
  refine fun s hw => ⟨fun h => ?_, fun c h => ?_⟩
  · obtain ⟨t, hexec, hbuilt⟩ := hBuild_empty (s := s) (by rw [buildLeaves_nil h, buildTree_nil])
    exact ⟨t, hexec, hbuilt⟩
  · have hc : c ∈ countedChars s := h ▸ List.mem_singleton_self c
    have hleaves := buildLeaves_one h
    have htree := buildTree_synthetic (c := c) (d := 2 ^ s.params.cw - 1 - c) (mem_countedChars.1 hc).2
    rw [← hleaves] at htree
    have hlen : (buildLeaves s).length = 2 := by rw [hleaves]; rfl
    obtain ⟨t, hexec, hbuilt⟩ := hBuild_tree_held htree (by simp [Tree.depth, lmax]) (by omega)
    rw [hlen] at hbuilt
    exact ⟨t, hexec, hbuilt⟩

/-- Settles O38: the build goes as the merge loop's relation says (`buildTree_merges`), and H.BUILD holds its tree or
raises CODE_LEN. -/
theorem hBuildResult : Obligations.HBuildResult := by
  intro s hw h
  have hleaves := buildLeaves_many h
  have hfst : (buildLeaves s).map Prod.fst = countedChars s := by
    rw [hleaves, List.map_map]
    exact List.map_id' _
  have hlen : (buildLeaves s).length = (countedChars s).length := by rw [← hfst, List.length_map]
  obtain ⟨b, hb, hperm⟩ := buildTree_some (List.ne_nil_of_length_pos (by omega : 0 < (buildLeaves s).length))
  have hmerges := buildTree_merges hb (hfst ▸ countedChars_nodup s)
  rw [hleaves, List.map_map] at hmerges
  rw [hfst] at hperm
  have hk : (buildLeaves s).length < 2 ^ 63 := by
    obtain ⟨hchars, -⟩ := numChars_and_nmax_bounds hw
    have := length_countedChars_le s
    simp only [numChars] at hchars
    omega
  rcases Nat.lt_or_ge lmax b.depth with hd | hd
  · obtain ⟨t, hexec, hfailed⟩ := hBuild_tooDeep hb hd
    exact ⟨t, b, hexec, hb, hmerges, hperm, fun hd' => absurd hd (Nat.not_lt.2 hd'), fun _ => hfailed⟩
  · obtain ⟨t, hexec, hbuilt⟩ := hBuild_tree_held hb hd hk
    rw [hlen] at hbuilt
    exact ⟨t, b, hexec, hb, hmerges, hperm, fun _ => hbuilt, fun hd' => absurd hd' (Nat.not_lt.2 hd)⟩

/-! ## Counts ordered alike -/

/-- H.BUILD's outcome is decided by the tree of the build and the number of leaves. -/
theorem sameBuild_of_eq {s u : State} (ht : buildTree (buildLeaves u) = buildTree (buildLeaves s))
    (hl : (buildLeaves u).length = (buildLeaves s).length) : SameBuild s u := by
  refine ⟨_, _, exec_hBuild s, exec_hBuild u, ?_⟩
  rw [ht, hl]
  cases buildTree (buildLeaves s) with
  | none => exact ⟨rfl, fun _ => ⟨rfl, rfl, rfl⟩⟩
  | some b =>
    by_cases hd : lmax < b.depth
    · simp only [buildCommit, if_pos hd]
      exact ⟨rfl, fun h => nomatch h⟩
    · simp only [buildCommit, if_neg hd]
      exact ⟨rfl, fun _ => ⟨rfl, rfl, rfl⟩⟩

/-- Counts that order disjoint sets of characters alike count the same characters: compare with the empty set. -/
theorem countedChars_alike {s u : State} (hp : u.params = s.params)
    (h : OrderAlike (· < 2 ^ s.params.cw) (fun c => (histCount u c).toNat) fun c => (histCount s c).toNat) :
    countedChars u = countedChars s := by
  rw [countedChars, countedChars, hp]
  refine List.filter_congr fun c hc => ?_
  have hpos := h [] [c] (by simp) (by simpa using hc)
  simp only [List.map_nil, List.sum_nil, List.map_cons, List.sum_cons, Nat.add_zero, Nat.pos_iff_ne_zero] at hpos
  rw [Bool.eq_iff_iff, bne_iff_ne, bne_iff_ne, hpos]

theorem sameBuild_of_orderAlike {s u : State} (hp : u.params = s.params)
    (h : OrderAlike (· < 2 ^ s.params.cw) (fun c => (histCount u c).toNat) fun c => (histCount s c).toNat) :
    SameBuild s u := by
  have hchars := countedChars_alike hp h
  match hc : countedChars s with
  | [] =>
    rw [hc] at hchars
    exact sameBuild_of_eq (by rw [buildLeaves_nil hc, buildLeaves_nil hchars])
      (by rw [buildLeaves_nil hc, buildLeaves_nil hchars])
  | [c] =>
    rw [hc] at hchars
    have hcs : (histCount s c).toNat ≠ 0 := (mem_countedChars.1 (hc ▸ List.mem_singleton_self c)).2
    have hcu : (histCount u c).toNat ≠ 0 := (mem_countedChars.1 (hchars ▸ List.mem_singleton_self c)).2
    refine sameBuild_of_eq ?_ (by rw [buildLeaves_one hc, buildLeaves_one hchars]; rfl)
    rw [buildLeaves_one hc, buildLeaves_one hchars, buildTree_synthetic hcs, buildTree_synthetic hcu, hp]
  | _ :: _ :: _ =>
    have hmany : 2 ≤ (countedChars s).length := by simp [hc]
    have hls := buildLeaves_many hmany
    have hlu := buildLeaves_many (hchars ▸ hmany)
    refine sameBuild_of_eq ?_ (by rw [hls, hlu, List.length_map, List.length_map, hchars])
    rw [hls, hlu, hchars]
    exact buildTree_alike h _ (countedChars_nodup s) fun c hm => (mem_countedChars.1 hm).1

/-- Settles O40: counts ordered alike make the same tree (`buildTree_alike`), and scaled counts are ordered alike. -/
theorem buildScaleInvariant : Obligations.BuildScaleInvariant := by
  refine fun s u hp => ⟨sameBuild_of_orderAlike hp, fun k hk hscale => sameBuild_of_orderAlike hp ?_⟩
  intro a b _ hab
  have hsum : ∀ l : List Nat, (∀ c ∈ l, c < 2 ^ s.params.cw) →
      (l.map fun c => (histCount u c).toNat).sum = k * (l.map fun c => (histCount s c).toNat).sum := fun l hl => by
    rw [List.map_congr_left fun c hc => hscale c (hl c hc), List.sum_map_mul_left]
  rw [hsum a fun c hc => hab c (List.mem_append_left _ hc), hsum b fun c hc => hab c (List.mem_append_right _ hc),
    Nat.mul_lt_mul_left hk]

end Sys2Proof.Machine
end

section
/-! PROOFS. The deserializer: the tree it reads, and where it raises each of its errors (45_huffman_serialize R334 to
R338). -/

namespace Sys2Proof.Machine

/-! ## H.DESER as a parser and a commit -/

/-- The parse of H.DESER: no tree when the topology is one bit, else the labelled tree (45 R336). -/
def pTree (p : Config.Params) (src : Src) : Except ErrCode (Option Tree × Src) := do
  let (shape, src, n) ← pTopo (nmax p) (nmax p + 1) src 0
  if n ≤ 1 then .ok (none, src)
  else do
    let (t, src) ← pAlpha (numChars p) shape src
    .ok (some t, src)

/-- What H.DESER commits of its parse (45 R336). -/
def deserCommit (s : State) : Option Tree × Src → Except ErrCode State
  | (none, src) => .ok (setTree .empty (decoderCommit 0 src s))
  | (some t, src) =>
    if lmax < t.depth then .error .codeLen else .ok (setTree (.valid t) (decoderCommit t.alpha.length src s))

theorem exec_hDeser (s : State) : exec .hDeser s = complete s (pTree s.params (source s) >>= deserCommit s) := by
  simp only [exec, execHDeser, pTree]
  cases pTopo (nmax s.params) (nmax s.params + 1) (source s) 0 with
  | error e => rfl
  | ok r =>
    simp only [Except.ok_bind]
    split
    · rfl
    · cases pAlpha (numChars s.params) r.1 r.2.1 <;> rfl

section
variable {s : State} {e : ErrCode}

theorem raises_hDeser (he : e ≠ .ok) (h : pTree s.params (source s) = .error e) : Raises .hDeser s e :=
  raises_of_error he (exec_hDeser s) (by rw [h, Except.error_bind])

theorem raises_hDeser_tooDeep {t : Tree} {src : Src} (h : pTree s.params (source s) = .ok (some t, src))
    (hd : lmax < t.depth) : Raises .hDeser s .codeLen :=
  raises_of_error (by decide) (exec_hDeser s) (by rw [h]; exact if_pos hd)

/-- H.DESER holds the tree it parsed when it is no deeper than LMAX (45 R336). -/
theorem hDeser_decoded {t : Tree} {a rest : BitStr} (hs : sourceView s = a ++ rest)
    (h : pTree s.params (source s) = .ok (some t, { bits := rest, q := a.length })) (hd : t.depth ≤ lmax)
    (hk : t.alpha.length < 2 ^ 64) : ∃ u, exec .hDeser s = .next u ∧ u.tree = .valid t ∧
      Decoded t.alpha.length a.length { s with tree := .valid t } u := by
  rw [exec_hDeser, h, Except.ok_bind, deserCommit, if_neg (Nat.not_lt.2 hd)]
  exact ⟨_, rfl, rfl, decoded_commit (s := { s with tree := .valid t }) hs rfl rfl hk⟩

end

/-! ## After a complete topology -/

theorem nmax_eq (p : Config.Params) : nmax p + 1 = 2 ^ (p.cw + 1) := Nat.sub_add_cancel Nat.one_le_two_pow

/-- After the topology of two leaves or more the alphabet is parsed (45 R336). -/
theorem pTree_topo {p : Config.Params} {b : Tree} (h2 : 2 ≤ b.alpha.length) (hn : b.nodes < 2 ^ (p.cw + 1))
    (x : BitStr) : pTree p { bits := b.topo ++ x, q := 0 } =
      (pAlpha (numChars p) b.shape { bits := x, q := b.nodes }).map fun r => (some r.1, r.2) := by
  have hcap := nmax_eq p
  have hdepth := b.depth_lt_nodes
  have hnodes := b.nodes_eq
  rw [pTree, pTopo_append b _ 0 (by omega) (by omega)]
  simp only [Except.ok_bind, Nat.zero_add, if_neg (show ¬ b.nodes ≤ 1 by omega)]
  rfl

section
variable {s : State} {b : Tree} {x : BitStr} {e : ErrCode}

/-- An error of the alphabet's parser is H.DESER's. -/
theorem raises_hDeser_alpha (h2 : 2 ≤ b.alpha.length) (hn : b.nodes < 2 ^ (s.params.cw + 1))
    (hs : sourceView s = b.topo ++ x) (he : e ≠ .ok)
    (h : pAlpha (numChars s.params) b.shape { bits := x, q := b.nodes } = .error e) : Raises .hDeser s e :=
  raises_hDeser he (by rw [source_eq hs, pTree_topo h2 hn, h]; rfl)

end

/-! ## The two ends of the alphabet -/

section
variable {chars : Nat} {sh : Shape} {lo d : Nat} (rest : BitStr) (q : Nat)

theorem pAlpha_low_overflow (hd : 2 ^ 64 ≤ d) :
    pAlpha chars sh { bits := delta d ++ rest, q := q } = .error .overflow := by
  rw [pAlpha, pDelta_delta (by omega)]
  simp only [Except.ok_bind, checkWord_error hd, Except.error_bind]

theorem pAlpha_range_overflow (hlo : lo < umax) (hd : 2 ^ 64 ≤ d) :
    pAlpha chars sh { bits := delta (lo + 1) ++ (delta d ++ rest), q := q } = .error .overflow := by
  have hlo' : lo + 1 < 2 ^ 64 := by simp only [umax] at hlo; omega
  rw [pAlpha, pDelta_delta (by omega)]
  simp only [Except.ok_bind, checkWord_ok hlo']
  rw [pDelta_delta (by omega)]
  simp only [Except.ok_bind, checkWord_error hd, Except.error_bind]

/-- Two ends below 2^64 give lo and hi = lo + d; a hi above UMAX is RANGE (45 R335). -/
theorem pAlpha_ends (hlo : lo < umax) (hd : d < umax) :
    pAlpha chars sh { bits := delta (lo + 1) ++ (delta (d + 1) ++ rest), q := q } =
      if umax < lo + d then .error .range
      else (labelLeaves chars lo (lo + d) (entropy lo (lo + d)) sh
        { bits := rest, q := q + (delta (lo + 1)).length + (delta (d + 1)).length } []).map fun r => (r.1, r.2.1) := by
  have hlo' : lo + 1 < 2 ^ 64 := by simp only [umax] at hlo; omega
  have hd' : d + 1 < 2 ^ 64 := by simp only [umax] at hd; omega
  rw [pAlpha, pDelta_delta (by omega)]
  simp only [Except.ok_bind, checkWord_ok hlo']
  rw [pDelta_delta (by omega)]
  simp only [Except.ok_bind, checkWord_ok hd', Nat.add_sub_cancel]
  rfl

end

/-! ## Views cut short -/

/-- A parser that a longer source leaves alone runs out of bits on a string cut short, if it reads the whole string to
its end. -/
theorem Extends.short {α : Type} {p : Src → Except ErrCode (α × Src)} (hp : Extends moreLast p) {src : Src}
    {y : BitStr} {v : α} {q : Nat} (hy : y ≠ []) (h : p (more y src) = .ok (v, { bits := [], q := q })) :
    p src = .error .srcEmpty := by
  by_contra hne
  have hmap := hp src y hne
  rw [h] at hmap
  cases hps : p src with
  | error e => rw [hps] at hmap; cases hmap
  | ok r =>
    rw [hps] at hmap
    have hbits : [] = r.2.bits ++ y := congrArg (fun r : α × Src => r.2.bits) (Except.ok.inj hmap)
    exact hy (List.append_eq_nil_iff.1 hbits.symm).2

theorem extends_pTree (p : Config.Params) : Extends moreLast (pTree p) := by
  refine extends_bind3 (extends_pTopo (nmax p) (nmax p + 1) 0) fun shape src n y h => ?_
  by_cases hn : n ≤ 1
  · simp only [if_pos hn]
    rfl
  · simp only [if_neg hn] at h ⊢
    exact extends_bind (g' := moreLast) (extends_pAlpha (numChars p) shape) (fun t s y _ => rfl) src y h

/-! ## Topologies that are none, or too large -/

/-- Without a complete topology of at most NMAX bits the topology's parser stops (45 R334). -/
theorem pTree_noTopo {p : Config.Params} {v : BitStr}
    (h : ∀ b : Tree, b.topo <+: v → 2 ^ (p.cw + 1) ≤ b.topo.length) :
    pTree p { bits := v, q := 0 } = .error (if v.length < 2 ^ (p.cw + 1) then .srcEmpty else .malformed) := by
  have hcap := nmax_eq p
  cases ht : pTopo (nmax p) (nmax p + 1) { bits := v, q := 0 } 0 with
  | ok r =>
    obtain ⟨b, hbits, hlen, hle⟩ := pTopo_tree ht
    have := h b ⟨_, hbits.symm⟩
    omega
  | error e =>
    rw [pTree, ht, Except.error_bind]
    rcases pTopo_error (by omega) (Nat.zero_le _) ht with ⟨rfl, hlen⟩ | ⟨rfl, hlen⟩ <;> dsimp only at hlen
    · rw [if_pos (by omega)]
    · rw [if_neg (by omega)]

/-! ## The claims -/

/-- A serialized form over any range that holds the characters, as the claims write it (45 R332, R335). -/
def serString (b : Tree) (lo hi e : Nat) : BitStr :=
  b.topo ++ delta (lo + 1) ++ delta (hi - lo + 1) ++ b.alpha.flatMap fun c => bitsOf (c - lo) e

theorem length_serString (b : Tree) (lo hi e : Nat) : (serString b lo hi e).length =
    b.topo.length + (delta (lo + 1)).length + (delta (hi - lo + 1)).length + b.alpha.length * e := by
  simp [serString, Nat.add_assoc]

/-- The parse of such a form is the tree (45 R334, R335). -/
theorem pTree_serString {p : Config.Params} {b : Tree} {lo hi e : Nat} (hw : p.wf) (h2 : 2 ≤ b.alpha.length)
    (hn : b.nodes < 2 ^ (p.cw + 1)) (hnd : b.alpha.Nodup) (hc : ∀ c ∈ b.alpha, lo ≤ c ∧ c ≤ hi ∧ c < 2 ^ p.cw)
    (hhi : hi ≤ umax) (hd : hi - lo + 1 < 2 ^ 64) (he : IsEntropy lo hi e) (rest : BitStr) :
    pTree p { bits := serString b lo hi e ++ rest, q := 0 } =
      .ok (some b, { bits := rest, q := (serString b lo hi e).length }) := by
  obtain rfl := entropy_of_isEntropy he
  obtain ⟨hchars, -⟩ := numChars_and_nmax_bounds hw
  have halpha := pAlpha_append (chars := numChars p) b (fun c h => ⟨(hc c h).1, (hc c h).2.1⟩) (fun c h => (hc c h).2.2)
    (by simp only [umax]; omega) hhi hd hnd rest b.nodes
  rw [length_serString, b.length_topo]
  simp only [serString, List.append_assoc, ← bin_eq_bitsOf]
  rw [pTree_topo h2 hn, halpha]
  rfl

/-- The errors of a leaf's character: above the high end or no character of the part, or repeated (45 R335). -/
theorem pAlpha_leaf_error {chars : Nat} {b : Tree} {lo hi e c : Nat} {cs : List Nat} {err : ErrCode} (hle : lo ≤ hi)
    (hhi : hi ≤ umax) (hlo : lo < umax) (hd : hi - lo < umax) (he : IsEntropy lo hi e)
    (hk : cs.length < b.alpha.length) (hnd : cs.Nodup) (hc : ∀ d ∈ cs, lo ≤ d ∧ d ≤ hi ∧ d < chars)
    (h1 : lo ≤ c) (h2 : c - lo < 2 ^ e)
    (hb : (hi < c ∨ chars ≤ c) ∧ err = .range ∨ ¬ (hi < c ∨ chars ≤ c) ∧ c ∈ cs ++ [] ∧ err = .malformed)
    (rest : BitStr) (q : Nat) :
    pAlpha chars b.shape
        { bits := delta (lo + 1) ++ (delta (hi - lo + 1) ++
            ((cs.flatMap fun d => bitsOf (d - lo) e) ++ (bitsOf (c - lo) e ++ rest))), q := q } = .error err := by
  obtain rfl := entropy_of_isEntropy he
  obtain ⟨-, hlt, -⟩ := he
  rw [pAlpha_ends _ _ hlo hd, Nat.add_sub_cancel' hle, if_neg (Nat.not_lt.2 hhi)]
  simp only [← bin_eq_bitsOf]
  rw [labelLeaves_error b [] cs c err hk (fun d h => ?_) hnd (by simp) h1 h2 hb]
  · rfl
  · obtain ⟨hd1, hd2, hd3⟩ := hc d h
    exact ⟨hd1, hd2, hd3, by omega⟩

/-- Settles O46: the parsers read the whole string (`pTree_serString`), run out of bits on a part of it
(`Extends.short`), and stop where an end, a character or the topology is wrong. -/
theorem hDeserTree : Obligations.HDeserTree := by
  refine fun s hw => ⟨fun b lo hi e rest h2 hn hnd hc hhi hd he => ⟨fun hs => ?_, fun hs hrest => ?_⟩,
    fun hno => ?_,
    fun b x rest h2 hn hs => ⟨fun d hd hx => ?_,
      fun lo d hlo hd hx => ?_,
      fun lo d hlo hd hsum hx => ?_,
      fun lo hi e c cs hle hhi hlo hd he hk hnd hc h1 h2' hx => ?_⟩⟩
  · have hparse := pTree_serString hw h2 hn hnd hc hhi hd he rest
    have hview : sourceView s = serString b lo hi e ++ rest := hs
    rw [← source_eq hview] at hparse
    refine ⟨fun hdepth => ?_, raises_hDeser_tooDeep hparse⟩
    have hk : b.alpha.length < 2 ^ 64 := by
      obtain ⟨-, -, hmax⟩ := numChars_and_nmax_bounds hw
      have := nmax_eq s.params
      have := b.nodes_eq
      omega
    rw [← length_serString]
    exact hDeser_decoded hview hparse hdepth hk
  · have hfull : more rest (source s) = { bits := serString b lo hi e ++ [], q := 0 } := by
      rw [List.append_nil, serString, ← hs]
      rfl
    have hparse := pTree_serString hw h2 hn hnd hc hhi hd he []
    rw [← hfull] at hparse
    exact raises_hDeser (by decide) ((extends_pTree s.params).short hrest hparse)
  · have herror := pTree_noTopo hno
    refine ⟨fun hlen => raises_hDeser (by decide) ?_, fun hlen => raises_hDeser (by decide) ?_⟩
    · rwa [if_pos hlen] at herror
    · rwa [if_neg (Nat.not_lt.2 hlen)] at herror
  · exact raises_hDeser_alpha h2 hn hs (by decide) (hx ▸ pAlpha_low_overflow rest _ hd)
  · rw [List.append_assoc] at hx
    exact raises_hDeser_alpha h2 hn hs (by decide) (hx ▸ pAlpha_range_overflow rest _ hlo hd)
  · rw [List.append_assoc] at hx
    exact raises_hDeser_alpha h2 hn hs (by decide) (hx ▸ (pAlpha_ends rest _ hlo hd).trans (if_pos hsum))
  · simp only [List.append_assoc] at hx
    subst hx
    refine ⟨fun hbad => raises_hDeser_alpha h2 hn hs (by decide) ?_,
      fun hrep => raises_hDeser_alpha h2 hn hs (by decide) ?_⟩
    · exact pAlpha_leaf_error hle hhi hlo hd he hk hnd hc h1 h2' (.inl ⟨hbad, rfl⟩) rest _
    · obtain ⟨-, hle', hlt⟩ := hc c hrep
      have hgood : ¬ (hi < c ∨ numChars s.params ≤ c) := by
        simp only [numChars]
        omega
      exact pAlpha_leaf_error hle hhi hlo hd he hk hnd hc h1 h2' (.inr ⟨hgood, by simpa using hrep, rfl⟩) rest _

end Sys2Proof.Machine
end
